-- ==== Sys2Proof/Word.lean ====
section
/-! DEFINITION. The two word types of the block: 32-bit register and data words (00_scope.md R8) and the bytes of the
flash array (20_memory.md R34). -/

namespace Sys2Proof

/-- A register, address or data value, 32 bits wide and unsigned (R8). -/
abbrev Word := BitVec 32

/-- One byte of the flash array. -/
abbrev Byte := BitVec 8

/-- `bit(i)`: the 32-bit value with only bit `i` set (R8). -/
def bit (i : Nat) : Word := 1#32 <<< i

end Sys2Proof
end

