-- ==== Sys2Proof/Config.lean ====
section
/-! DEFINITION. The parameters of 00_scope.md section 3 that the spec makes arguments of the model, with their defaults
and the constraints of R6, and the free values behind the spec's `draw` (R9). The record is plain data: a machine state
carries one and no step changes it, so a statement about every state holds for every value of the parameters. -/

namespace Sys2Proof

/-- P10 KEY_ERROR_POLICY: what a wrong key write does to a key sequencer (R56, R57). -/
inductive KeyErrorPolicy where
  | retry | sticky
  deriving DecidableEq, Repr

/-- The parameters P1 to P16 and P21 (P5, P19 and P20 are fixed by the spec; P15, P17 and P22 are fields of State). -/
structure Config where
  /-- P1 FLASH_R_BASE -/
  flashRBase : Word
  /-- P2 OFF_PECR -/
  offPecr : Word
  /-- P2 OFF_PEKEYR -/
  offPekeyr : Word
  /-- P2 OFF_PRGKEYR -/
  offPrgkeyr : Word
  /-- P2 OFF_SR -/
  offSr : Word
  /-- P3 KEY_PE1 -/
  keyPe1 : Word
  /-- P3 KEY_PE2 -/
  keyPe2 : Word
  /-- P4 KEY_PRG1 -/
  keyPrg1 : Word
  /-- P4 KEY_PRG2 -/
  keyPrg2 : Word
  /-- P6 N, words per half-page -/
  n : Nat
  /-- P8 FLASH_BASE -/
  flashBase : Word
  /-- P8 FLASH_BYTES -/
  flashBytes : Nat
  /-- P9 ERASED_WORD -/
  erasedWord : Word
  /-- P10 KEY_ERROR_POLICY -/
  keyErrorPolicy : KeyErrorPolicy
  /-- P11 LOCKED_WRITE_RAISES -/
  lockedWriteRaises : Bool
  /-- P12 EOP_ON_ERROR -/
  eopOnError : Bool
  /-- P13 PROTECTED, as the list of the addresses of the protected words -/
  protectedWords : List Nat
  /-- P14 BANK, as the bank of each page in turn; a page beyond the list is in bank 0. A bank is thus constant on each
  page, as R6 asks. -/
  bankOfPage : List Nat
  /-- P16 FLASH_IRQ -/
  flashIrq : Nat
  /-- P16 PRIO_BITS -/
  prioBits : Nat
  /-- P16 NVIC_ISER -/
  nvicIser : Word
  /-- P16 NVIC_IPR_FLASH -/
  nvicIpr : Word
  /-- P16 IPR_SHIFT -/
  iprShift : Nat
  /-- P21 HANDLER_REGION: first address of the fault handler's code region -/
  handlerBase : Word
  /-- P21 HANDLER_REGION: its size in bytes -/
  handlerBytes : Nat
  deriving DecidableEq, Repr

namespace Config

/-- The defaults of 00_scope.md section 3. PRESUMED (A2, A4): the spec marks them general knowledge of the STM32L0. -/
def default : Config where
  flashRBase := 0x40022000#32
  offPecr := 0x04#32
  offPekeyr := 0x0C#32
  offPrgkeyr := 0x10#32
  offSr := 0x18#32
  keyPe1 := 0x89ABCDEF#32
  keyPe2 := 0x02030405#32
  keyPrg1 := 0x8C9DAEBF#32
  keyPrg2 := 0x13141516#32
  n := 16
  flashBase := 0x08000000#32
  flashBytes := 0x10000
  erasedWord := 0xFFFFFFFF#32
  keyErrorPolicy := .retry
  lockedWriteRaises := false
  eopOnError := false
  protectedWords := []
  bankOfPage := []
  flashIrq := 3
  prioBits := 2
  nvicIser := 0xE000E100#32
  nvicIpr := 0xE000E400#32
  iprShift := 24
  handlerBase := 0x20002000#32
  handlerBytes := 4

/-- Address of PECR (R15). -/
def pecrAddr (c : Config) : Word := c.flashRBase + c.offPecr
/-- Address of PEKEYR (R19). -/
def pekeyrAddr (c : Config) : Word := c.flashRBase + c.offPekeyr
/-- Address of PRGKEYR (R19). -/
def prgkeyrAddr (c : Config) : Word := c.flashRBase + c.offPrgkeyr
/-- Address of SR (R17). -/
def srAddr (c : Config) : Word := c.flashRBase + c.offSr

/-- P7 PAGE_WORDS (R7). -/
def pageWords (c : Config) : Nat := 2 * c.n
/-- P7 PAGE_BYTES (R7). -/
def pageBytes (c : Config) : Nat := 8 * c.n
/-- P7 HALF_BYTES (R7). -/
def halfBytes (c : Config) : Nat := 4 * c.n

/-- `a` lies in the flash array [FLASH_BASE, FLASH_BASE + FLASH_BYTES) (R32). Its end is a natural number, for R6 admits
2^32 there (A29). -/
def inFlash (c : Config) (a : Word) : Bool :=
  decide (c.flashBase.toNat ≤ a.toNat ∧ a.toNat < c.flashBase.toNat + c.flashBytes)

/-- `a` lies in the register window [FLASH_R_BASE, FLASH_R_BASE + 0x400) (R33). DESIGN CHOICE (A29): the window's end is a
natural number, so a window that reaches 2^32 ends there and does not wrap. -/
def inRegWindow (c : Config) (a : Word) : Bool :=
  decide (c.flashRBase.toNat ≤ a.toNat ∧ a.toNat < c.flashRBase.toNat + 0x400)

/-- The four register addresses, in the order of R52. -/
def regAddrs (c : Config) : List Word := [c.pekeyrAddr, c.prgkeyrAddr, c.pecrAddr, c.srAddr]

/-- The constraints of R6. (BANK is constant on each page by the form of `bankOfPage`.) -/
def geometryOk (c : Config) : Bool :=
  decide (1 ≤ c.n) &&
  decide (c.flashBase.toNat % c.pageBytes = 0) &&
  decide (c.flashBytes % c.pageBytes = 0) &&
  decide (c.flashBase.toNat + c.flashBytes ≤ 2 ^ 32) &&
  decide c.regAddrs.Nodup &&
  c.regAddrs.all (fun a => decide (a.toNat % 4 = 0) && !c.inFlash a)

/-- R32: "Every transaction targets exactly one of them". DEDUCED (A12): so the flash array does not meet the register
window, and the two NVIC words differ and lie in neither and are none of the four registers. -/
def rangesDisjoint (c : Config) : Bool :=
  decide (c.flashBase.toNat + c.flashBytes ≤ c.flashRBase.toNat ∨ c.flashRBase.toNat + 0x400 ≤ c.flashBase.toNat) &&
  decide (c.nvicIpr ≠ c.nvicIser) &&
  [c.nvicIpr, c.nvicIser].all (fun a => !c.inFlash a && !c.inRegWindow a && !c.regAddrs.contains a)

/-- The bank of an address of the flash array (P14). -/
def bank (c : Config) (a : Word) : Nat := c.bankOfPage.getD ((a.toNat - c.flashBase.toNat) / c.pageBytes) 0

/-- A code region that R49 and R36 admit: it starts at an even address and lies wholly outside the flash array, or wholly
inside one bank. -/
def codeRegionOk (c : Config) (base : Word) (bytes : Nat) : Bool :=
  decide (base.toNat % 2 = 0) &&
  decide (base.toNat + bytes ≤ 2 ^ 32) &&
  (decide (base.toNat + bytes ≤ c.flashBase.toNat) ||
   decide (c.flashBase.toNat + c.flashBytes ≤ base.toNat) ||
   (decide (c.flashBase.toNat ≤ base.toNat) &&
    decide (base.toNat + bytes ≤ c.flashBase.toNat + c.flashBytes) &&
    (List.range bytes).all (fun k => c.bank (base + BitVec.ofNat 32 k) == c.bank base)))

/-- HANDLER_REGION (P21) is the code region of a program (R91), so R49 and R36 hold of it. DEDUCED (A12). -/
def handlerOk (c : Config) : Bool := c.codeRegionOk c.handlerBase c.handlerBytes

/-- The places P16 names exist in a 32-bit word (R87, R88). DEDUCED (A12). -/
def irqPlacesOk (c : Config) : Bool :=
  decide (c.prioBits ≤ 8) && decide (c.iprShift + 8 ≤ 32) && decide (c.flashIrq < 32)

/-- The parameter values the spec admits (R6, with R32, R49 and P16). -/
def wf (c : Config) : Bool := c.geometryOk && c.rangesDisjoint && c.irqPlacesOk && c.handlerOk

/-- P20 ERR_MASK: bits 8, 9, 10, 11, 13, 16 and 17 (R17). -/
def errMask : Word := 0x00032F00#32

/-- FREE VALUE (A11): what the `k`-th draw of a run gives (R9) where the state lists no draw: SR's reserved bits (R18),
the error set of a completion (R68), a word of a failed or interrupted target (R68, R112). Nothing constrains it. -/
opaque freeWord : Nat → Word

/-- FREE VALUE (A6): whose turn the `k`-th step is that the state lists no agent for (R101). Nothing constrains it. -/
opaque freeTurn : Nat → Nat

end Config

end Sys2Proof
end

