-- ==== Sys2Proof/Syntax.lean ====
section
/-! DEFINITION. What a program is made of: the instructions (one constructor per row of spec/opcode_table.json), their
encodings, the items of a program with operand expressions (30_encoding.md R47 to R55), and the codes of the two model
outcomes (60_exceptions.md R95, R96). -/

namespace Sys2Proof

/-- A temporary (R28): the program's own, by number, or the `t` and `t2` of a pseudo-instruction's sequence. They are
sequence-local, so the two kinds share no storage (A13). -/
inductive Temp where
  | user (k : Nat) | seqT | seqT2
  deriving DecidableEq, Repr

/-- The scope argument of ACQUIRE_CHECKED (R63). -/
inductive Scope where
  | dataScope | programScope
  deriving DecidableEq, Repr

/-- The access sizes of R47: SZ = 0, 1, 2. -/
inductive Size where
  | byte | half | word
  deriving DecidableEq, Repr

/-- The six rows that share the array-write bit pattern; the state selects one (R71, R52). -/
inductive ArrForm where
  | locked | word | erase | hpFirst | hpNext | busy
  deriving DecidableEq, Repr

/-- UB fault codes (R95). -/
inductive UbCode where
  | pecrWhileBusy | reservedMode | arrayWriteWhileBusy | misalignedWord | misalignedErase | misalignedHalf
  | hpIrqEnabled | hpAddr | placement | bufRange
  deriving DecidableEq, Repr

/-- Refusal codes (R96). -/
inductive RefCode where
  | encoding | width | regOffset | unmapped | pecrBit | misalignedRead | otherIrq
  deriving DecidableEq, Repr

/-- An entry of the list `reasons` (R27). -/
inductive Reason where
  | ub (c : UbCode) | ref (c : RefCode)
  deriving DecidableEq, Repr

/-- Register operands are written by name and stand for their addresses (R51). -/
inductive RegName where
  | pecr | pekeyr | prgkeyr | sr | nvicIser | nvicIpr
  deriving DecidableEq, Repr

/-- Operand expressions: immediates and temporaries under `|`, `&`, `~` and `+` (R51). -/
inductive Expr where
  | imm (v : Word)
  | temp (t : Temp)
  | or (x y : Expr)
  | and (x y : Expr)
  | not (x : Expr)
  | add (x y : Expr)
  deriving DecidableEq, Repr

/-- `<target>` of R54: a register name or `[<expr>]`. -/
inductive Target where
  | reg (r : RegName)
  | addr (e : Expr)
  deriving DecidableEq, Repr

/-- The instructions, one constructor per row of spec/opcode_table.json. A read names its destination temporary; data and
addresses are the 32-bit values the CPU has computed (R51). -/
inductive Instr where
  -- 40_unlock_guard.md
  | wrPekeyr (d : Word)
  | rdPekeyr (t : Temp)
  | wrPrgkeyr (d : Word)
  | rdPrgkeyr (t : Temp)
  | wrPecr (d : Word)
  | rdPecr (t : Temp)
  -- 41_completion_monitor.md
  | wrSr (d : Word)
  | rdSr (t : Temp)
  -- 42_erase_program.md
  | rdArrW (a : Word) (t : Temp)
  | rdArrH (a : Word) (t : Temp)
  | rdArrB (a : Word) (t : Temp)
  | arrWrLocked (a d : Word)
  | arrWrWord (a d : Word)
  | arrWrErase (a d : Word)
  | arrWrHpFirst (a d : Word)
  | arrWrHpNext (a d : Word)
  | arrWrBusy (a d : Word)
  -- 43_fault_irq.md
  | wrNvicIpr (d : Word)
  | wrNvicIser (d : Word)
  | cpsid
  | cpsie
  | halt
  -- LOCAL items (R48); the index of LDBUF is a number fixed in the item (A32)
  | ldbuf (i : Nat) (t : Temp)
  | brnz (t : Temp) (mask : Word) (label : Nat)
  -- pseudo-instructions (R50, R55)
  | poll (tgt : Target) (mask val : Word)
  | acquirePe
  | acquirePrg
  | acquireChecked (sc : Scope) (fail : Nat)
  | release
  | waitDone
  | erasePage (a : Word)
  | programWord (a v : Word)
  | programHalf (b p h : Word)
  | init
  | cfgIrq (prio : Word)
  | faultHandler
  deriving DecidableEq, Repr

/-- The rows that have no bits and are written symbolically: LOCAL items and pseudo-instructions (R48, R55). -/
def Instr.symbolic : Instr → Bool
  | .ldbuf _ _ | .brnz _ _ _ | .poll _ _ _ | .acquirePe | .acquirePrg | .acquireChecked _ _ | .release | .waitDone
  | .erasePage _ | .programWord _ _ | .programHalf _ _ _ | .init | .cfgIrq _ | .faultHandler => true
  | .wrPekeyr _ | .rdPekeyr _ | .wrPrgkeyr _ | .rdPrgkeyr _ | .wrPecr _ | .rdPecr _ | .wrSr _ | .rdSr _ | .rdArrW _ _
  | .rdArrH _ _ | .rdArrB _ _ | .arrWrLocked _ _ | .arrWrWord _ _ | .arrWrErase _ _ | .arrWrHpFirst _ _
  | .arrWrHpNext _ _ | .arrWrBusy _ _ | .wrNvicIpr _ | .wrNvicIser _ | .cpsid | .cpsie | .halt => false

/-- An encoded item: the format tag is part of it (30_encoding.md section 1). A BUS word has no field for the
destination temporary of a read, so the item carries it beside the word (A14). -/
inductive Code where
  | bus (T : BitVec 67) (dst : Temp)
  | cpu (h : BitVec 16)
  | sym (i : Instr)
  deriving DecidableEq, Repr

/-- A program item as it is written (R54): an encoded item, or a BUS transaction whose operands are expressions. -/
inductive Item where
  | code (c : Code)
  | wr (tgt : Target) (data : Expr)
  | rd (sz : Size) (tgt : Target) (t : Temp)
  deriving DecidableEq, Repr

/-- A program: its items and its code region [base, base + bytes) (R49, P22). -/
structure Program where
  base  : Word
  bytes : Nat
  items : List Item
  deriving DecidableEq, Repr

end Sys2Proof
end

