-- ==== Sys2Proof/WellFormed.lean ====
section
/-! DEFINITION. Well-formed instructions and programs: what the encoding and 30_encoding.md R49 ask of them. Everything
else about an operand is decided when the instruction runs. -/

namespace Sys2Proof

/-- An array access names an address of the flash array (R52 steps 8 and 9). Every other operand is unrestricted. -/
def Instr.wf (c : Config) : Instr → Bool
  | .rdArrW a _ | .rdArrH a _ | .rdArrB a _ => c.inFlash a
  | .arrWrLocked a _ | .arrWrWord a _ | .arrWrErase a _ | .arrWrHpFirst a _ | .arrWrHpNext a _ | .arrWrBusy a _ =>
    c.inFlash a
  | .wrPekeyr _ | .rdPekeyr _ | .wrPrgkeyr _ | .rdPrgkeyr _ | .wrPecr _ | .rdPecr _ | .wrSr _ | .rdSr _
  | .wrNvicIpr _ | .wrNvicIser _ | .cpsid | .cpsie | .halt | .ldbuf _ _ | .brnz _ _ _ | .poll _ _ _ | .acquirePe
  | .acquirePrg | .acquireChecked _ _ | .release | .waitDone | .erasePage _ | .programWord _ _ | .programHalf _ _ _
  | .init | .cfgIrq _ | .faultHandler => true

/-- Labels name item indices (R49); the index past the last item is the end of the program. -/
def Item.labelOk (len : Nat) : Item → Bool
  | .code (.sym (.brnz _ _ l)) => decide (l ≤ len)
  | .code (.sym (.acquireChecked _ l)) => decide (l ≤ len)
  | .code (.sym i) => i.symbolic
  | .code (.bus _ _) | .code (.cpu _) | .wr _ _ | .rd _ _ _ => true

/-- The code region is one that R49 and R36 admit. -/
def Program.regionOk (c : Config) (p : Program) : Bool := c.codeRegionOk p.base p.bytes

/-- A well-formed program: its labels name items, its symbolic items are symbolic rows, its region is legal (R49). -/
def Program.wf (c : Config) (p : Program) : Bool :=
  p.items.all (fun it => it.labelOk p.items.length) && p.regionOk c

end Sys2Proof
end

