-- ==== Sys2Proof/Decode.lean ====
section
/-! DEFINITION. The decoder of 30_encoding.md R47, R48 and R52, total on every BUS word, CPU halfword and symbolic item,
with a named refusal for each reserved encoding (R53); and after it the encoder. -/

namespace Sys2Proof

/-- The range an address falls in, in the order R52 asks (steps 3 to 12). -/
inductive Region where
  | pekeyr | prgkeyr | pecr | sr | regWindow | flash | nvicIpr | nvicIser | unmapped
  deriving DecidableEq, Repr

/-- R32, R33, R52: the first match decides. -/
def regionOf (c : Config) (a : Word) : Region :=
  if a = c.pekeyrAddr then .pekeyr
  else if a = c.prgkeyrAddr then .prgkeyr
  else if a = c.pecrAddr then .pecr
  else if a = c.srAddr then .sr
  else if c.inRegWindow a then .regWindow
  else if c.inFlash a then .flash
  else if a = c.nvicIpr then .nvicIpr
  else if a = c.nvicIser then .nvicIser
  else .unmapped

/-- R47: the 67-bit BUS word. -/
def busWord (w : Bool) (sz : BitVec 2) (a d : Word) : BitVec 67 := BitVec.ofBool w ++ sz ++ a ++ d

/-- R47: field W, bit 66. -/
def busW (T : BitVec 67) : Bool := T.getLsbD 66
/-- R47: field SZ, bits 65..64. -/
def busSz (T : BitVec 67) : BitVec 2 := T.extractLsb' 64 2
/-- R47: field A, bits 63..32. -/
def busA (T : BitVec 67) : Word := T.extractLsb' 32 32
/-- R47: field D, bits 31..0. -/
def busD (T : BitVec 67) : Word := T.extractLsb' 0 32

/-- R47: the SZ code of a size. -/
def Size.code : Size → BitVec 2
  | .byte => 0#2
  | .half => 1#2
  | .word => 2#2

/-- R52: SZ = 2 of a register transaction or array write, or REF_WIDTH. -/
def wordOnly (sz : BitVec 2) (i : Instr) : Except RefCode Instr :=
  if sz = 2#2 then .ok i else .error .width

/-- The row of an array write that the state has selected (R71). -/
def ArrForm.instr (f : ArrForm) (a d : Word) : Instr :=
  match f with
  | .locked => .arrWrLocked a d
  | .word => .arrWrWord a d
  | .erase => .arrWrErase a d
  | .hpFirst => .arrWrHpFirst a d
  | .hpNext => .arrWrHpNext a d
  | .busy => .arrWrBusy a d

/-- R52 step 8: the array read of size `1 << SZ` bytes (SZ = 3 is refused before). -/
def arrayReadRow (sz : BitVec 2) (a : Word) (t : Temp) : Instr :=
  if sz = 0#2 then .rdArrB a t else if sz = 1#2 then .rdArrH a t else .rdArrW a t

/-- R52 steps 3 to 11, a write. -/
def decodeWrite (c : Config) (form : ArrForm) (sz : BitVec 2) (a d : Word) : Except RefCode Instr :=
  match regionOf c a with
  | .pekeyr => wordOnly sz (.wrPekeyr d)
  | .prgkeyr => wordOnly sz (.wrPrgkeyr d)
  | .pecr => wordOnly sz (.wrPecr d)
  | .sr => wordOnly sz (.wrSr d)
  | .regWindow => .error .regOffset
  | .flash => wordOnly sz (form.instr a d)
  | .nvicIpr => if sz = 2#2 then .ok (.wrNvicIpr d) else .error .unmapped
  | .nvicIser => if sz = 2#2 then .ok (.wrNvicIser d) else .error .unmapped
  | .unmapped => .error .unmapped

/-- R52 steps 3 to 8, a read; an NVIC word is not readable (step 12). -/
def decodeRead (c : Config) (sz : BitVec 2) (a : Word) (t : Temp) : Except RefCode Instr :=
  match regionOf c a with
  | .pekeyr => wordOnly sz (.rdPekeyr t)
  | .prgkeyr => wordOnly sz (.rdPrgkeyr t)
  | .pecr => wordOnly sz (.rdPecr t)
  | .sr => wordOnly sz (.rdSr t)
  | .regWindow => .error .regOffset
  | .flash => .ok (arrayReadRow sz a t)
  | .nvicIpr | .nvicIser | .unmapped => .error .unmapped

/-- R52: the BUS decoder. `form` is the row the state selects for an array write (R71), `t` the destination temporary
the item carries for a read. -/
def decodeBus (c : Config) (form : ArrForm) (T : BitVec 67) (t : Temp) : Except RefCode Instr :=
  if busSz T = 3#2 then .error .encoding
  else if busW T then decodeWrite c form (busSz T) (busA T) (busD T)
  else if busD T ≠ 0#32 then .error .encoding
  else decodeRead c (busSz T) (busA T) t

/-- R48: the three CPU halfwords. -/
def decodeHalfword (h : BitVec 16) : Except RefCode Instr :=
  if h = 0xB672#16 then .ok .cpsid
  else if h = 0xB662#16 then .ok .cpsie
  else if h = 0xE7FE#16 then .ok .halt
  else .error .encoding

/-- The decoder of an item by its format tag. A symbolic item names a row that has no bits; any other row written
symbolically is no item (A14). -/
def decode (c : Config) (form : ArrForm) : Code → Except RefCode Instr
  | .bus T t => decodeBus c form T t
  | .cpu h => decodeHalfword h
  | .sym i => if i.symbolic then .ok i else .error .encoding

/-- The words of an instruction (R47, R48, R52). A write has no destination temporary; its place holds `user 0`. -/
def encode (c : Config) : Instr → Code
  | .wrPekeyr d => .bus (busWord true 2#2 c.pekeyrAddr d) (.user 0)
  | .rdPekeyr t => .bus (busWord false 2#2 c.pekeyrAddr 0#32) t
  | .wrPrgkeyr d => .bus (busWord true 2#2 c.prgkeyrAddr d) (.user 0)
  | .rdPrgkeyr t => .bus (busWord false 2#2 c.prgkeyrAddr 0#32) t
  | .wrPecr d => .bus (busWord true 2#2 c.pecrAddr d) (.user 0)
  | .rdPecr t => .bus (busWord false 2#2 c.pecrAddr 0#32) t
  | .wrSr d => .bus (busWord true 2#2 c.srAddr d) (.user 0)
  | .rdSr t => .bus (busWord false 2#2 c.srAddr 0#32) t
  | .rdArrW a t => .bus (busWord false 2#2 a 0#32) t
  | .rdArrH a t => .bus (busWord false 1#2 a 0#32) t
  | .rdArrB a t => .bus (busWord false 0#2 a 0#32) t
  | .arrWrLocked a d => .bus (busWord true 2#2 a d) (.user 0)
  | .arrWrWord a d => .bus (busWord true 2#2 a d) (.user 0)
  | .arrWrErase a d => .bus (busWord true 2#2 a d) (.user 0)
  | .arrWrHpFirst a d => .bus (busWord true 2#2 a d) (.user 0)
  | .arrWrHpNext a d => .bus (busWord true 2#2 a d) (.user 0)
  | .arrWrBusy a d => .bus (busWord true 2#2 a d) (.user 0)
  | .wrNvicIpr d => .bus (busWord true 2#2 c.nvicIpr d) (.user 0)
  | .wrNvicIser d => .bus (busWord true 2#2 c.nvicIser d) (.user 0)
  | .cpsid => .cpu 0xB672#16
  | .cpsie => .cpu 0xB662#16
  | .halt => .cpu 0xE7FE#16
  | .ldbuf i t => .sym (.ldbuf i t)
  | .brnz t m l => .sym (.brnz t m l)
  | .poll g m v => .sym (.poll g m v)
  | .acquirePe => .sym .acquirePe
  | .acquirePrg => .sym .acquirePrg
  | .acquireChecked sc l => .sym (.acquireChecked sc l)
  | .release => .sym .release
  | .waitDone => .sym .waitDone
  | .erasePage a => .sym (.erasePage a)
  | .programWord a v => .sym (.programWord a v)
  | .programHalf b p h => .sym (.programHalf b p h)
  | .init => .sym .init
  | .cfgIrq p => .sym (.cfgIrq p)
  | .faultHandler => .sym .faultHandler

/-- The array-write row an instruction is, and `locked` for every other instruction, where the decoder does not look. -/
def Instr.arrForm : Instr → ArrForm
  | .arrWrWord _ _ => .word
  | .arrWrErase _ _ => .erase
  | .arrWrHpFirst _ _ => .hpFirst
  | .arrWrHpNext _ _ => .hpNext
  | .arrWrBusy _ _ => .busy
  | .arrWrLocked _ _ => .locked
  | .wrPekeyr _ | .rdPekeyr _ | .wrPrgkeyr _ | .rdPrgkeyr _ | .wrPecr _ | .rdPecr _ | .wrSr _ | .rdSr _ | .rdArrW _ _
  | .rdArrH _ _ | .rdArrB _ _ | .wrNvicIpr _ | .wrNvicIser _ | .cpsid | .cpsie | .halt | .ldbuf _ _ | .brnz _ _ _
  | .poll _ _ _ | .acquirePe | .acquirePrg | .acquireChecked _ _ | .release | .waitDone | .erasePage _
  | .programWord _ _ | .programHalf _ _ _ | .init | .cfgIrq _ | .faultHandler => .locked

/-- The encoded item that `nbits` bits of value `w` stand for: 16 bits are a CPU halfword, 67 bits (72 in whole bytes)
a BUS word, as is any length between. No other length is an encoding. -/
def codeOfTableWord (nbits w : Nat) : Option Code :=
  if nbits = 16 then
    if w < 2 ^ 16 then some (.cpu (BitVec.ofNat 16 w)) else none
  else if 67 ≤ nbits ∧ nbits ≤ 72 then
    if w < 2 ^ 67 then some (.bus (BitVec.ofNat 67 w) (.user 0)) else none
  else none

/-- The instruction the decoder reads from an opcode-table word, under the default parameters that the table's addresses
are given in. The five ARR_WR_* forms and the busy case share one bit pattern, so the state decides between them; after
reset it selects ARR_WR_LOCKED (R52, R71, R72). -/
def decodeTableWord (nbits w : Nat) : Option Instr :=
  match codeOfTableWord nbits w with
  | none => none
  | some code =>
    match decode Config.default .locked code with
    | .ok i => some i
    | .error _ => none

end Sys2Proof
end

