-- ==== Sys2Proof/Machine/State.lean ====
section
/-! DEFINITION. The machine state: every piece of state that 10_state.md gives the machine, the program the CPU runs
(30_encoding.md R49), the external source buffer (P17) and the parameters, as plain data; the reasons a step can stop;
and the state after reset (R31, R111, R113). INVENTORY.md lists the fields. -/

namespace Sys2Proof.Machine

/-- Why the machine stops: in every case no agent has a step, so nothing is claimed of what follows (safe). -/
inductive Fault where
  /-- Raised by `step`: the CPU has halted for good, no operation is BUSY and it is not the environment's turn; only RESET
  leaves it (R90). Safe. -/
  | halted
  /-- Raised by `step`: pc is the program's length, the end of the program (R49), no operation is BUSY and it is not the
  environment's turn. Safe. -/
  | programEnd
  /-- Raised by `step`: a label put pc beyond the end of the program, where R49 names no item (A17). Safe. -/
  | pcBeyondProgram
  deriving DecidableEq, Repr

/-- Why an instruction has no meaning. The refusals of the spec (R12, R96) are no stop: they are recorded in the state,
and the machine goes on. -/
inductive Refusal where
  /-- Raised by `exec`, for an instruction without a meaning. No arm raises it in this model. Safe. -/
  | notModelled (mnemonic : String)
  deriving DecidableEq, Repr

/-- PECR, bit by bit (R15). Its other bits are not stored and read as 0 (R16). -/
structure Pecr where
  pelock  : Bool
  prglock : Bool
  prog    : Bool
  erase   : Bool
  fprg    : Bool
  eopie   : Bool
  errie   : Bool
  deriving DecidableEq, Repr

/-- A key sequencer (R20). -/
inductive KeySeq where
  | k0 | k1 | dead
  deriving DecidableEq, Repr

/-- A pending operation (R22). -/
inductive Op where
  | erase (p : Word)
  | word (a v : Word)
  | half (base : Word) (buf : List Word)
  deriving DecidableEq, Repr

/-- `op_state` (R22). In HP_FILL(base, k, buf) the count k is the length of buf. -/
inductive OpState where
  | idle
  | hpFill (base : Word) (buf : List Word)
  | busy (op : Op)
  deriving DecidableEq, Repr

/-- The mode of the three PECR mode bits (R24). -/
inductive Mode where
  | word | erasePage | halfPage | reserved
  deriving DecidableEq, Repr

/-- Which agent moves next: the CPU, the controller or the environment (R4, R101). -/
inductive Input where
  | cpu | complete | reset
  deriving DecidableEq, Repr

/-- The machine. -/
structure State where
  /-- the parameters; no step changes them -/
  cfg        : Config
  /-- PECR (R15) -/
  pecr       : Pecr
  /-- SR.EOP (R17) -/
  eop        : Bool
  /-- the SR error bits in their places (R17) -/
  err        : Word
  /-- `pe_seq` (R20) -/
  peSeq      : KeySeq
  /-- `prg_seq` (R20) -/
  prgSeq     : KeySeq
  /-- `op_state` (R22); SR.BSY is derived from it (R23) -/
  op         : OpState
  /-- the flash array (R25), byte by byte (R34); an unlisted byte reads `erasedByte` -/
  mem        : List Host.Cell
  /-- the CPU-side bits (R26) -/
  primask    : Bool
  irqEn      : Bool
  irqPrio    : BitVec 8
  irqPending : Bool
  inHandler  : Bool
  halted     : Bool
  /-- the model flags (R27) -/
  ubFault    : Bool
  refused    : Bool
  reasons    : List Reason
  /-- the boot program (R113) -/
  boot       : Program
  /-- the running program (R49) -/
  prog       : Program
  /-- index of the next item (R29, R49) -/
  pc         : Nat
  /-- the program's temporaries (R28), by number; an unlisted one holds 0 (A9) -/
  temps      : List (Nat × Word)
  /-- the temporaries of a pseudo-instruction's sequence (R28) -/
  seqT       : Word
  seqT2      : Word
  /-- the external source buffer (P17); BUF_WORDS is the length of `buf` -/
  bufBase    : Word
  buf        : List Word
  /-- the model's own: the agents' order (A5); past its end `Config.freeTurn` gives it -/
  inputs     : List Input
  /-- the model's own: how many turns have been free (A6) -/
  turnCount  : Nat
  /-- the model's own: what the coming draws give (R9, A11); past its end a draw gives `Config.freeWord` -/
  draws      : List Word
  /-- the model's own: how many draws have been made (A11) -/
  drawCount  : Nat
  deriving DecidableEq, Repr

/-- PECR after reset, 0x0000_0003 (R31). -/
def Pecr.reset : Pecr where
  pelock := true
  prglock := true
  prog := false
  erase := false
  fprg := false
  eopie := false
  errie := false

/-- The boot program before one is loaded: no item (A8). -/
def Program.none : Program where
  base := 0x20000000#32
  bytes := 0
  items := []

/-- First power-up (R113): R111's values, no byte of the array listed, the model flags clear (R27). -/
def State.reset : State where
  cfg := Config.default
  pecr := Pecr.reset
  eop := false
  err := 0#32
  peSeq := .k0
  prgSeq := .k0
  op := .idle
  mem := []
  primask := false
  irqEn := false
  irqPrio := 0#8
  irqPending := false
  inHandler := false
  halted := false
  ubFault := false
  refused := false
  reasons := []
  boot := Program.none
  prog := Program.none
  pc := 0
  temps := []
  seqT := 0#32
  seqT2 := 0#32
  bufBase := 0x20001000#32
  buf := []
  inputs := []
  turnCount := 0
  draws := []
  drawCount := 0

end Sys2Proof.Machine
end

