-- ==== Sys2Proof/Machine/Flags.lean ====
section
/-! DEFINITION. The bits of PECR and SR: the words a read gives, the mode, BSY, and the interrupt line
(10_state.md R15 to R24, 41_completion_monitor.md R66, R67, 43_fault_irq.md R84). -/

namespace Sys2Proof.Machine

/-- A bit in its place. -/
def bitIf (b : Bool) (i : Nat) : Word := if b then bit i else 0#32

/-- R60: the value of a PECR read; reserved bits read 0 (R16). -/
def Pecr.toWord (p : Pecr) : Word :=
  bitIf p.pelock 0 ||| bitIf p.prglock 1 ||| bitIf p.prog 3 ||| bitIf p.erase 9 ||| bitIf p.fprg 10 |||
  bitIf p.eopie 16 ||| bitIf p.errie 17

/-- R24: the mode of PROG, ERASE and FPRG. -/
def modeOf (prog erase fprg : Bool) : Mode :=
  match prog, erase, fprg with
  | _, false, false => .word
  | true, true, false => .erasePage
  | true, false, true => .halfPage
  | false, true, false => .reserved
  | false, false, true => .reserved
  | _, true, true => .reserved

/-- R24: the mode of the current PECR. -/
def State.mode (s : State) : Mode := modeOf s.pecr.prog s.pecr.erase s.pecr.fprg

/-- R23: SR.BSY = 1 exactly when op_state is not IDLE. -/
def State.bsy (s : State) : Bool :=
  match s.op with
  | .idle => false
  | .hpFill _ _ => true
  | .busy _ => true

/-- Both lock flags are clear (R71). -/
def State.unlocked (s : State) : Bool := !s.pecr.pelock && !s.pecr.prglock

/-- The bits of SR that a read gives a stored value for: BSY, EOP and ERR_MASK (R66). -/
def srStored : Word := bit 0 ||| bit 1 ||| Config.errMask

/-- R66: the value of an SR read whose reserved bits are drawn from `r`. -/
def State.srWord (s : State) (r : Word) : Word :=
  bitIf s.bsy 0 ||| bitIf s.eop 1 ||| (s.err &&& Config.errMask) ||| (r &&& ~~~srStored)

/-- R67: EOP after an SR write of `d`: bit 1 of `d` clears it. -/
def eopAfterWrite (eop : Bool) (d : Word) : Bool := eop && !d.getLsbD 1

/-- R67: the error bits after an SR write of `d`: each bit of ERR_MASK that `d` has 1 is cleared. -/
def errAfterWrite (err d : Word) : Word := err &&& ~~~(d &&& Config.errMask)

/-- R84: the flash interrupt line. -/
def State.flashLine (s : State) : Bool :=
  (s.pecr.errie && decide (s.err &&& Config.errMask ≠ 0#32)) || (s.pecr.eopie && s.eop)

/-- R84: after every step of any agent a high line sets irq_pending, which a line that falls does not clear (A33). -/
def State.latch (s : State) : State := { s with irqPending := s.irqPending || s.flashLine }

/-- R87: `d[IPR_SHIFT+7 : IPR_SHIFT+8-PRIO_BITS]` as an unsigned number. -/
def prioField (c : Config) (d : Word) : BitVec 8 :=
  BitVec.ofNat 8 ((d.toNat >>> (c.iprShift + 8 - c.prioBits)) % 2 ^ c.prioBits)

end Sys2Proof.Machine
end

