-- ==== Sys2Proof/Machine/Ops.lean ====
section
/-! DEFINITION. The named operations over memory, temporaries, programs and the model flags, that every meaning uses:
the array (20_memory.md R34, R37, R38), the combine law and the operations' effects (42_erase_program.md R77, R78), the
two model outcomes (00_scope.md R11, R12), interrupt entry (R89), and the steps of the controller (R68) and the
environment (R111, R112). -/

namespace Sys2Proof.Machine

/-! ## Sparse data: lists of key and value, keys strictly rising, no value equal to what an unlisted key reads as -/

/-- The value at a key; an unlisted key reads `dflt`. -/
def sparseRead {β : Type} (dflt : β) : List (Nat × β) → Nat → β
  | [], _ => dflt
  | (k, v) :: rest, a => if a = k then v else sparseRead dflt rest a

/-- One cell, or none where the value is what an unlisted key reads as. -/
def sparseCell {β : Type} [DecidableEq β] (dflt : β) (a : Nat) (v : β) : List (Nat × β) :=
  if v = dflt then [] else [(a, v)]

/-- Put a value at a key, keeping the canonical form. -/
def sparseWrite {β : Type} [DecidableEq β] (dflt : β) : List (Nat × β) → Nat → β → List (Nat × β)
  | [], a, v => sparseCell dflt a v
  | (k, w) :: rest, a, v =>
    if a < k then sparseCell dflt a v ++ (k, w) :: rest
    else if a = k then sparseCell dflt a v ++ rest
    else (k, w) :: sparseWrite dflt rest a v

/-- The canonical form: every key is above `lo`, keys rise strictly, and no value is `dflt`. -/
def sparseWfFrom {β : Type} [DecidableEq β] (dflt : β) : Nat → List (Nat × β) → Bool
  | _, [] => true
  | lo, (k, v) :: rest => decide (lo ≤ k) && decide (v ≠ dflt) && sparseWfFrom dflt (k + 1) rest

/-! ## The flash array -/

/-- What a byte that nothing has written reads as. DESIGN CHOICE (A7): INITIAL_ARRAY is open (P15). -/
def erasedByte : Byte := 0xFF#8

/-- The canonical form of the array's list. -/
def Memory.wf (m : List Host.Cell) : Bool := sparseWfFrom erasedByte 0 m

/-- One byte of the array. -/
def Memory.readByte (m : List Host.Cell) (a : Nat) : Byte := sparseRead erasedByte m a

/-- Put one byte of the array. -/
def Memory.writeByte (m : List Host.Cell) (a : Nat) (v : Byte) : List Host.Cell := sparseWrite erasedByte m a v

/-- `Arr[a]`: byte k of the word is bits 8k+7..8k (R34). -/
def Memory.readWord (m : List Host.Cell) (a : Word) : Word :=
  (readByte m (a.toNat + 3) ++ readByte m (a.toNat + 2) ++ readByte m (a.toNat + 1) ++ readByte m a.toNat : BitVec 32)

/-- `MemWrite(a, 4, v)` (R9), little-endian (R34). -/
def Memory.writeWord (m : List Host.Cell) (a v : Word) : List Host.Cell :=
  writeByte (writeByte (writeByte (writeByte m a.toNat (v.extractLsb' 0 8)) (a.toNat + 1) (v.extractLsb' 8 8))
    (a.toNat + 2) (v.extractLsb' 16 8)) (a.toNat + 3) (v.extractLsb' 24 8)

/-- The number of bytes of an access. -/
def Size.bytes : Size → Nat
  | .byte => 1
  | .half => 2
  | .word => 4

/-- The low bits that an access of a size keeps. -/
def Size.mask : Size → Word
  | .byte => 0xFF#32
  | .half => 0xFFFF#32
  | .word => 0xFFFFFFFF#32

/-- R37: `MemRead(a, n)`: the containing word shifted down, its low 8n bits, zero-extended. -/
def Memory.read (m : List Host.Cell) (sz : Size) (a : Word) : Word :=
  (readWord m (a - BitVec.ofNat 32 (a.toNat % 4)) >>> (8 * (a.toNat % 4))) &&& Size.mask sz

/-- `base + 4*i` for i below `count` (R68). -/
def wordAddrs (base : Word) (count : Nat) : List Word :=
  (List.range count).map (fun i => base + BitVec.ofNat 32 (4 * i))

/-- R68: `target(op)`. -/
def Op.target (c : Config) : Op → List Word
  | .erase p => wordAddrs p c.pageWords
  | .word a _ => [a]
  | .half b _ => wordAddrs b c.n

/-- R38: the address whose bank is the pending operation's bank. -/
def Op.addr : Op → Word
  | .erase p => p
  | .word a _ => a
  | .half b _ => b

/-- R78: the combine law. -/
def combine (c : Config) (old v : Word) : Word := if old = c.erasedWord then v else old ||| v

/-- R77: one word programmed. -/
def programCell (c : Config) (m : List Host.Cell) (av : Word × Word) : List Host.Cell :=
  Memory.writeWord m av.1 (combine c (Memory.readWord m av.1) av.2)

/-- R77: `effect(op)` on the array. -/
def Op.effect (c : Config) (m : List Host.Cell) : Op → List Host.Cell
  | .erase p => (wordAddrs p c.pageWords).foldl (fun m a => Memory.writeWord m a c.erasedWord) m
  | .word a v => programCell c m (a, v)
  | .half b buf => ((wordAddrs b c.n).zip buf).foldl (programCell c) m

/-- R43: some word of the target is PROTECTED. -/
def Op.protectedTarget (c : Config) (op : Op) : Bool :=
  (op.target c).any (fun w => c.protectedWords.contains w.toNat)

/-- `draw x` (R9): what the next draw gives. -/
def State.nextDraw (s : State) : Word := s.draws.headD (Config.freeWord s.drawCount)

/-- The state after a draw has been made. -/
def State.useDraw (s : State) : State := { s with draws := s.draws.tail, drawCount := s.drawCount + 1 }

/-- `draw Arr[w] in [0, 2^32)` for each word of a list (R68, R112). -/
def drawWords : List Word → State → State
  | [], s => s
  | w :: ws, s => drawWords ws { s.useDraw with mem := Memory.writeWord s.mem w s.nextDraw }

/-- R68: every target word of the operation is drawn. -/
def State.drawTarget (s : State) (op : Op) : State := drawWords (op.target s.cfg) s

/-! ## Reads of the array while an operation is pending -/

/-- What R38 says of a read or fetch: go on, hold, or UB_PLACEMENT. -/
inductive Gate where
  | go | hold | placement
  deriving DecidableEq, Repr

/-- R38 for address `a`. -/
def State.readGate (s : State) (a : Word) : Gate :=
  match s.op with
  | .idle => .go
  | .hpFill base _ => if s.cfg.bank a = s.cfg.bank base then .placement else .go
  | .busy (.half base _) => if s.cfg.bank a = s.cfg.bank base then .placement else .go
  | .busy (.erase p) => if s.cfg.bank a = s.cfg.bank p then .hold else .go
  | .busy (.word w _) => if s.cfg.bank a = s.cfg.bank w then .hold else .go

/-- R39, R49: the fetch of the next item, an array read when the code region is in the flash array. The region lies in
one bank (R49), so its first address decides (A24). It is even (R36) in every state that meets `State.Inv`. -/
def State.fetchGate (s : State) : Gate :=
  if s.cfg.inFlash s.prog.base then s.readGate s.prog.base else .go

/-- R71: the array-write row the state selects. (A RESERVED mode is never reached, R24; see `arrayWrite`.) -/
def State.arrForm (s : State) : ArrForm :=
  match s.op with
  | .busy _ => .busy
  | .hpFill _ _ => .hpNext
  | .idle =>
    if s.pecr.pelock || s.pecr.prglock then .locked
    else match s.mode with
      | .word => .word
      | .erasePage => .erase
      | .halfPage => .hpFirst
      | .reserved => .word

/-! ## The program counter, the temporaries and the program text -/

/-- R49: the next item. -/
def State.advance (s : State) : State := { s with pc := s.pc + 1 }

/-- The value of a temporary: what was last bound to it. DESIGN CHOICE (A34): so it is too where the read that was to bind
it in this sequence has raised a code, and for one never bound, 0 (A9). -/
def State.readTemp (s : State) : Temp → Word
  | .user k => sparseRead 0#32 s.temps k
  | .seqT => s.seqT
  | .seqT2 => s.seqT2

/-- Bind a temporary (R10). -/
def State.writeTemp (s : State) (t : Temp) (v : Word) : State :=
  match t with
  | .user k => { s with temps := sparseWrite 0#32 s.temps k v }
  | .seqT => { s with seqT := v }
  | .seqT2 => { s with seqT2 := v }

/-- Discard the temporaries (R89, R111): they hold what they hold before any is written (A9). -/
def State.discardTemps (s : State) : State := { s with temps := [], seqT := 0#32, seqT2 := 0#32 }

/-- A label after the item at `pc` has been replaced by `len` items (R55: macros expand in place). -/
def relabel (pc len l : Nat) : Nat := if l ≤ pc then l else l + len - 1

/-- The labels of an item, after the replacement. -/
def Item.relabel (pc len : Nat) : Item → Item
  | .code (.sym (.brnz t m l)) => .code (.sym (.brnz t m (Machine.relabel pc len l)))
  | .code (.sym (.acquireChecked sc l)) => .code (.sym (.acquireChecked sc (Machine.relabel pc len l)))
  | .code c => .code c
  | .wr g d => .wr g d
  | .rd sz g t => .rd sz g t

/-- R49, R55: the pseudo-instruction at `pc` replaced in place by its items; labels keep naming the items they named. -/
def expandAt (pc : Nat) (body items : List Item) : List Item :=
  ((items.take pc ++ body) ++ items.drop (pc + 1)).map (Item.relabel pc body.length)

/-- The program with the pseudo-instruction at `pc` expanded (A15). -/
def State.expand (s : State) (body : List Item) : State :=
  { s with prog := { s.prog with items := expandAt s.pc body s.prog.items } }

/-! ## The two model outcomes -/

/-- R11: `raise UBFault(code)`: the sticky flag is set and the code appended; nothing else changes. -/
def State.raiseUb (s : State) (c : UbCode) : State :=
  { s with ubFault := true, reasons := s.reasons ++ [.ub c] }

/-- R12: `raise Refuse(code)`. -/
def State.raiseRef (s : State) (c : RefCode) : State :=
  { s with refused := true, reasons := s.reasons ++ [.ref c] }

/-! ## Taking the interrupt. There is no return from it (R103). -/

/-- R89: ENTRY is enabled. -/
def State.entryEnabled (s : State) : Bool :=
  s.irqPending && s.irqEn && !s.primask && !s.inHandler && !s.halted

/-- R91: the items of FAULT_HANDLER. -/
def faultHandlerItems : List Item :=
  [.wr (.reg .sr) (.imm Config.errMask), .code (.cpu 0xE7FE#16)]

/-- R91, P21: the program at the flash vector. -/
def handlerProgram (c : Config) : Program where
  base := c.handlerBase
  bytes := c.handlerBytes
  items := faultHandlerItems

/-- R89, R102: ENTRY. Nothing is saved; the interrupted program, its pc and its temporaries are discarded. -/
def State.takeEntry (s : State) : State :=
  { s.discardTemps with
    inHandler := true
    irqPending := false
    prog := handlerProgram s.cfg
    pc := 0 }

/-! ## The controller's step -/

/-- R68: the error set of a completion, from its draw: a subset of ERR_MASK without bit 8, and bit 8 when a target word
is PROTECTED. -/
def completionErrors (c : Config) (op : Op) (draw : Word) : Word :=
  (draw &&& Config.errMask &&& ~~~(bit 8)) ||| bitIf (op.protectedTarget c) 8

/-- R68: COMPLETE for the pending operation `op`. -/
def State.completeOp (s : State) (op : Op) (draw : Word) : State :=
  let e := completionErrors s.cfg op draw
  if e = 0#32 then
    { s with mem := op.effect s.cfg s.mem, eop := true, op := .idle }
  else
    let s1 := if e.getLsbD 8 then s else s.drawTarget op
    { s1 with err := s1.err ||| e, eop := s1.eop || s1.cfg.eopOnError, op := .idle }

/-- R68: COMPLETE is enabled. -/
def State.completeEnabled (s : State) : Bool :=
  match s.op with
  | .busy _ => true
  | .idle | .hpFill _ _ => false

/-- R68: COMPLETE, its error draw first. It has no step outside BUSY. -/
def State.complete (s : State) : State :=
  match s.op with
  | .busy op => s.useDraw.completeOp op s.nextDraw
  | .idle | .hpFill _ _ => s

/-! ## The environment's step -/

/-- R112: what a reset leaves in the array. -/
def State.resetArray (s : State) : State :=
  match s.op with
  | .busy op => if op.protectedTarget s.cfg then s else s.drawTarget op
  | .idle | .hpFill _ _ => s

/-- R111: RESET. -/
def State.applyReset (s : State) : State :=
  { s.resetArray.discardTemps with
    pecr := Pecr.reset
    eop := false
    err := 0#32
    peSeq := .k0
    prgSeq := .k0
    op := .idle
    primask := false
    irqEn := false
    irqPrio := 0#8
    irqPending := false
    inHandler := false
    halted := false
    prog := s.boot
    pc := 0 }

end Sys2Proof.Machine
end

