-- ==== Sys2Proof/Machine/Operands.lean ====
section
/-! DEFINITION. Operand forms: expressions and targets (30_encoding.md R51, R54), the BUS word a program item gives
(R47), and the reads of the bus that RD items, POLL and LDBUF share (R50, R58, R60, R66, R79, R80). -/

namespace Sys2Proof.Machine

/-- R51: the address a register name stands for. -/
def regAddr (c : Config) : RegName → Word
  | .pecr => c.pecrAddr
  | .pekeyr => c.pekeyrAddr
  | .prgkeyr => c.prgkeyrAddr
  | .sr => c.srAddr
  | .nvicIser => c.nvicIser
  | .nvicIpr => c.nvicIpr

/-- R51: the value of an operand expression, each operation on 32 bits (R8). -/
def State.evalExpr (s : State) : Expr → Word
  | .imm v => v
  | .temp t => s.readTemp t
  | .or x y => s.evalExpr x ||| s.evalExpr y
  | .and x y => s.evalExpr x &&& s.evalExpr y
  | .not x => ~~~(s.evalExpr x)
  | .add x y => s.evalExpr x + s.evalExpr y

/-- R51: the address of a target. -/
def State.evalTarget (s : State) : Target → Word
  | .reg r => regAddr s.cfg r
  | .addr e => s.evalExpr e

/-- R51: the CPU computes address and data before the transaction; what results is the encoded item. -/
def State.evalItem (s : State) : Item → Code
  | .code c => c
  | .wr g d => .bus (busWord true Size.word.code (s.evalTarget g) (s.evalExpr d)) (.user 0)
  | .rd sz g t => .bus (busWord false sz.code (s.evalTarget g) 0#32) t

/-- What a read transaction gives: a value, a raised code, or a hold (R13). -/
inductive ReadResult where
  | value (v : Word) (s : State)
  | raised (s : State)
  | held
  deriving DecidableEq, Repr

/-- R66: the value of an SR read, with fresh reserved bits (R18). -/
def State.readSr (s : State) : Word := s.srWord s.nextDraw

/-- R80: a read of the flash array. R100: REF_MISALIGNED_READ, then the hold or UB_PLACEMENT (R38), then the value.
An address outside the array is no array read (R33). -/
def State.readArray (s : State) (sz : Size) (a : Word) : ReadResult :=
  if !s.cfg.inFlash a then .raised (s.raiseRef .unmapped)
  else if a.toNat % Size.bytes sz ≠ 0 then .raised (s.raiseRef .misalignedRead)
  else match s.readGate a with
    | .hold => .held
    | .placement => .raised (s.raiseUb .placement)
    | .go => .value (Memory.read s.mem sz a) s

/-- R50: the 32-bit `RD(target)` of a POLL iteration: the read R52 decodes the address to. -/
def State.readBusWord (s : State) (a : Word) : ReadResult :=
  match regionOf s.cfg a with
  | .pekeyr | .prgkeyr => .value 0#32 s
  | .pecr => .value s.pecr.toWord s
  | .sr => .value s.readSr s.useDraw
  | .regWindow => .raised (s.raiseRef .regOffset)
  | .flash => s.readArray .word a
  | .nvicIpr | .nvicIser | .unmapped => .raised (s.raiseRef .unmapped)

/-- R79: the address of buffer word `i`, modulo 2^32. -/
def State.bufAddr (s : State) (i : Nat) : Word := s.bufBase + BitVec.ofNat 32 (4 * i)

/-- R79: `BufRead(i)`; a buffer word in the flash array is an array read. -/
def State.readBuf (s : State) (i : Nat) : ReadResult :=
  match s.buf[i]? with
  | none => .raised (s.raiseUb .bufRange)
  | some v => if s.cfg.inFlash (s.bufAddr i) then s.readArray .word (s.bufAddr i) else .value v s

/-- The end of an item that binds a read's value to a temporary: the next item follows (R49) unless the CPU holds, which
leaves every piece of state as it is (R13). -/
def ReadResult.bind (r : ReadResult) (t : Temp) (s : State) : Host.Outcome State Fault Refusal :=
  match r with
  | .value v s1 => .next (s1.writeTemp t v).advance
  | .raised s1 => .next s1.advance
  | .held => .next s

/-- R50, R52: the decoder refuses the read of a POLL. The item is one BUS read per iteration, so its refusal stands among
the decoder's, before the fetch check (R100). DEDUCED (A30). -/
def State.pollRefused (s : State) (i : Instr) : Bool :=
  match i with
  | .poll g _ _ =>
    match decodeRead s.cfg Size.word.code (s.evalTarget g) .seqT with
    | .error _ => true
    | .ok _ => false
  | .wrPekeyr _ | .rdPekeyr _ | .wrPrgkeyr _ | .rdPrgkeyr _ | .wrPecr _ | .rdPecr _ | .wrSr _ | .rdSr _ | .rdArrW _ _
  | .rdArrH _ _ | .rdArrB _ _ | .arrWrLocked _ _ | .arrWrWord _ _ | .arrWrErase _ _ | .arrWrHpFirst _ _
  | .arrWrHpNext _ _ | .arrWrBusy _ _ | .wrNvicIpr _ | .wrNvicIser _ | .cpsid | .cpsie | .halt | .ldbuf _ _
  | .brnz _ _ _ | .acquirePe | .acquirePrg | .acquireChecked _ _ | .release | .waitDone | .erasePage _
  | .programWord _ _ | .programHalf _ _ _ | .init | .cfgIrq _ | .faultHandler => false

/-- The read holds. -/
def ReadResult.isHeld : ReadResult → Bool
  | .held => true
  | .value _ _ | .raised _ => false

/-- R38: the CPU holds at instruction `i`: its array read is of the bank of a pending erase or word program. -/
def State.instrHeld (s : State) (i : Instr) : Bool :=
  match i with
  | .rdArrW a _ => (s.readArray .word a).isHeld
  | .rdArrH a _ => (s.readArray .half a).isHeld
  | .rdArrB a _ => (s.readArray .byte a).isHeld
  | .ldbuf k _ => (s.readBuf k).isHeld
  | .poll g _ _ => (s.readBusWord (s.evalTarget g)).isHeld
  | .wrPekeyr _ | .rdPekeyr _ | .wrPrgkeyr _ | .rdPrgkeyr _ | .wrPecr _ | .rdPecr _ | .wrSr _ | .rdSr _
  | .arrWrLocked _ _ | .arrWrWord _ _ | .arrWrErase _ _ | .arrWrHpFirst _ _ | .arrWrHpNext _ _ | .arrWrBusy _ _
  | .wrNvicIpr _ | .wrNvicIser _ | .cpsid | .cpsie | .halt | .brnz _ _ _ | .acquirePe | .acquirePrg
  | .acquireChecked _ _ | .release | .waitDone | .erasePage _ | .programWord _ _ | .programHalf _ _ _ | .init
  | .cfgIrq _ | .faultHandler => false

end Sys2Proof.Machine
end

