-- ==== Sys2Proof/Machine/UnlockGuard.lean ====
section
/-! DEFINITION. The unlock guard: key ports and PECR (40_unlock_guard.md R56 to R60). -/

namespace Sys2Proof.Machine

/-- R56, R57 `wrong_pe()`, `wrong_prg()`: where a wrong key leaves a sequencer. -/
def wrongKey (c : Config) : KeySeq :=
  match c.keyErrorPolicy with
  | .retry => .k0
  | .sticky => .dead

/-- R59: the sequencer after a lock is set again: K0 unless DEAD. -/
def rearm (q : KeySeq) : KeySeq :=
  match q with
  | .dead => .dead
  | .k0 | .k1 => .k0

/-- R56: the data-unlock key port takes `d`. -/
def State.writePekeyr (s : State) (d : Word) : State :=
  if !s.pecr.pelock then s
  else match s.peSeq with
    | .k0 => { s with peSeq := if d = s.cfg.keyPe1 then .k1 else wrongKey s.cfg }
    | .k1 =>
      if d = s.cfg.keyPe2 then { s with pecr := { s.pecr with pelock := false }, peSeq := .k0 }
      else { s with peSeq := wrongKey s.cfg }
    | .dead => s

/-- R57: the program-unlock key port takes `d`. -/
def State.writePrgkeyr (s : State) (d : Word) : State :=
  if s.pecr.pelock then s
  else if !s.pecr.prglock then s
  else match s.prgSeq with
    | .k0 => { s with prgSeq := if d = s.cfg.keyPrg1 then .k1 else wrongKey s.cfg }
    | .k1 =>
      if d = s.cfg.keyPrg2 then { s with pecr := { s.pecr with prglock := false }, prgSeq := .k0 }
      else { s with prgSeq := wrongKey s.cfg }
    | .dead => s

/-- R59: the PECR that an accepted write of `d` leaves: mode and enable bits from `d`, locks set and never cleared. -/
def pecrAfterWrite (p : Pecr) (d : Word) : Pecr where
  pelock := p.pelock || d.getLsbD 0
  prglock := p.prglock || d.getLsbD 1 || d.getLsbD 0
  prog := d.getLsbD 3
  erase := d.getLsbD 9
  fprg := d.getLsbD 10
  eopie := d.getLsbD 16
  errie := d.getLsbD 17

/-- R59: a write to PECR, its checks in the order of R100. -/
def State.writePecr (s : State) (d : Word) : State :=
  if s.bsy then s.raiseUb .pecrWhileBusy
  else if s.pecr.pelock then s
  else if d.getLsbD 4 || d.getLsbD 8 then s.raiseRef .pecrBit
  else if modeOf (d.getLsbD 3) (d.getLsbD 9) (d.getLsbD 10) = .reserved then s.raiseUb .reservedMode
  else
    { s with
      pecr := pecrAfterWrite s.pecr d
      peSeq := if d.getLsbD 0 then rearm s.peSeq else s.peSeq
      prgSeq := if d.getLsbD 1 || d.getLsbD 0 then rearm s.prgSeq else s.prgSeq }

/-- WR_PEKEYR (R56). -/
def execWrPekeyr (d : Word) (s : State) : Host.Outcome State Fault Refusal := .next (s.writePekeyr d).advance

/-- RD_PEKEYR (R58): 0, and no state changes. -/
def execRdPekeyr (t : Temp) (s : State) : Host.Outcome State Fault Refusal :=
  (ReadResult.value 0#32 s).bind t s

/-- WR_PRGKEYR (R57). -/
def execWrPrgkeyr (d : Word) (s : State) : Host.Outcome State Fault Refusal := .next (s.writePrgkeyr d).advance

/-- RD_PRGKEYR (R58): 0, and no state changes. -/
def execRdPrgkeyr (t : Temp) (s : State) : Host.Outcome State Fault Refusal :=
  (ReadResult.value 0#32 s).bind t s

/-- WR_PECR (R59). -/
def execWrPecr (d : Word) (s : State) : Host.Outcome State Fault Refusal := .next (s.writePecr d).advance

/-- RD_PECR (R60). -/
def execRdPecr (t : Temp) (s : State) : Host.Outcome State Fault Refusal :=
  (ReadResult.value s.pecr.toWord s).bind t s

end Sys2Proof.Machine
end

