-- ==== Sys2Proof/Machine/Completion.lean ====
section
/-! DEFINITION. The completion monitor's status register transactions (41_completion_monitor.md R66, R67) and the POLL
item (30_encoding.md R50). -/

namespace Sys2Proof.Machine

/-- R67: a write to SR clears the bits it writes as 1. It leaves irq_pending, which R84 latches (A33: R121 says otherwise
of a pending fault). -/
def State.writeSr (s : State) (d : Word) : State :=
  { s with eop := eopAfterWrite s.eop d, err := errAfterWrite s.err d }

/-- WR_SR (R67). -/
def execWrSr (d : Word) (s : State) : Host.Outcome State Fault Refusal := .next (s.writeSr d).advance

/-- RD_SR (R66). -/
def execRdSr (t : Temp) (s : State) : Host.Outcome State Fault Refusal :=
  (ReadResult.value s.readSr s.useDraw).bind t s

/-- POLL (R50): one read; the item runs again while `(t & mask) != val`. A read that raises leaves no value to compare,
so the item runs again (A16). -/
def execPoll (g : Target) (mask val : Word) (s : State) : Host.Outcome State Fault Refusal :=
  match s.readBusWord (s.evalTarget g) with
  | .value v s1 =>
    if v &&& mask ≠ val then .next (s1.writeTemp .seqT v) else .next (s1.writeTemp .seqT v).advance
  | .raised s1 => .next s1
  | .held => .next s

end Sys2Proof.Machine
end

