-- ==== Sys2Proof/Machine/ArrayPort.lean ====
section
/-! DEFINITION. The array port: the array write in its forms, the array reads and the source-buffer load
(42_erase_program.md R71 to R76, R79, R80). -/

namespace Sys2Proof.Machine

/-- R72: a write while a lock is set. -/
def State.arrWrLocked (s : State) : State :=
  if s.cfg.lockedWriteRaises then { s with err := s.err ||| bit 8 } else s

/-- R73: start a word program. -/
def State.arrWrWord (s : State) (a d : Word) : State :=
  if a.toNat % 4 ≠ 0 then s.raiseUb .misalignedWord
  else { s with op := .busy (.word a d) }

/-- R74: start a page erase; the data is ignored. -/
def State.arrWrErase (s : State) (a : Word) : State :=
  if a.toNat % s.cfg.pageBytes ≠ 0 then s.raiseUb .misalignedErase
  else { s with op := .busy (.erase a) }

/-- R75: the first word of a half-page burst. -/
def State.arrWrHpFirst (s : State) (a d : Word) : State :=
  if a.toNat % s.cfg.halfBytes ≠ 0 then s.raiseUb .misalignedHalf
  else if !s.primask then s.raiseUb .hpIrqEnabled
  else if s.cfg.n = 1 then { s with op := .busy (.half a [d]) }
  else { s with op := .hpFill a [d] }

/-- R76: a further word of a burst that has received `buf`. DESIGN CHOICE (A29): the end of the half-page window is a
natural number, so a half-page that ends at 2^32 has all its addresses. -/
def State.arrWrHpNext (s : State) (base : Word) (buf : List Word) (a d : Word) : State :=
  if ¬(base.toNat ≤ a.toNat ∧ a.toNat < base.toNat + s.cfg.halfBytes) then s.raiseUb .hpAddr
  else if !s.primask then s.raiseUb .hpIrqEnabled
  else if buf.length + 1 = s.cfg.n then { s with op := .busy (.half base (buf ++ [d])) }
  else { s with op := .hpFill base (buf ++ [d]) }

/-- R71: WR_ARR. The state selects the form. An address outside the array is no array write (R33); the mode RESERVED,
which no PECR write can produce (R24), raises its own code (A18). -/
def State.arrayWrite (s : State) (a d : Word) : State :=
  if !s.cfg.inFlash a then s.raiseRef .unmapped
  else match s.op with
    | .busy _ => s.raiseUb .arrayWriteWhileBusy
    | .hpFill base buf => s.arrWrHpNext base buf a d
    | .idle =>
      if s.pecr.pelock || s.pecr.prglock then s.arrWrLocked
      else match s.mode with
        | .word => s.arrWrWord a d
        | .erasePage => s.arrWrErase a
        | .halfPage => s.arrWrHpFirst a d
        | .reserved => s.raiseUb .reservedMode

/-- ARR_WR_LOCKED (R72), where R71 selects it. The six array-write rows are one transaction, and R71 gives it its form
from the state, whichever row it was read as (A19). -/
def execArrWrLocked (a d : Word) (s : State) : Host.Outcome State Fault Refusal := .next (s.arrayWrite a d).advance

/-- ARR_WR_WORD (R73), where R71 selects it. -/
def execArrWrWord (a d : Word) (s : State) : Host.Outcome State Fault Refusal := .next (s.arrayWrite a d).advance

/-- ARR_WR_ERASE (R74), where R71 selects it. -/
def execArrWrErase (a d : Word) (s : State) : Host.Outcome State Fault Refusal := .next (s.arrayWrite a d).advance

/-- ARR_WR_HP_FIRST (R75), where R71 selects it. -/
def execArrWrHpFirst (a d : Word) (s : State) : Host.Outcome State Fault Refusal := .next (s.arrayWrite a d).advance

/-- ARR_WR_HP_NEXT (R76), where R71 selects it. -/
def execArrWrHpNext (a d : Word) (s : State) : Host.Outcome State Fault Refusal := .next (s.arrayWrite a d).advance

/-- ARR_WR_BUSY (R71), where R71 selects it: UB_ARRAY_WRITE_WHILE_BUSY. -/
def execArrWrBusy (a d : Word) (s : State) : Host.Outcome State Fault Refusal := .next (s.arrayWrite a d).advance

/-- RD_ARR.W (R80). -/
def execRdArrW (a : Word) (t : Temp) (s : State) : Host.Outcome State Fault Refusal := (s.readArray .word a).bind t s

/-- RD_ARR.H (R80). -/
def execRdArrH (a : Word) (t : Temp) (s : State) : Host.Outcome State Fault Refusal := (s.readArray .half a).bind t s

/-- RD_ARR.B (R80). -/
def execRdArrB (a : Word) (t : Temp) (s : State) : Host.Outcome State Fault Refusal := (s.readArray .byte a).bind t s

/-- LDBUF (R79). -/
def execLdbuf (i : Nat) (t : Temp) (s : State) : Host.Outcome State Fault Refusal := (s.readBuf i).bind t s

end Sys2Proof.Machine
end

