-- ==== Sys2Proof/Machine/FaultIrq.lean ====
section
/-! DEFINITION. The CPU operations, the two NVIC writes and the LOCAL branch (43_fault_irq.md R85 to R88, R90;
30_encoding.md R48). -/

namespace Sys2Proof.Machine

/-- R87: the flash line's priority. -/
def State.writeNvicIpr (s : State) (d : Word) : State := { s with irqPrio := prioField s.cfg d }

/-- R88: enable the flash line. -/
def State.writeNvicIser (s : State) (d : Word) : State :=
  if d &&& ~~~(bit s.cfg.flashIrq) ≠ 0#32 then s.raiseRef .otherIrq
  else if d.getLsbD s.cfg.flashIrq then { s with irqEn := true }
  else s

/-- WR_NVIC_IPR (R87). -/
def execWrNvicIpr (d : Word) (s : State) : Host.Outcome State Fault Refusal := .next (s.writeNvicIpr d).advance

/-- WR_NVIC_ISER (R88). -/
def execWrNvicIser (d : Word) (s : State) : Host.Outcome State Fault Refusal := .next (s.writeNvicIser d).advance

/-- CPSID i (R85). -/
def execCpsid (s : State) : Host.Outcome State Fault Refusal := .next { s with primask := true }.advance

/-- CPSIE i (R86). -/
def execCpsie (s : State) : Host.Outcome State Fault Refusal := .next { s with primask := false }.advance

/-- HALT (R90): pc is unchanged. -/
def execHalt (s : State) : Host.Outcome State Fault Refusal := .next { s with halted := true }

/-- BRNZ (R48). -/
def execBrnz (t : Temp) (mask : Word) (label : Nat) (s : State) : Host.Outcome State Fault Refusal :=
  if s.readTemp t &&& mask ≠ 0#32 then .next { s with pc := label } else .next s.advance

end Sys2Proof.Machine
end

