-- ==== Sys2Proof/Machine/Sequences.lean ====
section
/-! DEFINITION. The pseudo-instructions (30_encoding.md R55): the items each expands to, and its meaning as an item of a
program, which is to stand replaced by those items and to run the first of them (A15). -/

namespace Sys2Proof.Machine

/-- Bit names of R54. -/
def maskPelock : Word := 0x00000001#32
def maskPrglock : Word := 0x00000002#32
def maskProg : Word := 0x00000008#32
def maskErase : Word := 0x00000200#32
def maskFprg : Word := 0x00000400#32
def maskEopie : Word := 0x00010000#32
def maskErrie : Word := 0x00020000#32
def maskBsy : Word := 0x00000001#32
def maskEop : Word := 0x00000002#32

/-- R61. -/
def acquirePeItems (c : Config) : List Item :=
  [.wr (.reg .pekeyr) (.imm c.keyPe1), .wr (.reg .pekeyr) (.imm c.keyPe2)]

/-- R62. -/
def acquirePrgItems (c : Config) : List Item :=
  [.wr (.reg .prgkeyr) (.imm c.keyPrg1), .wr (.reg .prgkeyr) (.imm c.keyPrg2)]

/-- `RD PECR -> t`. -/
def readPecrItem : Item := .rd .word (.reg .pecr) .seqT

/-- R63. -/
def acquireCheckedItems (c : Config) (sc : Scope) (fail : Nat) : List Item :=
  match sc with
  | .dataScope => acquirePeItems c ++ [readPecrItem, .code (.sym (.brnz .seqT maskPelock fail))]
  | .programScope => acquirePrgItems c ++ [readPecrItem, .code (.sym (.brnz .seqT maskPrglock fail))]

/-- R64. -/
def releaseItems : List Item :=
  [readPecrItem, .wr (.reg .pecr) (.or (.or (.temp .seqT) (.imm maskPrglock)) (.imm maskPelock))]

/-- R70. -/
def waitDoneItems : List Item :=
  [.code (.sym (.poll (.reg .sr) maskBsy 0#32)), .code (.sym (.poll (.reg .sr) maskEop maskEop)),
   .wr (.reg .sr) (.imm maskEop)]

/-- `RD PECR -> t; WR PECR, t | x | y` (R81, R83). -/
def setModeItems (x y : Word) : List Item :=
  [readPecrItem, .wr (.reg .pecr) (.or (.or (.temp .seqT) (.imm x)) (.imm y))]

/-- `RD PECR -> t; WR PECR, t & ~(x | y)` (R81, R83). -/
def clearModeItems (x y : Word) : List Item :=
  [readPecrItem, .wr (.reg .pecr) (.and (.temp .seqT) (.not (.or (.imm x) (.imm y))))]

/-- R81. -/
def erasePageItems (c : Config) (a : Word) : List Item :=
  acquirePeItems c ++ acquirePrgItems c ++ setModeItems maskProg maskErase ++
  [.wr (.addr (.imm a)) (.imm 0#32)] ++ waitDoneItems ++ clearModeItems maskErase maskProg ++ releaseItems

/-- R82. -/
def programWordItems (c : Config) (a v : Word) : List Item :=
  acquirePeItems c ++ acquirePrgItems c ++ [.wr (.addr (.imm a)) (.imm v)] ++ waitDoneItems ++ releaseItems

/-- R79: `off(p, h, i) = p*PAGE_WORDS + h*N + i`, in natural numbers. -/
def bufOffset (c : Config) (p h : Word) (i : Nat) : Nat := p.toNat * c.pageWords + h.toNat * c.n + i

/-- R83: `LDBUF off -> t2; WR [b], t2` for one word of the burst. -/
def burstItems (c : Config) (b p h : Word) (i : Nat) : List Item :=
  [.code (.sym (.ldbuf (bufOffset c p h i) .seqT2)), .wr (.addr (.imm b)) (.temp .seqT2)]

/-- R83, its loop unrolled (R49). -/
def programHalfItems (c : Config) (b p h : Word) : List Item :=
  acquirePeItems c ++ acquirePrgItems c ++ setModeItems maskProg maskFprg ++ [.code (.cpu 0xB672#16)] ++
  (List.range c.n).flatMap (burstItems c b p h) ++
  waitDoneItems ++ clearModeItems maskFprg maskProg ++ releaseItems ++ [.code (.cpu 0xB662#16)]

/-- R92. -/
def initItems (c : Config) : List Item :=
  acquirePeItems c ++
  [readPecrItem,
   .wr (.reg .pecr)
     (.or (.and (.temp .seqT)
       (.not (.or (.or (.or (.imm maskProg) (.imm maskErase)) (.imm maskFprg)) (.imm maskEopie)))) (.imm maskErrie))] ++
  releaseItems

/-- R93: `(prio mod 2^PRIO_BITS) << (IPR_SHIFT + 8 - PRIO_BITS)`. -/
def prioWord (c : Config) (prio : Word) : Word :=
  BitVec.ofNat 32 (prio.toNat % 2 ^ c.prioBits) <<< (c.iprShift + 8 - c.prioBits)

/-- R93. -/
def cfgIrqItems (c : Config) (prio : Word) : List Item :=
  [.wr (.reg .nvicIpr) (.imm (prioWord c prio)), .wr (.reg .nvicIser) (.imm (bit c.flashIrq))]

/-- R55: the items a pseudo-instruction expands to; POLL is one item itself (R50), and no other row expands. -/
def expansion (c : Config) : Instr → List Item
  | .acquirePe => acquirePeItems c
  | .acquirePrg => acquirePrgItems c
  | .acquireChecked sc fail => acquireCheckedItems c sc fail
  | .release => releaseItems
  | .waitDone => waitDoneItems
  | .erasePage a => erasePageItems c a
  | .programWord a v => programWordItems c a v
  | .programHalf b p h => programHalfItems c b p h
  | .init => initItems c
  | .cfgIrq prio => cfgIrqItems c prio
  | .faultHandler => faultHandlerItems
  | .wrPekeyr _ | .rdPekeyr _ | .wrPrgkeyr _ | .rdPrgkeyr _ | .wrPecr _ | .rdPecr _ | .wrSr _ | .rdSr _ | .rdArrW _ _
  | .rdArrH _ _ | .rdArrB _ _ | .arrWrLocked _ _ | .arrWrWord _ _ | .arrWrErase _ _ | .arrWrHpFirst _ _
  | .arrWrHpNext _ _ | .arrWrBusy _ _ | .wrNvicIpr _ | .wrNvicIser _ | .cpsid | .cpsie | .halt | .ldbuf _ _
  | .brnz _ _ _ | .poll _ _ _ => []

/-- ACQUIRE_PE (R61): its first item is `WR PEKEYR, KEY_PE1`. -/
def execAcquirePe (s : State) : Host.Outcome State Fault Refusal :=
  execWrPekeyr s.cfg.keyPe1 (s.expand (acquirePeItems s.cfg))

/-- ACQUIRE_PRG (R62): its first item is `WR PRGKEYR, KEY_PRG1`. -/
def execAcquirePrg (s : State) : Host.Outcome State Fault Refusal :=
  execWrPrgkeyr s.cfg.keyPrg1 (s.expand (acquirePrgItems s.cfg))

/-- ACQUIRE_CHECKED (R63): its first item is that of the scope's acquire. -/
def execAcquireChecked (sc : Scope) (fail : Nat) (s : State) : Host.Outcome State Fault Refusal :=
  match sc with
  | .dataScope => execWrPekeyr s.cfg.keyPe1 (s.expand (acquireCheckedItems s.cfg sc fail))
  | .programScope => execWrPrgkeyr s.cfg.keyPrg1 (s.expand (acquireCheckedItems s.cfg sc fail))

/-- RELEASE (R64): its first item is `RD PECR -> t`. -/
def execRelease (s : State) : Host.Outcome State Fault Refusal := execRdPecr .seqT (s.expand releaseItems)

/-- WAIT_DONE (R70): its first item is `POLL SR, BSY, 0`. -/
def execWaitDone (s : State) : Host.Outcome State Fault Refusal :=
  execPoll (.reg .sr) maskBsy 0#32 (s.expand waitDoneItems)

/-- ERASE_PAGE a (R81): its first item is `WR PEKEYR, KEY_PE1`. -/
def execErasePage (a : Word) (s : State) : Host.Outcome State Fault Refusal :=
  execWrPekeyr s.cfg.keyPe1 (s.expand (erasePageItems s.cfg a))

/-- PROGRAM_WORD a, v (R82): its first item is `WR PEKEYR, KEY_PE1`. -/
def execProgramWord (a v : Word) (s : State) : Host.Outcome State Fault Refusal :=
  execWrPekeyr s.cfg.keyPe1 (s.expand (programWordItems s.cfg a v))

/-- PROGRAM_HALF b, p, h (R83): its first item is `WR PEKEYR, KEY_PE1`. -/
def execProgramHalf (b p h : Word) (s : State) : Host.Outcome State Fault Refusal :=
  execWrPekeyr s.cfg.keyPe1 (s.expand (programHalfItems s.cfg b p h))

/-- INIT (R92): its first item is `WR PEKEYR, KEY_PE1`. -/
def execInit (s : State) : Host.Outcome State Fault Refusal :=
  execWrPekeyr s.cfg.keyPe1 (s.expand (initItems s.cfg))

/-- CFG_IRQ prio (R93): its first item is the NVIC_IPR_FLASH write. -/
def execCfgIrq (prio : Word) (s : State) : Host.Outcome State Fault Refusal :=
  execWrNvicIpr (prioWord s.cfg prio) (s.expand (cfgIrqItems s.cfg prio))

/-- FAULT_HANDLER (R91): its first item is `WR SR, ERR_MASK`. -/
def execFaultHandler (s : State) : Host.Outcome State Fault Refusal :=
  execWrSr Config.errMask (s.expand faultHandlerItems)

end Sys2Proof.Machine
end

