-- ==== Sys2Proof/Machine/Dispatch.lean ====
section
/-! DEFINITION. One arm per row of spec/opcode_table.json. -/

namespace Sys2Proof.Machine

def exec (i : Instr) (s : State) : Host.Outcome State Fault Refusal :=
  match i with
  | .wrPekeyr d => Sys2Proof.Machine.execWrPekeyr d s
  | .rdPekeyr t => Sys2Proof.Machine.execRdPekeyr t s
  | .wrPrgkeyr d => Sys2Proof.Machine.execWrPrgkeyr d s
  | .rdPrgkeyr t => Sys2Proof.Machine.execRdPrgkeyr t s
  | .wrPecr d => Sys2Proof.Machine.execWrPecr d s
  | .rdPecr t => Sys2Proof.Machine.execRdPecr t s
  | .wrSr d => Sys2Proof.Machine.execWrSr d s
  | .rdSr t => Sys2Proof.Machine.execRdSr t s
  | .rdArrW a t => Sys2Proof.Machine.execRdArrW a t s
  | .rdArrH a t => Sys2Proof.Machine.execRdArrH a t s
  | .rdArrB a t => Sys2Proof.Machine.execRdArrB a t s
  | .arrWrLocked a d => Sys2Proof.Machine.execArrWrLocked a d s
  | .arrWrWord a d => Sys2Proof.Machine.execArrWrWord a d s
  | .arrWrErase a d => Sys2Proof.Machine.execArrWrErase a d s
  | .arrWrHpFirst a d => Sys2Proof.Machine.execArrWrHpFirst a d s
  | .arrWrHpNext a d => Sys2Proof.Machine.execArrWrHpNext a d s
  | .arrWrBusy a d => Sys2Proof.Machine.execArrWrBusy a d s
  | .wrNvicIpr d => Sys2Proof.Machine.execWrNvicIpr d s
  | .wrNvicIser d => Sys2Proof.Machine.execWrNvicIser d s
  | .cpsid => Sys2Proof.Machine.execCpsid s
  | .cpsie => Sys2Proof.Machine.execCpsie s
  | .halt => Sys2Proof.Machine.execHalt s
  | .ldbuf k t => Sys2Proof.Machine.execLdbuf k t s
  | .brnz t mask label => Sys2Proof.Machine.execBrnz t mask label s
  | .poll g mask val => Sys2Proof.Machine.execPoll g mask val s
  | .acquirePe => Sys2Proof.Machine.execAcquirePe s
  | .acquirePrg => Sys2Proof.Machine.execAcquirePrg s
  | .acquireChecked sc fail => Sys2Proof.Machine.execAcquireChecked sc fail s
  | .release => Sys2Proof.Machine.execRelease s
  | .waitDone => Sys2Proof.Machine.execWaitDone s
  | .erasePage a => Sys2Proof.Machine.execErasePage a s
  | .programWord a v => Sys2Proof.Machine.execProgramWord a v s
  | .programHalf b p h => Sys2Proof.Machine.execProgramHalf b p h s
  | .init => Sys2Proof.Machine.execInit s
  | .cfgIrq prio => Sys2Proof.Machine.execCfgIrq prio s
  | .faultHandler => Sys2Proof.Machine.execFaultHandler s

end Sys2Proof.Machine
end

