-- ==== Sys2Proof/Machine/Agents.lean ====
section
/-! DEFINITION. The steps of the three agents and which of them moves next (00_scope.md R4, 30_encoding.md R49,
43_fault_irq.md R84, R89, 60_exceptions.md R100, R101). -/

namespace Sys2Proof.Machine

/-- What the CPU's next step is. -/
inductive CpuStep where
  /-- interrupt entry (R89) -/
  | entry
  /-- the item decodes and may be fetched -/
  | run (i : Instr)
  /-- the decoder refuses the item (R52) -/
  | refuse (c : RefCode)
  /-- the fetch raises UB_PLACEMENT (R39) -/
  | placement
  /-- the CPU holds (R38) -/
  | held
  /-- the CPU has no step until a reset -/
  | none (why : Fault)
  deriving DecidableEq, Repr

/-- R89, R100, R101: a halted CPU has no step; an enabled ENTRY is the only CPU step; otherwise the decoder's refusal (a
POLL's is recorded by running it, A30), then the fetch check, then the instruction's own hold. DESIGN CHOICE (A31): the
item fetched is that of the item list, whatever the array holds at the code region. -/
def State.cpuStep (s : State) : CpuStep :=
  if s.halted then .none .halted
  else if s.entryEnabled then .entry
  else match s.prog.items[s.pc]? with
    | Option.none => if s.pc = s.prog.items.length then .none .programEnd else .none .pcBeyondProgram
    | some item =>
      match decode s.cfg s.arrForm (s.evalItem item) with
      | .error c => .refuse c
      | .ok i =>
        if s.pollRefused i then .run i
        else match s.fetchGate with
          | .hold => .held
          | .placement => .placement
          | .go => if s.instrHeld i then .held else .run i

/-- The CPU can move. -/
def CpuStep.ready : CpuStep → Bool
  | .entry | .run _ | .refuse _ | .placement => true
  | .held | .none _ => false

/-- R101: the agent that moves where the state lists none, by a turn that nothing constrains (A6): the environment, or the
CPU or the controller, or the other of these two where it has no step. -/
def freeAgent (busy ready : Bool) (turn : Nat) : Option Input :=
  if turn % 3 = 0 then some .reset
  else if turn % 3 = 1 then (if ready then some .cpu else if busy then some .complete else none)
  else if busy then some .complete
  else if ready then some .cpu
  else none

/-- R101: the agent that moves, the inputs left, and the number of free turns after it. An input whose agent has no step
is passed over (A5). -/
def nextAgent (busy ready : Bool) (turns : Nat) : List Input → Option (Input × List Input × Nat)
  | [] => (freeAgent busy ready (Config.freeTurn turns)).map (fun a => (a, [], turns + 1))
  | .cpu :: rest => if ready then some (.cpu, rest, turns) else nextAgent busy ready turns rest
  | .complete :: rest => if busy then some (.complete, rest, turns) else nextAgent busy ready turns rest
  | .reset :: rest => some (.reset, rest, turns)

/-- A step of the CPU. A refused item has no effect but the code, and the next item follows (R49, A16); an item whose
fetch raises does not run, and pc stays (A16). A held or stopped CPU has no step. -/
def runCpu (v : CpuStep) (s : State) : Host.Outcome State Fault Refusal :=
  match v with
  | .entry => .next s.takeEntry
  | .run i => exec i s
  | .refuse c => .next (s.raiseRef c).advance
  | .placement => .next (s.raiseUb .placement)
  | .held => .next s
  | .none why => .fault why

/-- R84: what follows every step of any agent. -/
def latchNext (o : Host.Outcome State Fault Refusal) : Host.Outcome State Fault Refusal :=
  match o with
  | .next s => .next s.latch
  | .fault f => .fault f
  | .refused r => .refused r

/-- One step of the machine. -/
def machineStep (s : State) : Host.Outcome State Fault Refusal :=
  match nextAgent s.completeEnabled s.cpuStep.ready s.turnCount s.inputs with
  | some (.cpu, rest, n) => latchNext (runCpu s.cpuStep { s with inputs := rest, turnCount := n })
  | some (.complete, rest, n) => latchNext (.next { s.complete with inputs := rest, turnCount := n })
  | some (.reset, rest, n) => latchNext (.next { s.applyReset with inputs := rest, turnCount := n })
  | none => runCpu s.cpuStep s

/-- A code region outside the flash array, for `placeItem`. -/
def outsideFlash (c : Config) : Word :=
  if c.flashBase = 0#32 then BitVec.ofNat 32 c.flashBytes else 0#32

/-- The items with `it` at index `pc`; a program shorter than `pc` is filled up with `it`. -/
def placeAt (it : Item) : Nat → List Item → List Item
  | 0, [] => [it]
  | 0, _ :: rest => it :: rest
  | pc + 1, [] => it :: placeAt it pc []
  | pc + 1, x :: rest => x :: placeAt it pc rest

/-- The state whose very next step is the CPU's, running item `it`: the item stands at pc, the CPU is the next agent, is
not halted, takes no interrupt first, and may fetch. -/
def State.placeItem (s : State) (it : Item) : State :=
  { s with
    prog := { base := if s.fetchGate = .go then s.prog.base else outsideFlash s.cfg
              bytes := s.prog.bytes
              items := placeAt it s.pc s.prog.items }
    inputs := .cpu :: s.inputs
    halted := false
    irqPending := s.irqPending && (!s.irqEn || s.primask || s.inHandler) }

end Sys2Proof.Machine
end

