-- ==== Sys2Proof/Machine/Step.lean ====
section
/-! DEFINITION. One step, and the placing of an encoded instruction where the next step fetches. -/

namespace Sys2Proof.Machine

/-- One step of the machine: one step of the agent that moves next (00_scope.md R4, 60_exceptions.md R101). -/
def step (s : State) : Host.Outcome State Fault Refusal := machineStep s

/-- `s` with the encoded instruction stored where the next step fetches (A8). A length that is no encoding stands for the
halfword 0, which R48 refuses. -/
def State.withFetchWord (s : State) (nbits w : Nat) : State :=
  s.placeItem (.code ((codeOfTableWord nbits w).getD (.cpu 0#16)))

end Sys2Proof.Machine
end

