-- ==== Sys2Proof/Safety.lean ====
section
/-! DEFINITION. What counts as a safe run and a successful end (00_scope.md R11, R12, R14), the placement the platform
owes (70_reset_and_hazards.md R113, R114, R118), and the invariant that every step keeps. -/

namespace Sys2Proof.Machine

/-- No UB fault and no refusal has been raised (R11, R12). -/
def State.clean (s : State) : Prop := s.ubFault = false ∧ s.refused = false

/-- R14: the end of a successful run. -/
def State.successfulEnd (s : State) : Prop :=
  s.pc = s.prog.items.length ∧ s.op = .idle ∧ s.halted = false ∧ s.clean ∧ s.err &&& Config.errMask = 0#32

/-- R113, R118: address `a` is outside every bank in `banks`, the banks that a run's operations target. -/
def outsideBanks (c : Config) (banks : List Nat) (a : Word) : Prop := c.inFlash a = true → c.bank a ∉ banks

/-- R113, R114: the code of the running program and of the handler, and the source buffer, lie outside the banks that
the run's operations target. -/
def State.placedFor (s : State) (banks : List Nat) : Prop :=
  outsideBanks s.cfg banks s.prog.base ∧ outsideBanks s.cfg banks s.cfg.handlerBase ∧
  ∀ i < s.buf.length, outsideBanks s.cfg banks (s.bufAddr i)

/-- R22: a pending operation or a fill has the form that R73 to R76 give it. -/
def OpState.wf (c : Config) : OpState → Prop
  | .idle => True
  | .hpFill b buf => c.inFlash b = true ∧ b.toNat % c.halfBytes = 0 ∧ 1 ≤ buf.length ∧ buf.length < c.n
  | .busy (.erase p) => c.inFlash p = true ∧ p.toNat % c.pageBytes = 0
  | .busy (.word a _) => c.inFlash a = true ∧ a.toNat % 4 = 0
  | .busy (.half b buf) => c.inFlash b = true ∧ b.toNat % c.halfBytes = 0 ∧ buf.length = c.n

/-- Every listed byte lies in the flash array (R25, R32). -/
def Memory.inArray (c : Config) (m : List Host.Cell) : Prop :=
  ∀ p ∈ m, c.flashBase.toNat ≤ p.1 ∧ p.1 < c.flashBase.toNat + c.flashBytes

/-- The invariant: what holds in every state a run reaches. -/
structure State.Inv (s : State) : Prop where
  /-- the parameters meet R6 -/
  cfg_wf : s.cfg.wf = true
  /-- the array's list is in canonical form -/
  mem_wf : Memory.wf s.mem = true
  /-- the array holds bytes of the flash array only -/
  mem_inArray : Memory.inArray s.cfg s.mem
  /-- the temporaries' list is in canonical form -/
  temps_wf : sparseWfFrom 0#32 0 s.temps = true
  /-- R21 -/
  locks : s.pecr.pelock = true → s.pecr.prglock = true
  /-- R24: no PECR write can produce a RESERVED mode -/
  mode_legal : s.mode ≠ .reserved
  /-- R36, R49: the code regions of the running and of the boot program start at even addresses, outside the flash array
  or in one bank of it -/
  prog_region : s.prog.regionOk s.cfg = true
  boot_region : s.boot.regionOk s.cfg = true
  /-- R22 -/
  op_wf : s.op.wf s.cfg
  /-- R56: PELOCK = 1 never holds while an operation is pending; nor does PRGLOCK = 1 (R59, R71) -/
  op_unlocked : s.op ≠ .idle → s.unlocked = true
  /-- R17: only the bits of ERR_MASK are stored -/
  err_mask : s.err &&& ~~~Config.errMask = 0#32
  /-- R20: DEAD only under STICKY -/
  retry_alive : s.cfg.keyErrorPolicy = .retry → s.peSeq ≠ .dead ∧ s.prgSeq ≠ .dead
  /-- R56, R57, R59: a sequencer stands past K0 only while its lock is set -/
  pe_seq : s.pecr.pelock = false → s.peSeq = .k0
  prg_seq : s.pecr.prglock = false → s.prgSeq = .k0
  /-- R26: irq_prio is PRIO_BITS wide -/
  prio : s.irqPrio.toNat < 2 ^ s.cfg.prioBits
  /-- R27, R11, R12: a flag is set exactly when a code of its kind has been raised -/
  ub_reasons : s.ubFault = true ↔ ∃ c, Reason.ub c ∈ s.reasons
  ref_reasons : s.refused = true ↔ ∃ c, Reason.ref c ∈ s.reasons

/-- A run (R4, R101): each state is a step after the one before it, for an agent that moves next. -/
def IsRun (r : Nat → State) : Prop := ∀ k, ∃ a, step { r k with inputs := [a] } = .next (r (k + 1))

/-- P18 COMPLETION_FAIR (R69): every operation that is BUSY in the run is ended later. It is a premise that a claim may
take; no run is asked to meet it. -/
def CompletionFair (r : Nat → State) : Prop := ∀ k op, (r k).op = .busy op → ∃ j, k ≤ j ∧ (r j).op = .idle

/-- R84: irq_pending is set whenever the line is high; every step of an agent leaves it so. -/
def State.latched (s : State) : Prop := s.flashLine = true → s.irqPending = true

end Sys2Proof.Machine
end

