-- ==== Sys2Proof/Certificates/Slice0/Obligations.lean ====
section
/-! DEFINITION. The statements for the provers. Each is about every state and every value of the parameters; where a
state no run reaches would make it fail, the premise names what the invariant `State.Inv` gives. A record written
`{ s with … }` states the frame too: every field not named is unchanged, every byte of the array included. -/

open Sys2Proof Sys2Proof.Machine

/-! ## Encoding -/

/-- R47, R48, R52: words written out bit by bit from the spec's formats decode to the instructions they stand for. The
row of the array write is that of the state right after reset (log entry 19, DEDUCED), and a read's destination, for
which a word has no field, is temporary 0 (log entry 14, DESIGN CHOICE). -/
def Obligations.TableWordsDecodeToTheirRows : Prop :=
  decodeTableWord 16 0b1011011001110010 = some .cpsid ∧
  decodeTableWord 16 0b1011011001100010 = some .cpsie ∧
  decodeTableWord 16 0b1110011111111110 = some .halt ∧
  decodeTableWord 72 0x64002200C89ABCDEF = some (.wrPekeyr 0x89ABCDEF#32) ∧
  decodeTableWord 72 0x24002201800000000 = some (.rdSr (.user 0)) ∧
  decodeTableWord 72 0x00800300100000000 = some (.rdArrB 0x08003001#32 (.user 0)) ∧
  decodeTableWord 72 0x608003000DEADBEEF = some (.arrWrLocked 0x08003000#32 0xDEADBEEF#32) ∧
  decodeTableWord 72 0x6E000E10000000008 = some (.wrNvicIser 0x00000008#32)

/-- R47, R48, R52: decoding the encoding of a well-formed instruction gives it back, with every operand. The state's
array-write row matters only to an array write. -/
def Obligations.DecodeOfEncodeIsTheInstruction : Prop :=
  ∀ (c : Config) (i : Instr) (form : ArrForm), c.wf = true → i.wf c = true →
    (∀ f a d, i = ArrForm.instr f a d → form = f) → decode c form (encode c i) = .ok i

/-- R47, R48, R52: each word has one meaning. What a BUS word or halfword decodes to is well-formed, and its encoding is
that word again. -/
def Obligations.DecodedWordIsTheInstructionsEncoding : Prop :=
  ∀ (c : Config) (form : ArrForm) (i : Instr), c.wf = true →
    (∀ T t, decode c form (.bus T t) = .ok i → i.wf c = true ∧ ∃ t', encode c i = .bus T t') ∧
    (∀ h, decode c form (.cpu h) = .ok i → encode c i = .cpu h)

/-- R48, R52, R53: the reserved and illegal encodings are refused, each by its name, in the order R52 checks. That the
register window ends at 2^32 and does not wrap, where FLASH_R_BASE >= 0xFFFF_FC00, is a DESIGN CHOICE (log entry
29) on which the REF_REG_OFFSET and the last REF_UNMAPPED clause rest. -/
def Obligations.ReservedEncodingsAreRefused : Prop :=
  ∀ (c : Config) (form : ArrForm) (t : Temp), c.wf = true →
    (∀ T, busSz T = 3#2 → decode c form (.bus T t) = .error .encoding) ∧
    (∀ T, busSz T ≠ 3#2 → busW T = false → busD T ≠ 0#32 → decode c form (.bus T t) = .error .encoding) ∧
    (∀ h, h ≠ 0xB672#16 → h ≠ 0xB662#16 → h ≠ 0xE7FE#16 → decode c form (.cpu h) = .error .encoding) ∧
    (∀ a ∈ c.regAddrs, ∀ w sz d, sz ≠ 3#2 → sz ≠ 2#2 → (w = true ∨ d = 0#32) →
      decode c form (.bus (busWord w sz a d) t) = .error .width) ∧
    (∀ a, c.inRegWindow a = true → a ∉ c.regAddrs → ∀ w sz d, sz ≠ 3#2 → (w = true ∨ d = 0#32) →
      decode c form (.bus (busWord w sz a d) t) = .error .regOffset) ∧
    (∀ a, c.inFlash a = true → ∀ sz d, sz ≠ 3#2 → sz ≠ 2#2 →
      decode c form (.bus (busWord true sz a d) t) = .error .width) ∧
    (∀ a ∈ [c.nvicIser, c.nvicIpr], ∀ w sz d, sz ≠ 3#2 → (w = true → sz ≠ 2#2) → (w = true ∨ d = 0#32) →
      decode c form (.bus (busWord w sz a d) t) = .error .unmapped) ∧
    (∀ a, a ∉ c.regAddrs → c.inRegWindow a = false → c.inFlash a = false → a ≠ c.nvicIser → a ≠ c.nvicIpr →
      ∀ w sz d, sz ≠ 3#2 → (w = true ∨ d = 0#32) → decode c form (.bus (busWord w sz a d) t) = .error .unmapped)

/-- R52 step 9, R71: the state selects the row of an array write. -/
def Obligations.StateSelectsTheArrayWriteRow : Prop :=
  ∀ (s : State) (a d : Word) (t : Temp), s.cfg.wf = true → s.cfg.inFlash a = true →
    let row := decode s.cfg s.arrForm (.bus (busWord true 2#2 a d) t)
    (∀ op, s.op = .busy op → row = .ok (.arrWrBusy a d)) ∧
    (∀ b buf, s.op = .hpFill b buf → row = .ok (.arrWrHpNext a d)) ∧
    (s.op = .idle → (s.pecr.pelock = true ∨ s.pecr.prglock = true) → row = .ok (.arrWrLocked a d)) ∧
    (s.op = .idle → s.pecr.pelock = false → s.pecr.prglock = false →
      (s.mode = .word → row = .ok (.arrWrWord a d)) ∧
      (s.mode = .erasePage → row = .ok (.arrWrErase a d)) ∧
      (s.mode = .halfPage → row = .ok (.arrWrHpFirst a d)))

/-! ## One step -/

/-- R49, R100: a CPU step at an item that decodes to `i`, that may be fetched and does not hold, is `exec` of `i`,
followed by the latch of R84. -/
def Obligations.StepRunsTheDecodedInstruction : Prop :=
  ∀ (s : State) (item : Item) (i : Instr) (rest : List Input),
    s.inputs = .cpu :: rest → s.halted = false → s.entryEnabled = false → s.prog.items[s.pc]? = some item →
    decode s.cfg s.arrForm (s.evalItem item) = .ok i → s.fetchGate = .go → s.instrHeld i = false →
    ∃ t, exec i { s with inputs := rest } = .next t ∧
      step s = .next { t with irqPending := t.irqPending || t.flashLine }

/-- R100, R12: the decoder's refusal comes before the fetch check; the refused item has no effect but the code. That the
next item follows it is DEDUCED from R49 (log entry 16). A POLL is one read of its target per iteration (R50): the
refusal of that read stands among the decoder's (log entry 30, DEDUCED), and the POLL stays at its item (log entry 16).
-/
def Obligations.RefusedItemRecordsItsCode : Prop :=
  ∀ (s : State) (item : Item) (code : RefCode) (rest : List Input),
    s.inputs = .cpu :: rest → s.halted = false → s.entryEnabled = false → s.prog.items[s.pc]? = some item →
    (decode s.cfg s.arrForm (s.evalItem item) = .error code →
      step s = .next { s with
        refused := true, reasons := s.reasons ++ [.ref code], pc := s.pc + 1, inputs := rest,
        irqPending := s.irqPending || s.flashLine }) ∧
    (∀ g m v, decode s.cfg s.arrForm (s.evalItem item) = .ok (.poll g m v) →
      decode s.cfg s.arrForm (.bus (busWord false 2#2 (s.evalTarget g) 0#32) .seqT) = .error code →
      step s = .next { s with
        refused := true, reasons := s.reasons ++ [.ref code], inputs := rest,
        irqPending := s.irqPending || s.flashLine })

/-- R38, R39: a fetch from the bank of a burst that is filling or committing raises UB_PLACEMENT before the item's own
rule, after the decoder's refusals (`RefusedItemRecordsItsCode`). That pc stays at the item is the model's choice (log
entry 16). -/
def Obligations.FetchInTheBurstBankRaisesPlacement : Prop :=
  ∀ (s : State) (item : Item) (i : Instr) (rest : List Input) (b : Word) (buf : List Word),
    s.inputs = .cpu :: rest → s.halted = false → s.entryEnabled = false → s.prog.items[s.pc]? = some item →
    decode s.cfg s.arrForm (s.evalItem item) = .ok i → s.pollRefused i = false →
    s.op = .hpFill b buf ∨ s.op = .busy (.half b buf) →
    s.cfg.inFlash s.prog.base = true → s.cfg.bank s.prog.base = s.cfg.bank b →
    step s = .next { s with
      ubFault := true, reasons := s.reasons ++ [.ub .placement], inputs := rest,
      irqPending := s.irqPending || s.flashLine }

/-- R13, R38, R39, R79, R80, R101: the CPU holds at an item whose fetch, or whose own array read (RD_ARR of every size,
LDBUF of a buffer in the flash array, POLL of an array word), is of the bank of a pending erase or word program; and a
CPU that holds has no step: the step that is taken is COMPLETE or RESET, and either way the operation has ended after it
and the item has had no effect. -/
def Obligations.HeldCpuWaitsForTheController : Prop :=
  ∀ s : State,
    (∀ (item : Item) (i : Instr) (op : Op) (a : Word),
      s.cfg.wf = true → s.halted = false → s.entryEnabled = false → s.prog.items[s.pc]? = some item →
      decode s.cfg s.arrForm (s.evalItem item) = .ok i → s.op = .busy op → (∀ b buf, op ≠ .half b buf) →
      s.cfg.inFlash a = true → s.cfg.bank a = s.cfg.bank op.addr →
      (a = s.prog.base ∧ s.pollRefused i = false) ∨
      (s.fetchGate = .go ∧
        ((∃ x, i = .rdArrB a x ∨ (i = .rdArrH a x ∧ a.toNat % 2 = 0) ∨ (i = .rdArrW a x ∧ a.toNat % 4 = 0)) ∨
         (a.toNat % 4 = 0 ∧ ∃ k x v, i = .ldbuf k x ∧ s.buf[k]? = some v ∧ a = s.bufBase + BitVec.ofNat 32 (4 * k)) ∨
         (a.toNat % 4 = 0 ∧ ∃ g m v, i = .poll g m v ∧ a = s.evalTarget g))) →
      s.cpuStep = .held) ∧
    (s.cpuStep = .held →
      ∃ t, step s = .next t ∧ s.completeEnabled = true ∧ t.op = .idle ∧
        ((t.pc = s.pc ∧ t.prog = s.prog ∧ t.reasons = s.reasons ∧ ∀ x, t.readTemp x = s.readTemp x) ∨
         (t.pc = 0 ∧ t.prog = s.boot ∧ t.reasons = s.reasons)))

/-! ## The unlock guard -/

/-- R56: WR_PEKEYR. -/
def Obligations.DataKeyPortWrite : Prop :=
  ∀ (s : State) (d : Word),
    (s.cfg.wf = true → ∀ t,
      decode s.cfg s.arrForm (.bus (busWord true 2#2 (s.cfg.flashRBase + s.cfg.offPekeyr) d) t) = .ok (.wrPekeyr d)) ∧
    let wrong : KeySeq := if s.cfg.keyErrorPolicy = .retry then .k0 else .dead
    exec (.wrPekeyr d) s = .next
      (if s.pecr.pelock = false then { s with pc := s.pc + 1 }
       else match s.peSeq with
         | .k0 => { s with pc := s.pc + 1, peSeq := if d = s.cfg.keyPe1 then .k1 else wrong }
         | .k1 =>
           if d = s.cfg.keyPe2 then { s with pc := s.pc + 1, pecr := { s.pecr with pelock := false }, peSeq := .k0 }
           else { s with pc := s.pc + 1, peSeq := wrong }
         | .dead => { s with pc := s.pc + 1 })

/-- R57: WR_PRGKEYR. -/
def Obligations.ProgramKeyPortWrite : Prop :=
  ∀ (s : State) (d : Word),
    (s.cfg.wf = true → ∀ t,
      decode s.cfg s.arrForm (.bus (busWord true 2#2 (s.cfg.flashRBase + s.cfg.offPrgkeyr) d) t) = .ok (.wrPrgkeyr d)) ∧
    let wrong : KeySeq := if s.cfg.keyErrorPolicy = .retry then .k0 else .dead
    exec (.wrPrgkeyr d) s = .next
      (if s.pecr.pelock = true ∨ s.pecr.prglock = false then { s with pc := s.pc + 1 }
       else match s.prgSeq with
         | .k0 => { s with pc := s.pc + 1, prgSeq := if d = s.cfg.keyPrg1 then .k1 else wrong }
         | .k1 =>
           if d = s.cfg.keyPrg2 then { s with pc := s.pc + 1, pecr := { s.pecr with prglock := false }, prgSeq := .k0 }
           else { s with pc := s.pc + 1, prgSeq := wrong }
         | .dead => { s with pc := s.pc + 1 })

/-- R58: RD_PEKEYR and RD_PRGKEYR give 0 in every state and change nothing else. -/
def Obligations.KeyPortReadsGiveZero : Prop :=
  ∀ (s : State) (x : Temp) (i : Instr), i = .rdPekeyr x ∨ i = .rdPrgkeyr x →
    (s.cfg.wf = true →
      decode s.cfg s.arrForm (.bus (busWord false 2#2 s.cfg.pekeyrAddr 0#32) x) = .ok (.rdPekeyr x) ∧
      decode s.cfg s.arrForm (.bus (busWord false 2#2 s.cfg.prgkeyrAddr 0#32) x) = .ok (.rdPrgkeyr x)) ∧
    exec i s = .next { s.writeTemp x 0#32 with pc := s.pc + 1 }

/-- R59: WR_PECR, its checks in order and its effect bit by bit. That pc goes to the next item after a raised code is
DEDUCED (log entry 16). -/
def Obligations.ControlRegisterWrite : Prop :=
  ∀ (s : State) (d : Word),
    (s.cfg.wf = true → ∀ t,
      decode s.cfg s.arrForm (.bus (busWord true 2#2 (s.cfg.flashRBase + s.cfg.offPecr) d) t) = .ok (.wrPecr d)) ∧
    (s.op ≠ .idle → exec (.wrPecr d) s =
      .next { s with pc := s.pc + 1, ubFault := true, reasons := s.reasons ++ [.ub .pecrWhileBusy] }) ∧
    (s.op = .idle → s.pecr.pelock = true → exec (.wrPecr d) s = .next { s with pc := s.pc + 1 }) ∧
    (s.op = .idle → s.pecr.pelock = false → (d.getLsbD 4 = true ∨ d.getLsbD 8 = true) → exec (.wrPecr d) s =
      .next { s with pc := s.pc + 1, refused := true, reasons := s.reasons ++ [.ref .pecrBit] }) ∧
    (s.op = .idle → s.pecr.pelock = false → d.getLsbD 4 = false → d.getLsbD 8 = false →
      -- R24's RESERVED rows: ERASE and FPRG together, or either of them without PROG
      (((d.getLsbD 9 = true ∧ d.getLsbD 10 = true) ∨
          (d.getLsbD 3 = false ∧ (d.getLsbD 9 = true ∨ d.getLsbD 10 = true))) →
        exec (.wrPecr d) s =
          .next { s with pc := s.pc + 1, ubFault := true, reasons := s.reasons ++ [.ub .reservedMode] }) ∧
      (¬((d.getLsbD 9 = true ∧ d.getLsbD 10 = true) ∨
          (d.getLsbD 3 = false ∧ (d.getLsbD 9 = true ∨ d.getLsbD 10 = true))) →
        exec (.wrPecr d) s = .next { s with
          pc := s.pc + 1
          pecr := { pelock := d.getLsbD 0
                    prglock := s.pecr.prglock || d.getLsbD 1 || d.getLsbD 0
                    prog := d.getLsbD 3, erase := d.getLsbD 9, fprg := d.getLsbD 10
                    eopie := d.getLsbD 16, errie := d.getLsbD 17 }
          peSeq := if d.getLsbD 0 = true ∧ s.peSeq ≠ .dead then .k0 else s.peSeq
          prgSeq := if (d.getLsbD 0 = true ∨ d.getLsbD 1 = true) ∧ s.prgSeq ≠ .dead then .k0 else s.prgSeq }))

/-- R60, R16: RD_PECR gives each field in its place and 0 everywhere else, in every state, and changes nothing else. -/
def Obligations.ControlRegisterRead : Prop :=
  ∀ (s : State) (x : Temp),
    (s.cfg.wf = true →
      decode s.cfg s.arrForm (.bus (busWord false 2#2 (s.cfg.flashRBase + s.cfg.offPecr) 0#32) x) = .ok (.rdPecr x)) ∧
    ∃ v : Word, exec (.rdPecr x) s = .next { s.writeTemp x v with pc := s.pc + 1 } ∧
      ∀ k < 32, v.getLsbD k =
        (if k = 0 then s.pecr.pelock else if k = 1 then s.pecr.prglock else if k = 3 then s.pecr.prog
         else if k = 9 then s.pecr.erase else if k = 10 then s.pecr.fprg else if k = 16 then s.pecr.eopie
         else if k = 17 then s.pecr.errie else false)

/-- R61: ACQUIRE_PE runs its two key writes in two CPU steps when no interrupt can be taken; it clears PELOCK exactly
when pe_seq was K0, and raises nothing. That its two items are two steps of the program is DEDUCED (log entry 15). -/
def Obligations.AcquirePeClearsTheDataLock : Prop :=
  ∀ (s : State) (rest : List Input),
    s.cfg.wf = true → s.halted = false → s.latch.entryEnabled = false → s.fetchGate = .go →
    s.prog.items[s.pc]? = some (.code (.sym .acquirePe)) → s.inputs = .cpu :: .cpu :: rest →
    ∃ t, Host.Core.run Sys2Proof.core 2 s = .next t ∧ t.pc = s.pc + 2 ∧ t.inputs = rest ∧
      (s.pecr.pelock = false → t.pecr = s.pecr ∧ t.peSeq = s.peSeq) ∧
      (s.pecr.pelock = true → s.peSeq = .k0 → t.pecr = { s.pecr with pelock := false } ∧ t.peSeq = .k0) ∧
      (s.pecr.pelock = true → s.peSeq = .k1 → s.cfg.keyPe1 ≠ s.cfg.keyPe2 → t.pecr = s.pecr ∧
        t.peSeq = if s.cfg.keyErrorPolicy = .retry then .k0 else .dead) ∧
      (s.pecr.pelock = true → s.peSeq = .dead → t.pecr = s.pecr ∧ t.peSeq = .dead) ∧
      t.prgSeq = s.prgSeq ∧ t.op = s.op ∧ t.mem = s.mem ∧ t.eop = s.eop ∧ t.err = s.err ∧ t.reasons = s.reasons

/-- R64: after RELEASE with no operation pending both locks are set and each sequencer not DEAD is K0; mode bits and
enable flags are unchanged. Issued while PELOCK = 1 it changes neither; issued while an operation is pending it raises
UB_PECR_WHILE_BUSY. That the items are a program's own, two steps, and that pc goes on after the raised code are DEDUCED
(log entries 15, 16). -/
def Obligations.ReleaseSetsBothLocks : Prop :=
  ∀ (s : State) (rest : List Input),
    s.Inv → s.halted = false → s.latch.entryEnabled = false → s.fetchGate = .go →
    s.prog.items[s.pc]? = some (.code (.sym .release)) → s.inputs = .cpu :: .cpu :: rest →
    ∃ t, Host.Core.run Sys2Proof.core 2 s = .next t ∧ t.pc = s.pc + 2 ∧ t.inputs = rest ∧ t.op = s.op ∧ t.mem = s.mem ∧
      (s.op = .idle →
        t.pecr = { s.pecr with pelock := true, prglock := true } ∧ t.reasons = s.reasons ∧
        (s.pecr.pelock = false →
          t.peSeq = (if s.peSeq = .dead then .dead else .k0) ∧ t.prgSeq = (if s.prgSeq = .dead then .dead else .k0)) ∧
        (s.pecr.pelock = true → t.peSeq = s.peSeq ∧ t.prgSeq = s.prgSeq)) ∧
      (s.op ≠ .idle → t.pecr = s.pecr ∧ t.reasons = s.reasons ++ [.ub .pecrWhileBusy])

/-! ## The status register and completion -/

/-- R66: RD_SR gives BSY, EOP and the error bits in their places; the reserved bits are whatever is drawn. -/
def Obligations.StatusRegisterRead : Prop :=
  ∀ (s : State) (x : Temp),
    (s.cfg.wf = true →
      decode s.cfg s.arrForm (.bus (busWord false 2#2 (s.cfg.flashRBase + s.cfg.offSr) 0#32) x) = .ok (.rdSr x)) ∧
    ∃ v : Word,
      exec (.rdSr x) s =
        .next { s.writeTemp x v with pc := s.pc + 1, draws := s.draws.tail, drawCount := s.drawCount + 1 } ∧
      v.getLsbD 0 = decide (s.op ≠ .idle) ∧ v.getLsbD 1 = s.eop ∧
      (∀ k ∈ [8, 9, 10, 11, 13, 16, 17], v.getLsbD k = s.err.getLsbD k) ∧
      (∀ k < 32, k ∉ [0, 1, 8, 9, 10, 11, 13, 16, 17] → v.getLsbD k = s.nextDraw.getLsbD k)

/-- R67: WR_SR clears EOP and the error bits that the data has 1, whatever is locked or pending, and sets none. -/
def Obligations.StatusRegisterWriteClearsOnes : Prop :=
  ∀ (s : State) (d : Word),
    (s.cfg.wf = true → ∀ t,
      decode s.cfg s.arrForm (.bus (busWord true 2#2 (s.cfg.flashRBase + s.cfg.offSr) d) t) = .ok (.wrSr d)) ∧
    ∃ err' : Word,
      exec (.wrSr d) s = .next { s with pc := s.pc + 1, eop := s.eop && !d.getLsbD 1, err := err' } ∧
      (∀ k ∈ [8, 9, 10, 11, 13, 16, 17], err'.getLsbD k = (s.err.getLsbD k && !d.getLsbD k)) ∧
      (∀ k, k ∉ [8, 9, 10, 11, 13, 16, 17] → err'.getLsbD k = s.err.getLsbD k)

/-- R68, R77, R78: the completion of a word program with no error drawn and no protected word: the word is combined,
every other byte is unchanged, EOP = 1, BSY = 0. -/
def Obligations.WordProgramCompletes : Prop :=
  ∀ (s : State) (rest : List Input) (a v : Word),
    Memory.wf s.mem = true → s.inputs = .complete :: rest → s.op = .busy (.word a v) →
    s.nextDraw &&& 0x00032E00#32 = 0#32 → a.toNat ∉ s.cfg.protectedWords →
    ∃ m, step s = .next { s with
        mem := m, eop := true, op := .idle, inputs := rest, draws := s.draws.tail, drawCount := s.drawCount + 1
        irqPending := s.irqPending || (s.pecr.errie && decide (s.err &&& 0x00032F00#32 ≠ 0#32)) || s.pecr.eopie } ∧
      Memory.readWord m a =
        (if Memory.readWord s.mem a = s.cfg.erasedWord then v else Memory.readWord s.mem a ||| v) ∧
      ∀ b, (b < a.toNat ∨ a.toNat + 4 ≤ b) → Memory.readByte m b = Memory.readByte s.mem b

/-- R68, R77: the completion of a page erase with no error drawn and no protected word: every word of the page reads
ERASED_WORD, every byte outside the page is unchanged, EOP = 1, BSY = 0. -/
def Obligations.PageEraseCompletes : Prop :=
  ∀ (s : State) (rest : List Input) (p : Word),
    s.Inv → s.inputs = .complete :: rest → s.op = .busy (.erase p) →
    s.nextDraw &&& 0x00032E00#32 = 0#32 →
    (∀ j < s.cfg.pageWords, (p + BitVec.ofNat 32 (4 * j)).toNat ∉ s.cfg.protectedWords) →
    ∃ m, step s = .next { s with
        mem := m, eop := true, op := .idle, inputs := rest, draws := s.draws.tail, drawCount := s.drawCount + 1
        irqPending := s.irqPending || (s.pecr.errie && decide (s.err &&& 0x00032F00#32 ≠ 0#32)) || s.pecr.eopie } ∧
      (∀ j < s.cfg.pageWords, Memory.readWord m (p + BitVec.ofNat 32 (4 * j)) = s.cfg.erasedWord) ∧
      ∀ b, (b < p.toNat ∨ p.toNat + s.cfg.pageBytes ≤ b) → Memory.readByte m b = Memory.readByte s.mem b

/-- R68, R77, R78: the completion of a half-page with no error drawn and no protected word: word i of the buffer is
combined into the word at base + 4*i for each of the N words, and every byte outside the half-page is unchanged. -/
def Obligations.HalfPageCompletes : Prop :=
  ∀ (s : State) (rest : List Input) (base : Word) (buf : List Word),
    s.Inv → s.inputs = .complete :: rest → s.op = .busy (.half base buf) →
    s.nextDraw &&& 0x00032E00#32 = 0#32 →
    (∀ i < s.cfg.n, (base + BitVec.ofNat 32 (4 * i)).toNat ∉ s.cfg.protectedWords) →
    ∃ m, step s = .next { s with
        mem := m, eop := true, op := .idle, inputs := rest, draws := s.draws.tail, drawCount := s.drawCount + 1
        irqPending := s.irqPending || (s.pecr.errie && decide (s.err &&& 0x00032F00#32 ≠ 0#32)) || s.pecr.eopie } ∧
      (∀ (i : Nat) (v : Word), buf[i]? = some v →
        let old := Memory.readWord s.mem (base + BitVec.ofNat 32 (4 * i))
        Memory.readWord m (base + BitVec.ofNat 32 (4 * i)) = if old = s.cfg.erasedWord then v else old ||| v) ∧
      ∀ b, (b < base.toNat ∨ base.toNat + s.cfg.halfBytes ≤ b) → Memory.readByte m b = Memory.readByte s.mem b

/-- R68: a completion with an error drawn or a protected target: the error bits are set, BSY = 0, EOP is set only under
EOP_ON_ERROR; a protected target leaves the array unchanged, and no byte outside the target ever changes. -/
def Obligations.FailedCompletionSetsTheErrorBits : Prop :=
  ∀ (s : State) (rest : List Input) (op : Op),
    Memory.wf s.mem = true → s.inputs = .complete :: rest → s.op = .busy op →
    let hit := (op.target s.cfg).any (fun w => s.cfg.protectedWords.contains w.toNat)
    let e : Word := (s.nextDraw &&& 0x00032E00#32) ||| (if hit = true then 0x00000100#32 else 0#32)
    e ≠ 0#32 →
    ∃ t, step s = .next t ∧
      t = { s with
        mem := t.mem, draws := t.draws, drawCount := t.drawCount, inputs := rest
        err := s.err ||| e, eop := s.eop || s.cfg.eopOnError, op := .idle, irqPending := t.irqPending } ∧
      (t.irqPending = true ↔ s.irqPending = true ∨
        (s.pecr.errie = true ∧ (s.err ||| e) &&& 0x00032F00#32 ≠ 0#32) ∨ (s.pecr.eopie = true ∧ t.eop = true)) ∧
      (hit = true → t.mem = s.mem) ∧
      ∀ b, (∀ w ∈ op.target s.cfg, b < w.toNat ∨ w.toNat + 4 ≤ b) → Memory.readByte t.mem b = Memory.readByte s.mem b

/-- R78: the combine law's cases. -/
def Obligations.CombineLaw : Prop :=
  ∀ (c : Config) (old v w : Word),
    combine c c.erasedWord v = v ∧
    (old ≠ c.erasedWord → combine c old v = old ||| v) ∧
    (old ≠ c.erasedWord → combine c old 0#32 = old) ∧
    combine c old old = old ∧
    (old ≠ c.erasedWord → old ||| v = c.erasedWord → combine c (combine c old v) w = w) ∧
    (c.erasedWord = 0#32 → combine c old v = old ||| v)

/-! ## Storage -/

/-- R9, R28, R34: a word of the array and a temporary read back as they were written and nothing else changes; a write
keeps the canonical form, in which arrays that read the same are the same list. -/
def Obligations.StorageReadsBackWhatWasWritten : Prop :=
  (∀ (m : List Host.Cell) (a v : Word), Memory.wf m = true →
    Memory.wf (Memory.writeWord m a v) = true ∧ Memory.readWord (Memory.writeWord m a v) a = v ∧
    (∀ b, (b < a.toNat ∨ a.toNat + 4 ≤ b) → Memory.readByte (Memory.writeWord m a v) b = Memory.readByte m b) ∧
    ∀ m', Memory.wf m' = true → (∀ b, Memory.readByte m b = Memory.readByte m' b) → m = m') ∧
  (∀ (s : State) (x y : Temp) (v : Word), sparseWfFrom 0#32 0 s.temps = true →
    sparseWfFrom 0#32 0 (s.writeTemp x v).temps = true ∧
    (s.writeTemp x v).readTemp y = if y = x then v else s.readTemp y)

/-! ## The array port -/

/-- R71, R72: the array writes that start nothing. ARR_WR_LOCKED changes WRPERR at most, and that only under
LOCKED_WRITE_RAISES; ARR_WR_BUSY raises UB_ARRAY_WRITE_WHILE_BUSY and has no other effect. That pc goes
to the next item after it is DEDUCED (log entry 16). -/
def Obligations.ArrayWritesThatStartNothing : Prop :=
  ∀ (s : State) (a d : Word), s.cfg.inFlash a = true →
    (s.op = .idle → (s.pecr.pelock = true ∨ s.pecr.prglock = true) →
      exec (.arrWrLocked a d) s = .next { s with
        pc := s.pc + 1, err := if s.cfg.lockedWriteRaises = true then s.err ||| 0x00000100#32 else s.err }) ∧
    (∀ op, s.op = .busy op → exec (.arrWrBusy a d) s =
      .next { s with pc := s.pc + 1, ubFault := true, reasons := s.reasons ++ [.ub .arrayWriteWhileBusy] })

/-- R73: ARR_WR_WORD. That pc goes to the next item after a raised code is DEDUCED (log entry 16). -/
def Obligations.WordProgramStarts : Prop :=
  ∀ (s : State) (a d : Word), s.cfg.inFlash a = true → s.op = .idle → s.pecr.pelock = false → s.pecr.prglock = false →
    s.pecr.erase = false → s.pecr.fprg = false →
    (a.toNat % 4 = 0 → exec (.arrWrWord a d) s = .next { s with pc := s.pc + 1, op := .busy (.word a d) }) ∧
    (a.toNat % 4 ≠ 0 → exec (.arrWrWord a d) s =
      .next { s with pc := s.pc + 1, ubFault := true, reasons := s.reasons ++ [.ub .misalignedWord] })

/-- R74: ARR_WR_ERASE. The data is ignored. That pc goes to the next item after a raised code is DEDUCED (log entry
16). -/
def Obligations.PageEraseStarts : Prop :=
  ∀ (s : State) (a d : Word), s.cfg.inFlash a = true → s.op = .idle → s.pecr.pelock = false → s.pecr.prglock = false →
    s.pecr.prog = true → s.pecr.erase = true → s.pecr.fprg = false →
    (a.toNat % s.cfg.pageBytes = 0 → exec (.arrWrErase a d) s = .next { s with pc := s.pc + 1, op := .busy (.erase a) }) ∧
    (a.toNat % s.cfg.pageBytes ≠ 0 → exec (.arrWrErase a d) s =
      .next { s with pc := s.pc + 1, ubFault := true, reasons := s.reasons ++ [.ub .misalignedErase] })

/-- R75: ARR_WR_HP_FIRST, alignment before the interrupt mask (R100). That pc goes to the next item after a raised
code is DEDUCED (log entry 16). -/
def Obligations.BurstStarts : Prop :=
  ∀ (s : State) (a d : Word), s.cfg.inFlash a = true → s.op = .idle → s.pecr.pelock = false → s.pecr.prglock = false →
    s.pecr.prog = true → s.pecr.erase = false → s.pecr.fprg = true →
    (a.toNat % s.cfg.halfBytes ≠ 0 → exec (.arrWrHpFirst a d) s =
      .next { s with pc := s.pc + 1, ubFault := true, reasons := s.reasons ++ [.ub .misalignedHalf] }) ∧
    (a.toNat % s.cfg.halfBytes = 0 → s.primask = false → exec (.arrWrHpFirst a d) s =
      .next { s with pc := s.pc + 1, ubFault := true, reasons := s.reasons ++ [.ub .hpIrqEnabled] }) ∧
    (a.toNat % s.cfg.halfBytes = 0 → s.primask = true → exec (.arrWrHpFirst a d) s =
      .next { s with pc := s.pc + 1, op := if s.cfg.n = 1 then .busy (.half a [d]) else .hpFill a [d] })

/-- R76: ARR_WR_HP_NEXT: the word lands by the count of words received, not by the write's address. That pc goes to the
next item after a raised code is DEDUCED (log entry 16). That the window's end is a natural number is a DESIGN CHOICE
(log entry 29): it shows where the half-page ends at 2^32. -/
def Obligations.BurstGoesOn : Prop :=
  ∀ (s : State) (base a d : Word) (buf : List Word), s.cfg.inFlash a = true → s.op = .hpFill base buf →
    (¬(base.toNat ≤ a.toNat ∧ a.toNat < base.toNat + s.cfg.halfBytes) → exec (.arrWrHpNext a d) s =
      .next { s with pc := s.pc + 1, ubFault := true, reasons := s.reasons ++ [.ub .hpAddr] }) ∧
    (base.toNat ≤ a.toNat ∧ a.toNat < base.toNat + s.cfg.halfBytes → s.primask = false → exec (.arrWrHpNext a d) s =
      .next { s with pc := s.pc + 1, ubFault := true, reasons := s.reasons ++ [.ub .hpIrqEnabled] }) ∧
    (base.toNat ≤ a.toNat ∧ a.toNat < base.toNat + s.cfg.halfBytes → s.primask = true → exec (.arrWrHpNext a d) s =
      .next { s with
        pc := s.pc + 1
        op := if buf.length + 1 = s.cfg.n then .busy (.half base (buf ++ [d])) else .hpFill base (buf ++ [d]) })

/-- R34, R37, R80: an aligned array read that R38 lets go on gives the array's bytes, little-endian, zero-extended, and
changes nothing but the temporary. -/
def Obligations.ArrayReadsAreLittleEndian : Prop :=
  ∀ (s : State) (a : Word) (x : Temp), s.cfg.wf = true → s.cfg.inFlash a = true → s.readGate a = .go →
    let byte (k : Nat) := Memory.readByte s.mem (a.toNat + k)
    exec (.rdArrB a x) s = .next { s.writeTemp x ((byte 0).setWidth 32) with pc := s.pc + 1 } ∧
    (a.toNat % 2 = 0 → exec (.rdArrH a x) s =
      .next { s.writeTemp x ((byte 1 ++ byte 0).setWidth 32) with pc := s.pc + 1 }) ∧
    (a.toNat % 4 = 0 → exec (.rdArrW a x) s =
      .next { s.writeTemp x ((byte 3 ++ byte 2 ++ byte 1 ++ byte 0).setWidth 32) with pc := s.pc + 1 })

/-- R36, R38, R80, R100: the checks of an array read, in their order. A misaligned read is refused, whatever is pending.
An aligned one while an operation is pending goes by the bank of its target: another bank is read at once, the bank of
an erase or word program holds the CPU (it waits, and nothing changes), the bank of a burst is UB_PLACEMENT. That `exec`
answers the same state in a hold is the model's choice (log entry 23); that pc goes to the next item after a raised code
is DEDUCED (log entry 16). -/
def Obligations.ArrayReadChecksInOrder : Prop :=
  ∀ (s : State) (a : Word) (x : Temp), s.cfg.inFlash a = true →
    let refused : Host.Outcome State Fault Refusal :=
      .next { s with pc := s.pc + 1, refused := true, reasons := s.reasons ++ [.ref .misalignedRead] }
    (a.toNat % 2 ≠ 0 → exec (.rdArrH a x) s = refused) ∧
    (a.toNat % 4 ≠ 0 → exec (.rdArrW a x) s = refused) ∧
    (s.op = .idle → s.readGate a = .go) ∧
    (∀ b buf, s.op = .hpFill b buf ∨ s.op = .busy (.half b buf) →
      (s.cfg.bank a ≠ s.cfg.bank b → s.readGate a = .go) ∧
      (s.cfg.bank a = s.cfg.bank b → ∀ i, i = .rdArrB a x ∨ (i = .rdArrH a x ∧ a.toNat % 2 = 0) ∨
          (i = .rdArrW a x ∧ a.toNat % 4 = 0) → exec i s =
        .next { s with pc := s.pc + 1, ubFault := true, reasons := s.reasons ++ [.ub .placement] })) ∧
    (∀ op, s.op = .busy op → (∀ b buf, op ≠ .half b buf) →
      (s.cfg.bank a ≠ s.cfg.bank op.addr → s.readGate a = .go) ∧
      (s.cfg.bank a = s.cfg.bank op.addr → ∀ i, i = .rdArrB a x ∨ (i = .rdArrH a x ∧ a.toNat % 2 = 0) ∨
          (i = .rdArrW a x ∧ a.toNat % 4 = 0) → s.instrHeld i = true ∧ exec i s = .next s))

/-- R79, R38: LDBUF: the range check, the RAM word, and a buffer in the flash array as an array read with that read's
checks. That a buffer word in the flash array is checked for alignment as a read is (log entry 22), that `exec` answers
the same state in a hold (log entry 23), and that pc goes to the next item after a raised code (log entry 16) are the
model's. -/
def Obligations.SourceBufferLoad : Prop :=
  ∀ (s : State) (i : Nat) (x : Temp),
    (s.buf.length ≤ i → exec (.ldbuf i x) s =
      .next { s with pc := s.pc + 1, ubFault := true, reasons := s.reasons ++ [.ub .bufRange] }) ∧
    ∀ v, s.buf[i]? = some v →
      let addr : Word := s.bufBase + BitVec.ofNat 32 (4 * i)
      (s.cfg.inFlash addr = false → exec (.ldbuf i x) s = .next { s.writeTemp x v with pc := s.pc + 1 }) ∧
      (s.cfg.inFlash addr = true → addr.toNat % 4 ≠ 0 → exec (.ldbuf i x) s =
        .next { s with pc := s.pc + 1, refused := true, reasons := s.reasons ++ [.ref .misalignedRead] }) ∧
      (s.cfg.inFlash addr = true → addr.toNat % 4 = 0 →
        (s.readGate addr = .go →
          exec (.ldbuf i x) s = .next { s.writeTemp x (Memory.readWord s.mem addr) with pc := s.pc + 1 }) ∧
        (s.readGate addr = .placement → exec (.ldbuf i x) s =
          .next { s with pc := s.pc + 1, ubFault := true, reasons := s.reasons ++ [.ub .placement] }) ∧
        (s.readGate addr = .hold → s.instrHeld (.ldbuf i x) = true ∧ exec (.ldbuf i x) s = .next s))

/-! ## CPU operations and the interrupt controller -/

/-- R85: CPSID i. Nothing else changes, so a pending interrupt stays pending. -/
def Obligations.MaskInterrupts : Prop :=
  ∀ s : State,
    decode s.cfg s.arrForm (.cpu 0xB672#16) = .ok .cpsid ∧
    exec .cpsid s = .next { s with pc := s.pc + 1, primask := true }

/-- R86: CPSIE i. With a pending and enabled interrupt, the very next CPU step after it is the interrupt entry. -/
def Obligations.UnmaskInterrupts : Prop :=
  ∀ s : State,
    decode s.cfg s.arrForm (.cpu 0xB662#16) = .ok .cpsie ∧
    exec .cpsie s = .next { s with pc := s.pc + 1, primask := false } ∧
    (s.irqPending = true → s.irqEn = true → s.inHandler = false → s.halted = false →
      ∀ u, exec .cpsie s = .next u → u.latch.cpuStep = .entry)

/-- R90: HALT. -/
def Obligations.HaltStopsTheCpu : Prop :=
  ∀ (s : State),
    decode s.cfg s.arrForm (.cpu 0xE7FE#16) = .ok .halt ∧
    exec .halt s = .next { s with halted := true } ∧
    (∀ u, exec .halt s = .next u → u.entryEnabled = false ∧ u.cpuStep.ready = false)

/-- R87: WR_NVIC_IPR: irq_prio takes the top PRIO_BITS bits of the line's priority byte. -/
def Obligations.PriorityWrite : Prop :=
  ∀ (s : State) (d : Word), s.cfg.wf = true →
    (∀ t, decode s.cfg s.arrForm (.bus (busWord true 2#2 s.cfg.nvicIpr d) t) = .ok (.wrNvicIpr d)) ∧
    ∃ p : BitVec 8, exec (.wrNvicIpr d) s = .next { s with pc := s.pc + 1, irqPrio := p } ∧
      ∀ k < 8, p.getLsbD k =
        (decide (k < s.cfg.prioBits) && d.getLsbD (s.cfg.iprShift + 8 - s.cfg.prioBits + k))

/-- R88: WR_NVIC_ISER: only the flash line's bit, and it only ever enables. That pc goes to the next item after
the refusal is DEDUCED (log entry 16). -/
def Obligations.LineEnableWrite : Prop :=
  ∀ (s : State) (d : Word), s.cfg.wf = true →
    (∀ t, decode s.cfg s.arrForm (.bus (busWord true 2#2 s.cfg.nvicIser d) t) = .ok (.wrNvicIser d)) ∧
    ((∃ k < 32, k ≠ s.cfg.flashIrq ∧ d.getLsbD k = true) → exec (.wrNvicIser d) s =
      .next { s with pc := s.pc + 1, refused := true, reasons := s.reasons ++ [.ref .otherIrq] }) ∧
    ((∀ k < 32, k ≠ s.cfg.flashIrq → d.getLsbD k = false) → exec (.wrNvicIser d) s =
      .next { s with pc := s.pc + 1, irqEn := s.irqEn || d.getLsbD s.cfg.flashIrq })

/-- R48: BRNZ. -/
def Obligations.BranchOnATemporary : Prop :=
  ∀ (s : State) (x : Temp) (mask : Word) (label : Nat),
    (s.readTemp x &&& mask ≠ 0#32 → exec (.brnz x mask label) s = .next { s with pc := label }) ∧
    (s.readTemp x &&& mask = 0#32 → exec (.brnz x mask label) s = .next { s with pc := s.pc + 1 })

/-- R50: POLL reads its target once and runs again until `(t & mask) = val`; the value read is SR's, PECR's, 0 for a key
port, or an array word's, with the checks of an array read. A read that the decoder refuses, or that raises, has no
effect but the code. That t is the sequence's own temporary (log entry 13), that `exec` answers the same state in a hold
(log entry 23) and that a POLL stays at its item after a raised code (log entry 16) are the model's choice. -/
def Obligations.PollRepeatsUntilTheCondition : Prop :=
  ∀ (s : State) (g : Target) (mask val : Word), s.cfg.wf = true →
    let a := s.evalTarget g
    let next (v : Word) : Nat := if v &&& mask = val then s.pc + 1 else s.pc
    (a = s.cfg.flashRBase + s.cfg.offSr → exec (.poll g mask val) s = .next { s with
      seqT := s.srWord s.nextDraw, draws := s.draws.tail, drawCount := s.drawCount + 1
      pc := next (s.srWord s.nextDraw) }) ∧
    (a = s.cfg.flashRBase + s.cfg.offPecr → exec (.poll g mask val) s =
      .next { s with seqT := s.pecr.toWord, pc := next s.pecr.toWord }) ∧
    (a = s.cfg.flashRBase + s.cfg.offPekeyr ∨ a = s.cfg.flashRBase + s.cfg.offPrgkeyr → exec (.poll g mask val) s =
      .next { s with seqT := 0#32, pc := next 0#32 }) ∧
    (∀ code, decode s.cfg s.arrForm (.bus (busWord false 2#2 a 0#32) .seqT) = .error code → exec (.poll g mask val) s =
      .next { s with refused := true, reasons := s.reasons ++ [.ref code] }) ∧
    (s.cfg.inFlash a = true → a.toNat % 4 ≠ 0 → exec (.poll g mask val) s =
      .next { s with refused := true, reasons := s.reasons ++ [.ref .misalignedRead] }) ∧
    (s.cfg.inFlash a = true → a.toNat % 4 = 0 →
      (s.readGate a = .go → exec (.poll g mask val) s =
        .next { s with seqT := Memory.readWord s.mem a, pc := next (Memory.readWord s.mem a) }) ∧
      (s.readGate a = .placement → exec (.poll g mask val) s =
        .next { s with ubFault := true, reasons := s.reasons ++ [.ub .placement] }) ∧
      (s.readGate a = .hold → s.instrHeld (.poll g mask val) = true ∧ exec (.poll g mask val) s = .next s))

/-- R89: ENTRY, when it is enabled and the CPU moves; the step's latch follows it (R84, log entry 20). That it is
taken also where the item at pc would hold is DEDUCED (log entry 21). That a discarded
temporary reads 0 is the model's choice (log entry 9). -/
def Obligations.InterruptEntry : Prop :=
  ∀ (s : State) (rest : List Input),
    s.inputs = .cpu :: rest → s.irqPending = true → s.irqEn = true → s.primask = false → s.inHandler = false →
    s.halted = false →
    step s = .next { s with
      inHandler := true, irqPending := s.flashLine, pc := 0, temps := [], seqT := 0#32, seqT2 := 0#32, inputs := rest
      prog := { base := s.cfg.handlerBase, bytes := s.cfg.handlerBytes, items := faultHandlerItems } }

/-- R89, R91, R102: from an enabled ENTRY, three CPU steps take the interrupt, clear the error bits and halt; the locks,
the mode bits, primask, EOP and the array are as they were at entry. That ENTRY is taken also where the interrupted item
would hold is DEDUCED (log entry 21). -/
def Obligations.FaultHandlerClearsErrorsAndHalts : Prop :=
  ∀ (s : State) (rest : List Input),
    s.cfg.wf = true → s.cfg.inFlash s.cfg.handlerBase = false ∨ s.op = .idle →
    s.inputs = .cpu :: .cpu :: .cpu :: rest → s.entryEnabled = true →
    ∃ t, Host.Core.run Sys2Proof.core 3 s = .next t ∧
      t.halted = true ∧ t.inHandler = true ∧ t.err &&& 0x00032F00#32 = 0#32 ∧
      t.pecr = s.pecr ∧ t.primask = s.primask ∧ t.eop = s.eop ∧ t.op = s.op ∧ t.mem = s.mem ∧
      t.peSeq = s.peSeq ∧ t.prgSeq = s.prgSeq ∧ t.reasons = s.reasons ∧ t.inputs = rest

/-! ## Pseudo-instructions -/

/-- R55, R61 to R64, R70, R79, R81 to R83, R91 to R93: the items of each pseudo-instruction, written out, and its
execution: that of the first of them in the program in which the items stand in its place. That a step of the
pseudo-instruction is its first item's step in the expanded program is DEDUCED (log entry 15); that the t and t2 of a
sequence are temporaries of its own is a DESIGN CHOICE (log entry 13). -/
def Obligations.SequencesRunTheirFirstItem : Prop :=
  ∀ s : State,
    let wr (r : RegName) (x : Expr) : Item := .wr (.reg r) x
    let poll (mask val : Word) : Item := .code (.sym (.poll (.reg .sr) mask val))
    let readPecr : Item := .rd .word (.reg .pecr) .seqT
    let t : Expr := .temp .seqT
    let pelock : Expr := .imm 0x00000001#32
    let prglock : Expr := .imm 0x00000002#32
    let prog : Expr := .imm 0x00000008#32
    let erase : Expr := .imm 0x00000200#32
    let fprg : Expr := .imm 0x00000400#32
    let eopie : Expr := .imm 0x00010000#32
    let errie : Expr := .imm 0x00020000#32
    let keysPe : List Item := [wr .pekeyr (.imm s.cfg.keyPe1), wr .pekeyr (.imm s.cfg.keyPe2)]
    let keysPrg : List Item := [wr .prgkeyr (.imm s.cfg.keyPrg1), wr .prgkeyr (.imm s.cfg.keyPrg2)]
    let release : List Item := [readPecr, wr .pecr (.or (.or t prglock) pelock)]
    let wait : List Item := [poll 0x00000001#32 0#32, poll 0x00000002#32 0x00000002#32, wr .sr (.imm 0x00000002#32)]
    let prio (p : Word) : Word :=
      BitVec.ofNat 32 (p.toNat % 2 ^ s.cfg.prioBits) <<< (s.cfg.iprShift + 8 - s.cfg.prioBits)
    let runs (i : Instr) (items : List Item) (first : Instr) : Prop :=
      expansion s.cfg i = items ∧
      ∃ u, exec i s = .next u ∧
        exec first { s with prog := { s.prog with items := expandAt s.pc items s.prog.items } } = .next u ∧
        ∀ k < items.length, s.pc < s.prog.items.length →
          u.prog.items[s.pc + k]? = (items[k]?).map (Item.relabel s.pc items.length)
    runs .acquirePe keysPe (.wrPekeyr s.cfg.keyPe1) ∧
    runs .acquirePrg keysPrg (.wrPrgkeyr s.cfg.keyPrg1) ∧
    (∀ l, runs (.acquireChecked .dataScope l)
      (keysPe ++ [readPecr, .code (.sym (.brnz .seqT 0x00000001#32 l))]) (.wrPekeyr s.cfg.keyPe1)) ∧
    (∀ l, runs (.acquireChecked .programScope l)
      (keysPrg ++ [readPecr, .code (.sym (.brnz .seqT 0x00000002#32 l))]) (.wrPrgkeyr s.cfg.keyPrg1)) ∧
    runs .release release (.rdPecr .seqT) ∧
    runs .waitDone wait (.poll (.reg .sr) 0x00000001#32 0#32) ∧
    (∀ a, runs (.erasePage a)
      (keysPe ++ keysPrg ++ [readPecr, wr .pecr (.or (.or t prog) erase), .wr (.addr (.imm a)) (.imm 0#32)] ++ wait ++
        [readPecr, wr .pecr (.and t (.not (.or erase prog)))] ++ release) (.wrPekeyr s.cfg.keyPe1)) ∧
    (∀ a v, runs (.programWord a v)
      (keysPe ++ keysPrg ++ [.wr (.addr (.imm a)) (.imm v)] ++ wait ++ release) (.wrPekeyr s.cfg.keyPe1)) ∧
    (∀ b p h, runs (.programHalf b p h)
      (keysPe ++ keysPrg ++ [readPecr, wr .pecr (.or (.or t prog) fprg), .code (.cpu 0xB672#16)] ++
        (List.range s.cfg.n).flatMap (fun i =>
          [.code (.sym (.ldbuf (p.toNat * (2 * s.cfg.n) + h.toNat * s.cfg.n + i) .seqT2)),
           .wr (.addr (.imm b)) (.temp .seqT2)]) ++
        wait ++ [readPecr, wr .pecr (.and t (.not (.or fprg prog)))] ++ release ++ [.code (.cpu 0xB662#16)])
      (.wrPekeyr s.cfg.keyPe1)) ∧
    runs .init
      (keysPe ++ [readPecr, wr .pecr (.or (.and t (.not (.or (.or (.or prog erase) fprg) eopie))) errie)] ++ release)
      (.wrPekeyr s.cfg.keyPe1) ∧
    (∀ p, runs (.cfgIrq p) [wr .nvicIpr (.imm (prio p)), wr .nvicIser (.imm (1#32 <<< s.cfg.flashIrq))]
      (.wrNvicIpr (prio p))) ∧
    runs .faultHandler [wr .sr (.imm 0x00032F00#32), .code (.cpu 0xE7FE#16)] (.wrSr 0x00032F00#32)

/-- A step that runs a pseudo-instruction is, to the last field, the step of the program in which its items stand in its
place: macros take no step of their own, which is DEDUCED from R49 and R55 (log entry 15). -/
def Obligations.SequenceStepsAsItsExpansion : Prop :=
  ∀ (s : State) (i : Instr) (rest : List Input),
    s.cfg.wf = true → s.inputs = .cpu :: rest → s.cpuStep = .run i → expansion s.cfg i ≠ [] →
    step s = step { s with prog := { s.prog with items := expandAt s.pc (expansion s.cfg i) s.prog.items } }

/-- R92: INIT from a locked controller with pe_seq = K0 leaves mode WORD, ERRIE = 1, EOPIE = 0 and both locks set, so a
second INIT leaves the same PECR. No interrupt can be taken meanwhile. That its items are steps of the program is
DEDUCED (log entry 15). -/
def Obligations.InitSetsTheDefaults : Prop :=
  ∀ (s : State) (rest : List Input),
    s.Inv → s.halted = false → s.op = .idle → s.pecr.pelock = true → s.peSeq = .k0 →
    (s.primask = true ∨ s.irqEn = false ∨ s.inHandler = true) →
    s.prog.items[s.pc]? = some (.code (.sym .init)) → s.inputs = List.replicate 6 .cpu ++ rest →
    ∃ t, Host.Core.run Sys2Proof.core 6 s = .next t ∧ t.pc = s.pc + 6 ∧ t.inputs = rest ∧
      t.pecr = { pelock := true, prglock := true, prog := false, erase := false, fprg := false
                 eopie := false, errie := true } ∧
      t.peSeq = .k0 ∧ t.op = .idle ∧ t.mem = s.mem ∧ t.eop = s.eop ∧ t.err = s.err ∧
      t.ubFault = s.ubFault ∧ t.refused = s.refused ∧ t.reasons = s.reasons

/-- R82, with the source's E2 and E3: PROGRAM_WORD a, v run to its end, its completion falling right after the array
write with no error drawn: the word is combined with v, no other byte changes, both locks are set again, EOP = 0. That
its items are steps of the program is DEDUCED (log entry 15). That the items after COMPLETE still run where the target
lies in the program's own code region is a DESIGN CHOICE (log entry 31). -/
def Obligations.ProgramWordStoresTheWord : Prop :=
  ∀ (s : State) (rest : List Input) (a v : Word),
    s.Inv → s.halted = false → s.op = .idle → s.mode = .word →
    s.pecr.pelock = true → s.peSeq = .k0 → s.prgSeq = .k0 →
    (s.primask = true ∨ s.irqEn = false ∨ s.inHandler = true) →
    s.cfg.inFlash a = true → a.toNat % 4 = 0 → a.toNat ∉ s.cfg.protectedWords → s.nextDraw &&& 0x00032E00#32 = 0#32 →
    s.prog.items[s.pc]? = some (.code (.sym (.programWord a v))) →
    s.inputs = List.replicate 5 .cpu ++ .complete :: (List.replicate 5 .cpu ++ rest) →
    ∃ t, Host.Core.run Sys2Proof.core 11 s = .next t ∧ t.pc = s.pc + 10 ∧ t.inputs = rest ∧
      Memory.readWord t.mem a =
        (if Memory.readWord s.mem a = s.cfg.erasedWord then v else Memory.readWord s.mem a ||| v) ∧
      (∀ b, (b < a.toNat ∨ a.toNat + 4 ≤ b) → Memory.readByte t.mem b = Memory.readByte s.mem b) ∧
      t.pecr = s.pecr ∧ t.peSeq = .k0 ∧ t.prgSeq = .k0 ∧
      t.op = .idle ∧ t.eop = false ∧ t.err = s.err ∧ t.reasons = s.reasons

/-- R81, with the source's E1: ERASE_PAGE a run to its end, its completion falling right after the array write with no
error drawn and nothing protected: every word of the page reads ERASED_WORD, no byte outside the page changes, the mode
is WORD again and both locks are set. That its items are steps of the program is DEDUCED (log entry 15). That the items
after COMPLETE still run where the target lies in the program's own code region is a DESIGN CHOICE (log entry 31). -/
def Obligations.ErasePageErasesThePage : Prop :=
  ∀ (s : State) (rest : List Input) (a : Word),
    s.Inv → s.halted = false → s.op = .idle → s.mode = .word →
    s.pecr.pelock = true → s.peSeq = .k0 → s.prgSeq = .k0 →
    (s.primask = true ∨ s.irqEn = false ∨ s.inHandler = true) →
    s.cfg.inFlash a = true → a.toNat % s.cfg.pageBytes = 0 → s.nextDraw &&& 0x00032E00#32 = 0#32 →
    (∀ j < s.cfg.pageWords, (a + BitVec.ofNat 32 (4 * j)).toNat ∉ s.cfg.protectedWords) →
    s.prog.items[s.pc]? = some (.code (.sym (.erasePage a))) →
    s.inputs = List.replicate 7 .cpu ++ .complete :: (List.replicate 7 .cpu ++ rest) →
    ∃ t, Host.Core.run Sys2Proof.core 15 s = .next t ∧ t.pc = s.pc + 14 ∧ t.inputs = rest ∧
      (∀ j < s.cfg.pageWords, Memory.readWord t.mem (a + BitVec.ofNat 32 (4 * j)) = s.cfg.erasedWord) ∧
      (∀ b, (b < a.toNat ∨ a.toNat + s.cfg.pageBytes ≤ b) → Memory.readByte t.mem b = Memory.readByte s.mem b) ∧
      t.pecr = { s.pecr with prog := false } ∧ t.peSeq = .k0 ∧ t.prgSeq = .k0 ∧
      t.op = .idle ∧ t.eop = false ∧ t.err = s.err ∧ t.reasons = s.reasons

/-! ## Reset -/

/-- R31, R113: the values the spec gives the state at first power-up. -/
def Obligations.PowerUpState : Prop :=
  State.reset.pecr.toWord = 0x00000003#32 ∧ State.reset.mode = .word ∧ State.reset.bsy = false ∧
  State.reset.eop = false ∧ State.reset.err = 0#32 ∧ State.reset.peSeq = .k0 ∧ State.reset.prgSeq = .k0 ∧
  State.reset.op = .idle ∧ State.reset.primask = false ∧ State.reset.irqEn = false ∧ State.reset.irqPrio = 0#8 ∧
  State.reset.irqPending = false ∧ State.reset.inHandler = false ∧ State.reset.halted = false ∧
  State.reset.ubFault = false ∧ State.reset.refused = false ∧ State.reset.reasons = [] ∧
  State.reset.prog = State.reset.boot ∧ State.reset.pc = 0

/-- R111, R112: RESET, from every state: the stated values, the model flags kept, and of the array only the words of an
interrupted BUSY operation whose target holds no protected word. That a discarded temporary reads 0 is the model's
choice (log entry 9). -/
def Obligations.ResetStep : Prop :=
  ∀ (s : State) (rest : List Input), Memory.wf s.mem = true → s.inputs = .reset :: rest →
    ∃ t, step s = .next t ∧
      t = { s with
        mem := t.mem, draws := t.draws, drawCount := t.drawCount, inputs := rest
        pecr := { pelock := true, prglock := true, prog := false, erase := false, fprg := false
                  eopie := false, errie := false }
        eop := false, err := 0#32, peSeq := .k0, prgSeq := .k0, op := .idle
        primask := false, irqEn := false, irqPrio := 0#8, irqPending := false, inHandler := false, halted := false
        prog := s.boot, pc := 0, temps := [], seqT := 0#32, seqT2 := 0#32 } ∧
      (s.completeEnabled = false → t.mem = s.mem) ∧
      (∀ op, s.op = .busy op →
        ((op.target s.cfg).any (fun w => s.cfg.protectedWords.contains w.toNat) = true → t.mem = s.mem) ∧
        ∀ b, (∀ w ∈ op.target s.cfg, b < w.toNat ∨ w.toNat + 4 ≤ b) →
          Memory.readByte t.mem b = Memory.readByte s.mem b)

/-! ## Invariants -/

/-- The invariant holds at reset, and no line is high. -/
def Obligations.ResetMeetsTheInvariant : Prop := State.reset.Inv ∧ State.reset.latched

/-- R21, R22, R24, R17, R20, R26 and the rest of `State.Inv`: every step of every agent keeps it. -/
def Obligations.EveryStepKeepsTheInvariant : Prop :=
  ∀ s t : State, s.Inv → step s = .next t → t.Inv

/-- R84, R89, R111: after every step of any agent a high line has latched irq_pending; and only ENTRY, from a state in
which it is enabled, or RESET clears it. That the latch also follows ENTRY, so that a line still high sets irq_pending
again in that step, is DEDUCED (log entry 20). -/
def Obligations.PendingBitLatchesTheLine : Prop :=
  ∀ s t : State, step s = .next t →
    t.latched ∧
    (s.irqPending = true → t.irqPending = false →
      (s.entryEnabled = true ∧ t.inHandler = true ∧ t.pc = 0 ∧ t.prog.items = faultHandlerItems) ∨
      (t.pecr = Pecr.reset ∧ t.op = .idle ∧ t.halted = false ∧ t.inHandler = false ∧ t.prog = s.boot ∧ t.pc = 0))

/-! ## Rules of the whole machine -/

/-- R25, R71: no instruction changes a byte of the array, or the parameters, the source buffer, the boot program, the
order of the agents, irq_pending, or in_handler. -/
def Obligations.InstructionFrame : Prop :=
  ∀ (i : Instr) (s t : State), exec i s = .next t →
    (∀ a, Memory.readByte t.mem a = Memory.readByte s.mem a) ∧
    t.cfg = s.cfg ∧ t.bufBase = s.bufBase ∧ t.buf = s.buf ∧ t.boot = s.boot ∧ t.inputs = s.inputs ∧
    t.turnCount = s.turnCount ∧ t.irqPending = s.irqPending ∧ t.inHandler = s.inHandler

/-- R25: only COMPLETE and RESET write the array, and only bytes of the pending operation's target. -/
def Obligations.ArrayChangesOnlyUnderAPendingOperation : Prop :=
  ∀ (s t : State) (b : Nat), Memory.wf s.mem = true → step s = .next t →
    Memory.readByte t.mem b ≠ Memory.readByte s.mem b →
    ∃ op, s.op = .busy op ∧ t.op = .idle ∧ ∃ w ∈ op.target s.cfg, w.toNat ≤ b ∧ b < w.toNat + 4

/-- R15, R20, R56, R57: a lock flag clears only in a step that runs a write of the second key to its own key port (or a
sequence that begins with such a write) while the sequencer is K1, that is after the first key; PRGLOCK only while
PELOCK = 0. -/
def Obligations.LocksClearOnlyByTheirKeys : Prop :=
  ∀ s t : State, step s = .next t →
    (s.pecr.pelock = true → t.pecr.pelock = false →
      s.peSeq = .k1 ∧ t.peSeq = .k0 ∧ t.pecr.prglock = s.pecr.prglock ∧
      ∃ i, s.cpuStep = .run i ∧
        (i = .wrPekeyr s.cfg.keyPe2 ∨ (expansion s.cfg i).head? = some (.wr (.reg .pekeyr) (.imm s.cfg.keyPe2)))) ∧
    (s.pecr.prglock = true → t.pecr.prglock = false →
      s.prgSeq = .k1 ∧ t.prgSeq = .k0 ∧ s.pecr.pelock = false ∧
      ∃ i, s.cpuStep = .run i ∧
        (i = .wrPrgkeyr s.cfg.keyPrg2 ∨ (expansion s.cfg i).head? = some (.wr (.reg .prgkeyr) (.imm s.cfg.keyPrg2))))

/-- R22, R59, R68, R76, R120: while an operation is BUSY or a burst is filling, PECR does not change but by RESET; a
BUSY operation stays as it is until COMPLETE or RESET ends it, and a fill only gains words. -/
def Obligations.PendingOperationHoldsTheController : Prop :=
  ∀ s t : State, s.Inv → step s = .next t →
    (∀ op, s.op = .busy op →
      (t.op = .busy op ∧ t.pecr = s.pecr) ∨
      (t.op = .idle ∧ ((t.pecr = s.pecr ∧ (t.eop = true ∨ t.err ≠ 0#32)) ∨ t.pecr = Pecr.reset))) ∧
    (∀ b buf, s.op = .hpFill b buf →
      (t.pecr = s.pecr ∧
        (t.op = .hpFill b buf ∨
          ∃ d, t.op = if buf.length + 1 = s.cfg.n then .busy (.half b (buf ++ [d])) else .hpFill b (buf ++ [d]))) ∨
      (t.op = .idle ∧ t.pecr = Pecr.reset ∧ t.mem = s.mem))

/-- R30: EOP and the error bits are set only by COMPLETE, but for WRPERR by an array write with a lock set
when LOCKED_WRITE_RAISES. -/
def Obligations.StatusFlagsSetOnlyByCompletion : Prop :=
  ∀ s t : State, step s = .next t →
    (s.eop = false → t.eop = true → s.completeEnabled = true ∧ t.op = .idle) ∧
    (∀ k, s.err.getLsbD k = false → t.err.getLsbD k = true →
      (s.completeEnabled = true ∧ t.op = .idle) ∨
      (k = 8 ∧ s.cfg.lockedWriteRaises = true ∧ s.op = .idle ∧ s.unlocked = false))

/-- R11, R12, R27, R100: the model flags are sticky, RESET included, and a step appends at most one code. -/
def Obligations.OutcomeFlagsAreSticky : Prop :=
  ∀ s t : State, step s = .next t →
    (s.ubFault = true → t.ubFault = true) ∧ (s.refused = true → t.refused = true) ∧
    (t.reasons = s.reasons ∨ ∃ r, t.reasons = s.reasons ++ [r])

/-- R90, R99, R101, R103: only RESET clears irq_en, in_handler and halted, so nothing returns from the handler; and a
halted CPU makes no step: while it stays halted only COMPLETE runs. -/
def Obligations.OnlyResetLeavesTheFaultPath : Prop :=
  ∀ s t : State, step s = .next t →
    ((s.irqEn = true ∧ t.irqEn = false) ∨ (s.inHandler = true ∧ t.inHandler = false) ∨
        (s.halted = true ∧ t.halted = false) →
      t.pecr = Pecr.reset ∧ t.op = .idle ∧ t.halted = false ∧ t.inHandler = false ∧ t.prog = s.boot ∧ t.pc = 0) ∧
    (s.halted = true → t.halted = true →
      s.completeEnabled = true ∧ t.op = .idle ∧ t.pc = s.pc ∧ t.prog = s.prog ∧ t.pecr = s.pecr ∧
      t.ubFault = s.ubFault ∧ t.refused = s.refused ∧ t.reasons = s.reasons ∧ ∀ x, t.readTemp x = s.readTemp x)

/-- R89, R103: in_handler rises only by ENTRY, from a state in which all five conditions hold, and ENTRY changes
neither PECR, SR, op_state, primask nor the array. -/
def Obligations.EntryOnlyWhenEnabled : Prop :=
  ∀ s t : State, step s = .next t → s.inHandler = false → t.inHandler = true →
    s.irqPending = true ∧ s.irqEn = true ∧ s.primask = false ∧ s.halted = false ∧
    t.prog.items = faultHandlerItems ∧ t.prog.base = s.cfg.handlerBase ∧ t.pc = 0 ∧
    t.pecr = s.pecr ∧ t.eop = s.eop ∧ t.err = s.err ∧ t.op = s.op ∧ t.primask = s.primask ∧ t.mem = s.mem

/-- R69, R101, R123: COMPLETE may never fire. A CPU that polls for BSY = 0 with no interrupt to take has a run in which
it polls for ever and the operation stays BUSY: COMPLETION_FAIR does not hold of that run, and nothing in the model
makes it hold. -/
def Obligations.PendingOperationNeedNeverEnd : Prop :=
  ∀ s : State,
    s.cfg.wf = true → s.halted = false → (s.primask = true ∨ s.irqEn = false ∨ s.inHandler = true) →
    s.fetchGate = .go → s.completeEnabled = true →
    s.prog.items[s.pc]? = some (.code (.sym (.poll (.reg .sr) 0x00000001#32 0#32))) →
    ∃ r : Nat → State, IsRun r ∧ r 0 = s ∧ (∀ k, (r k).op = s.op ∧ (r k).pc = s.pc) ∧ ¬CompletionFair r
end

