-- ==== Sys2Proof/Laws/Encoding.lean ====
section
/-! SUPPORT. The encoding: the fields of a BUS word, the region an address falls in under admissible parameters, and what
the decoder gives for a word written from its fields (R32, R33, R47, R52). -/

namespace Sys2Proof

/-! ## Fields of a BUS word -/

@[simp] theorem busW_busWord (w : Bool) (sz : BitVec 2) (a d : Word) : busW (busWord w sz a d) = w := by
  simp only [busW, busWord, BitVec.getLsbD_append]
  simp

@[simp] theorem busSz_busWord (w : Bool) (sz : BitVec 2) (a d : Word) : busSz (busWord w sz a d) = sz := by
  apply BitVec.eq_of_getLsbD_eq
  intro i hi
  simp only [busSz, busWord, BitVec.getLsbD_extractLsb', BitVec.getLsbD_append, hi, decide_true, Bool.true_and]
  have e1 : ¬(64 + i < 32) := by omega
  have e2 : ¬(64 + i - 32 < 32) := by omega
  have e3 : 64 + i - 32 - 32 < 2 := by omega
  simp only [e1, e2, e3, if_true, if_false]
  congr 1
  omega

@[simp] theorem busA_busWord (w : Bool) (sz : BitVec 2) (a d : Word) : busA (busWord w sz a d) = a := by
  apply BitVec.eq_of_getLsbD_eq
  intro i hi
  simp only [busA, busWord, BitVec.getLsbD_extractLsb', BitVec.getLsbD_append, hi, decide_true, Bool.true_and]
  have e1 : ¬(32 + i < 32) := by omega
  have e2 : 32 + i - 32 < 32 := by omega
  simp only [e1, e2, if_true, if_false]
  congr 1
  omega

@[simp] theorem busD_busWord (w : Bool) (sz : BitVec 2) (a d : Word) : busD (busWord w sz a d) = d := by
  apply BitVec.eq_of_getLsbD_eq
  intro i hi
  simp only [busD, busWord, BitVec.getLsbD_extractLsb', BitVec.getLsbD_append]
  simp [hi]

/-- A BUS word is its four fields: no bit lies outside them. -/
theorem busWord_fields (T : BitVec 67) : busWord (busW T) (busSz T) (busA T) (busD T) = T := by
  apply BitVec.eq_of_getLsbD_eq
  intro i hi
  simp only [busSz, busWord, busA, busD, busW, BitVec.getLsbD_extractLsb', BitVec.getLsbD_append, BitVec.getLsbD_ofBool]
  split
  · next h => simp [h]
  · split
    · next h1 h2 =>
      simp [h2]
      congr 1
      omega
    · split
      · next h1 h2 h3 =>
        simp [h3]
        congr 1
        omega
      · next h1 h2 h3 =>
        have : i = 66 := by omega
        subst this
        simp

/-! ## What admissible parameters give -/

namespace Config

variable {c : Config}

theorem n_pos (h : c.wf = true) : 1 ≤ c.n := by
  simp only [wf, geometryOk, Bool.and_eq_true, decide_eq_true_eq] at h
  exact h.1.1.1.1.1.1.1.1

theorem flashBase_aligned (h : c.wf = true) : c.flashBase.toNat % c.pageBytes = 0 := by
  simp only [wf, geometryOk, Bool.and_eq_true, decide_eq_true_eq] at h
  exact h.1.1.1.1.1.1.1.2

theorem flashBytes_aligned (h : c.wf = true) : c.flashBytes % c.pageBytes = 0 := by
  simp only [wf, geometryOk, Bool.and_eq_true, decide_eq_true_eq] at h
  exact h.1.1.1.1.1.1.2

theorem flash_end_le (h : c.wf = true) : c.flashBase.toNat + c.flashBytes ≤ 2 ^ 32 := by
  simp only [wf, geometryOk, Bool.and_eq_true, decide_eq_true_eq] at h
  exact h.1.1.1.1.1.2

theorem regAddrs_nodup (h : c.wf = true) : c.regAddrs.Nodup := by
  simp only [wf, geometryOk, Bool.and_eq_true, decide_eq_true_eq] at h
  exact h.1.1.1.1.2

theorem regAddrs_ne (h : c.wf = true) :
    c.prgkeyrAddr ≠ c.pekeyrAddr ∧ c.pecrAddr ≠ c.pekeyrAddr ∧ c.srAddr ≠ c.pekeyrAddr ∧
    c.pecrAddr ≠ c.prgkeyrAddr ∧ c.srAddr ≠ c.prgkeyrAddr ∧ c.srAddr ≠ c.pecrAddr := by
  have := regAddrs_nodup h
  simp only [regAddrs, List.nodup_cons, List.mem_cons, not_or] at this
  exact ⟨Ne.symm this.1.1, Ne.symm this.1.2.1, Ne.symm this.1.2.2.1, Ne.symm this.2.1.1, Ne.symm this.2.1.2.1,
    Ne.symm this.2.2.1.1⟩

theorem regAddrs_outside_flash (h : c.wf = true) (a : Word) (ha : a ∈ c.regAddrs) : c.inFlash a = false := by
  simp only [wf, geometryOk, Bool.and_eq_true, List.all_eq_true, Bool.not_eq_true'] at h
  exact (h.1.1.1.2 a ha).2

theorem window_outside_flash (h : c.wf = true) (a : Word) (hf : c.inFlash a = true) : c.inRegWindow a = false := by
  simp only [wf, rangesDisjoint, Bool.and_eq_true, decide_eq_true_eq] at h
  have h1 := h.1.1.2.1.1
  simp only [inFlash, inRegWindow, decide_eq_true_eq, decide_eq_false_iff_not] at *
  omega

theorem nvic_ne (h : c.wf = true) : c.nvicIpr ≠ c.nvicIser := by
  simp only [wf, rangesDisjoint, Bool.and_eq_true, decide_eq_true_eq] at h
  exact h.1.1.2.1.2

theorem nvic_outside (h : c.wf = true) (a : Word) (ha : a ∈ [c.nvicIpr, c.nvicIser]) :
    c.inFlash a = false ∧ c.inRegWindow a = false ∧ a ∉ c.regAddrs := by
  simp only [wf, rangesDisjoint, Bool.and_eq_true, List.all_eq_true, Bool.not_eq_true', List.contains_eq_mem,
    decide_eq_false_iff_not] at h
  exact ⟨(h.1.1.2.2 a ha).1.1, (h.1.1.2.2 a ha).1.2, (h.1.1.2.2 a ha).2⟩

theorem prioBits_le (h : c.wf = true) : c.prioBits ≤ 8 := by
  simp only [wf, irqPlacesOk, Bool.and_eq_true, decide_eq_true_eq] at h
  exact h.1.2.1.1

theorem iprShift_le (h : c.wf = true) : c.iprShift + 8 ≤ 32 := by
  simp only [wf, irqPlacesOk, Bool.and_eq_true, decide_eq_true_eq] at h
  exact h.1.2.1.2

theorem flashIrq_lt (h : c.wf = true) : c.flashIrq < 32 := by
  simp only [wf, irqPlacesOk, Bool.and_eq_true, decide_eq_true_eq] at h
  exact h.1.2.2

theorem handler_region (h : c.wf = true) : c.codeRegionOk c.handlerBase c.handlerBytes = true := by
  simp only [wf, handlerOk, Bool.and_eq_true] at h
  exact h.2

end Config

/-! ## The region of an address -/

/-- What an address of a region satisfies. -/
def Region.holds (c : Config) (a : Word) : Region → Prop
  | .pekeyr => a = c.pekeyrAddr
  | .prgkeyr => a = c.prgkeyrAddr
  | .pecr => a = c.pecrAddr
  | .sr => a = c.srAddr
  | .regWindow => c.inRegWindow a = true
  | .flash => c.inFlash a = true
  | .nvicIpr => a = c.nvicIpr
  | .nvicIser => a = c.nvicIser
  | .unmapped => True

theorem regionOf_holds (c : Config) (a : Word) : (regionOf c a).holds c a := by
  unfold regionOf
  by_cases h1 : a = c.pekeyrAddr
  · rw [if_pos h1]; exact h1
  by_cases h2 : a = c.prgkeyrAddr
  · rw [if_neg h1, if_pos h2]; exact h2
  by_cases h3 : a = c.pecrAddr
  · rw [if_neg h1, if_neg h2, if_pos h3]; exact h3
  by_cases h4 : a = c.srAddr
  · rw [if_neg h1, if_neg h2, if_neg h3, if_pos h4]; exact h4
  rw [if_neg h1, if_neg h2, if_neg h3, if_neg h4]
  by_cases h5 : c.inRegWindow a = true
  · rw [if_pos h5]; exact h5
  rw [if_neg h5]
  by_cases h6 : c.inFlash a = true
  · rw [if_pos h6]; exact h6
  rw [if_neg h6]
  by_cases h7 : a = c.nvicIpr
  · rw [if_pos h7]; exact h7
  rw [if_neg h7]
  by_cases h8 : a = c.nvicIser
  · rw [if_pos h8]; exact h8
  rw [if_neg h8]; trivial

theorem regionOf_pekeyr (c : Config) : regionOf c c.pekeyrAddr = .pekeyr := by simp [regionOf]

variable {c : Config}

theorem regionOf_prgkeyr (h : c.wf = true) : regionOf c c.prgkeyrAddr = .prgkeyr := by
  simp [regionOf, (Config.regAddrs_ne h).1]

theorem regionOf_pecr (h : c.wf = true) : regionOf c c.pecrAddr = .pecr := by
  obtain ⟨-, h1, -, h2, -, -⟩ := Config.regAddrs_ne h
  simp [regionOf, h1, h2]

theorem regionOf_sr (h : c.wf = true) : regionOf c c.srAddr = .sr := by
  obtain ⟨-, -, h1, -, h2, h3⟩ := Config.regAddrs_ne h
  simp [regionOf, h1, h2, h3]

theorem regionOf_flash (h : c.wf = true) (a : Word) (hf : c.inFlash a = true) : regionOf c a = .flash := by
  have hr : ∀ b ∈ c.regAddrs, a ≠ b := fun b hb e => by
    rw [e, Config.regAddrs_outside_flash h b hb] at hf
    simp at hf
  simp only [Config.regAddrs, List.forall_mem_cons] at hr
  simp [regionOf, Config.window_outside_flash h a hf, hf, hr.1, hr.2.1, hr.2.2.1, hr.2.2.2.1]

theorem regionOf_nvicIpr (h : c.wf = true) : regionOf c c.nvicIpr = .nvicIpr := by
  obtain ⟨h1, h2, h3⟩ := Config.nvic_outside h c.nvicIpr (by simp)
  simp only [Config.regAddrs, List.mem_cons, not_or] at h3
  simp [regionOf, h1, h2, h3.1, h3.2.1, h3.2.2.1, h3.2.2.2.1]

theorem regionOf_nvicIser (h : c.wf = true) : regionOf c c.nvicIser = .nvicIser := by
  obtain ⟨h1, h2, h3⟩ := Config.nvic_outside h c.nvicIser (by simp)
  simp only [Config.regAddrs, List.mem_cons, not_or] at h3
  simp [regionOf, h1, h2, h3.1, h3.2.1, h3.2.2.1, h3.2.2.2.1, (Config.nvic_ne h).symm]

/-! ## The decoder on a word written from its fields -/

/-- A word write decodes by its address. -/
theorem decode_wordWrite (c : Config) (form : ArrForm) (a d : Word) (t : Temp) :
    decode c form (.bus (busWord true 2#2 a d) t) = decodeWrite c form 2#2 a d := by
  simp [decode, decodeBus]

/-- A read with D = 0 decodes by its address and size. -/
theorem decode_read (c : Config) (form : ArrForm) (sz : BitVec 2) (a : Word) (t : Temp) (h : sz ≠ 3#2) :
    decode c form (.bus (busWord false sz a 0#32) t) = decodeRead c sz a t := by
  simp [decode, decodeBus, h]

end Sys2Proof
end

