-- ==== Sys2Proof/Laws/State.lean ====
section
/-! SUPPORT. What each named update of the state leaves in each field, so that no later proof unfolds a record update. -/

namespace Sys2Proof.Machine

variable (s : State)

/-! ### `advance` -/

@[simp] theorem State.advance_cfg : s.advance.cfg = s.cfg := rfl
@[simp] theorem State.advance_pecr : s.advance.pecr = s.pecr := rfl
@[simp] theorem State.advance_eop : s.advance.eop = s.eop := rfl
@[simp] theorem State.advance_err : s.advance.err = s.err := rfl
@[simp] theorem State.advance_peSeq : s.advance.peSeq = s.peSeq := rfl
@[simp] theorem State.advance_prgSeq : s.advance.prgSeq = s.prgSeq := rfl
@[simp] theorem State.advance_op : s.advance.op = s.op := rfl
@[simp] theorem State.advance_mem : s.advance.mem = s.mem := rfl
@[simp] theorem State.advance_primask : s.advance.primask = s.primask := rfl
@[simp] theorem State.advance_irqEn : s.advance.irqEn = s.irqEn := rfl
@[simp] theorem State.advance_irqPrio : s.advance.irqPrio = s.irqPrio := rfl
@[simp] theorem State.advance_irqPending : s.advance.irqPending = s.irqPending := rfl
@[simp] theorem State.advance_inHandler : s.advance.inHandler = s.inHandler := rfl
@[simp] theorem State.advance_halted : s.advance.halted = s.halted := rfl
@[simp] theorem State.advance_ubFault : s.advance.ubFault = s.ubFault := rfl
@[simp] theorem State.advance_refused : s.advance.refused = s.refused := rfl
@[simp] theorem State.advance_reasons : s.advance.reasons = s.reasons := rfl
@[simp] theorem State.advance_boot : s.advance.boot = s.boot := rfl
@[simp] theorem State.advance_prog : s.advance.prog = s.prog := rfl
@[simp] theorem State.advance_pc : s.advance.pc = s.pc + 1 := rfl
@[simp] theorem State.advance_temps : s.advance.temps = s.temps := rfl
@[simp] theorem State.advance_seqT : s.advance.seqT = s.seqT := rfl
@[simp] theorem State.advance_seqT2 : s.advance.seqT2 = s.seqT2 := rfl
@[simp] theorem State.advance_bufBase : s.advance.bufBase = s.bufBase := rfl
@[simp] theorem State.advance_buf : s.advance.buf = s.buf := rfl
@[simp] theorem State.advance_inputs : s.advance.inputs = s.inputs := rfl
@[simp] theorem State.advance_turnCount : s.advance.turnCount = s.turnCount := rfl
@[simp] theorem State.advance_draws : s.advance.draws = s.draws := rfl
@[simp] theorem State.advance_drawCount : s.advance.drawCount = s.drawCount := rfl

/-! ### `raiseUb` -/

@[simp] theorem State.raiseUb_cfg (c : UbCode) : (s.raiseUb c).cfg = s.cfg := rfl
@[simp] theorem State.raiseUb_pecr (c : UbCode) : (s.raiseUb c).pecr = s.pecr := rfl
@[simp] theorem State.raiseUb_eop (c : UbCode) : (s.raiseUb c).eop = s.eop := rfl
@[simp] theorem State.raiseUb_err (c : UbCode) : (s.raiseUb c).err = s.err := rfl
@[simp] theorem State.raiseUb_peSeq (c : UbCode) : (s.raiseUb c).peSeq = s.peSeq := rfl
@[simp] theorem State.raiseUb_prgSeq (c : UbCode) : (s.raiseUb c).prgSeq = s.prgSeq := rfl
@[simp] theorem State.raiseUb_op (c : UbCode) : (s.raiseUb c).op = s.op := rfl
@[simp] theorem State.raiseUb_mem (c : UbCode) : (s.raiseUb c).mem = s.mem := rfl
@[simp] theorem State.raiseUb_primask (c : UbCode) : (s.raiseUb c).primask = s.primask := rfl
@[simp] theorem State.raiseUb_irqEn (c : UbCode) : (s.raiseUb c).irqEn = s.irqEn := rfl
@[simp] theorem State.raiseUb_irqPrio (c : UbCode) : (s.raiseUb c).irqPrio = s.irqPrio := rfl
@[simp] theorem State.raiseUb_irqPending (c : UbCode) : (s.raiseUb c).irqPending = s.irqPending := rfl
@[simp] theorem State.raiseUb_inHandler (c : UbCode) : (s.raiseUb c).inHandler = s.inHandler := rfl
@[simp] theorem State.raiseUb_halted (c : UbCode) : (s.raiseUb c).halted = s.halted := rfl
@[simp] theorem State.raiseUb_ubFault (c : UbCode) : (s.raiseUb c).ubFault = true := rfl
@[simp] theorem State.raiseUb_refused (c : UbCode) : (s.raiseUb c).refused = s.refused := rfl
@[simp] theorem State.raiseUb_reasons (c : UbCode) : (s.raiseUb c).reasons = s.reasons ++ [.ub c] := rfl
@[simp] theorem State.raiseUb_boot (c : UbCode) : (s.raiseUb c).boot = s.boot := rfl
@[simp] theorem State.raiseUb_prog (c : UbCode) : (s.raiseUb c).prog = s.prog := rfl
@[simp] theorem State.raiseUb_pc (c : UbCode) : (s.raiseUb c).pc = s.pc := rfl
@[simp] theorem State.raiseUb_temps (c : UbCode) : (s.raiseUb c).temps = s.temps := rfl
@[simp] theorem State.raiseUb_seqT (c : UbCode) : (s.raiseUb c).seqT = s.seqT := rfl
@[simp] theorem State.raiseUb_seqT2 (c : UbCode) : (s.raiseUb c).seqT2 = s.seqT2 := rfl
@[simp] theorem State.raiseUb_bufBase (c : UbCode) : (s.raiseUb c).bufBase = s.bufBase := rfl
@[simp] theorem State.raiseUb_buf (c : UbCode) : (s.raiseUb c).buf = s.buf := rfl
@[simp] theorem State.raiseUb_inputs (c : UbCode) : (s.raiseUb c).inputs = s.inputs := rfl
@[simp] theorem State.raiseUb_turnCount (c : UbCode) : (s.raiseUb c).turnCount = s.turnCount := rfl
@[simp] theorem State.raiseUb_draws (c : UbCode) : (s.raiseUb c).draws = s.draws := rfl
@[simp] theorem State.raiseUb_drawCount (c : UbCode) : (s.raiseUb c).drawCount = s.drawCount := rfl

/-! ### `raiseRef` -/

@[simp] theorem State.raiseRef_cfg (c : RefCode) : (s.raiseRef c).cfg = s.cfg := rfl
@[simp] theorem State.raiseRef_pecr (c : RefCode) : (s.raiseRef c).pecr = s.pecr := rfl
@[simp] theorem State.raiseRef_eop (c : RefCode) : (s.raiseRef c).eop = s.eop := rfl
@[simp] theorem State.raiseRef_err (c : RefCode) : (s.raiseRef c).err = s.err := rfl
@[simp] theorem State.raiseRef_peSeq (c : RefCode) : (s.raiseRef c).peSeq = s.peSeq := rfl
@[simp] theorem State.raiseRef_prgSeq (c : RefCode) : (s.raiseRef c).prgSeq = s.prgSeq := rfl
@[simp] theorem State.raiseRef_op (c : RefCode) : (s.raiseRef c).op = s.op := rfl
@[simp] theorem State.raiseRef_mem (c : RefCode) : (s.raiseRef c).mem = s.mem := rfl
@[simp] theorem State.raiseRef_primask (c : RefCode) : (s.raiseRef c).primask = s.primask := rfl
@[simp] theorem State.raiseRef_irqEn (c : RefCode) : (s.raiseRef c).irqEn = s.irqEn := rfl
@[simp] theorem State.raiseRef_irqPrio (c : RefCode) : (s.raiseRef c).irqPrio = s.irqPrio := rfl
@[simp] theorem State.raiseRef_irqPending (c : RefCode) : (s.raiseRef c).irqPending = s.irqPending := rfl
@[simp] theorem State.raiseRef_inHandler (c : RefCode) : (s.raiseRef c).inHandler = s.inHandler := rfl
@[simp] theorem State.raiseRef_halted (c : RefCode) : (s.raiseRef c).halted = s.halted := rfl
@[simp] theorem State.raiseRef_ubFault (c : RefCode) : (s.raiseRef c).ubFault = s.ubFault := rfl
@[simp] theorem State.raiseRef_refused (c : RefCode) : (s.raiseRef c).refused = true := rfl
@[simp] theorem State.raiseRef_reasons (c : RefCode) : (s.raiseRef c).reasons = s.reasons ++ [.ref c] := rfl
@[simp] theorem State.raiseRef_boot (c : RefCode) : (s.raiseRef c).boot = s.boot := rfl
@[simp] theorem State.raiseRef_prog (c : RefCode) : (s.raiseRef c).prog = s.prog := rfl
@[simp] theorem State.raiseRef_pc (c : RefCode) : (s.raiseRef c).pc = s.pc := rfl
@[simp] theorem State.raiseRef_temps (c : RefCode) : (s.raiseRef c).temps = s.temps := rfl
@[simp] theorem State.raiseRef_seqT (c : RefCode) : (s.raiseRef c).seqT = s.seqT := rfl
@[simp] theorem State.raiseRef_seqT2 (c : RefCode) : (s.raiseRef c).seqT2 = s.seqT2 := rfl
@[simp] theorem State.raiseRef_bufBase (c : RefCode) : (s.raiseRef c).bufBase = s.bufBase := rfl
@[simp] theorem State.raiseRef_buf (c : RefCode) : (s.raiseRef c).buf = s.buf := rfl
@[simp] theorem State.raiseRef_inputs (c : RefCode) : (s.raiseRef c).inputs = s.inputs := rfl
@[simp] theorem State.raiseRef_turnCount (c : RefCode) : (s.raiseRef c).turnCount = s.turnCount := rfl
@[simp] theorem State.raiseRef_draws (c : RefCode) : (s.raiseRef c).draws = s.draws := rfl
@[simp] theorem State.raiseRef_drawCount (c : RefCode) : (s.raiseRef c).drawCount = s.drawCount := rfl

/-! ### `latch` -/

@[simp] theorem State.latch_cfg : s.latch.cfg = s.cfg := rfl
@[simp] theorem State.latch_pecr : s.latch.pecr = s.pecr := rfl
@[simp] theorem State.latch_eop : s.latch.eop = s.eop := rfl
@[simp] theorem State.latch_err : s.latch.err = s.err := rfl
@[simp] theorem State.latch_peSeq : s.latch.peSeq = s.peSeq := rfl
@[simp] theorem State.latch_prgSeq : s.latch.prgSeq = s.prgSeq := rfl
@[simp] theorem State.latch_op : s.latch.op = s.op := rfl
@[simp] theorem State.latch_mem : s.latch.mem = s.mem := rfl
@[simp] theorem State.latch_primask : s.latch.primask = s.primask := rfl
@[simp] theorem State.latch_irqEn : s.latch.irqEn = s.irqEn := rfl
@[simp] theorem State.latch_irqPrio : s.latch.irqPrio = s.irqPrio := rfl
@[simp] theorem State.latch_irqPending : s.latch.irqPending = (s.irqPending || s.flashLine) := rfl
@[simp] theorem State.latch_inHandler : s.latch.inHandler = s.inHandler := rfl
@[simp] theorem State.latch_halted : s.latch.halted = s.halted := rfl
@[simp] theorem State.latch_ubFault : s.latch.ubFault = s.ubFault := rfl
@[simp] theorem State.latch_refused : s.latch.refused = s.refused := rfl
@[simp] theorem State.latch_reasons : s.latch.reasons = s.reasons := rfl
@[simp] theorem State.latch_boot : s.latch.boot = s.boot := rfl
@[simp] theorem State.latch_prog : s.latch.prog = s.prog := rfl
@[simp] theorem State.latch_pc : s.latch.pc = s.pc := rfl
@[simp] theorem State.latch_temps : s.latch.temps = s.temps := rfl
@[simp] theorem State.latch_seqT : s.latch.seqT = s.seqT := rfl
@[simp] theorem State.latch_seqT2 : s.latch.seqT2 = s.seqT2 := rfl
@[simp] theorem State.latch_bufBase : s.latch.bufBase = s.bufBase := rfl
@[simp] theorem State.latch_buf : s.latch.buf = s.buf := rfl
@[simp] theorem State.latch_inputs : s.latch.inputs = s.inputs := rfl
@[simp] theorem State.latch_turnCount : s.latch.turnCount = s.turnCount := rfl
@[simp] theorem State.latch_draws : s.latch.draws = s.draws := rfl
@[simp] theorem State.latch_drawCount : s.latch.drawCount = s.drawCount := rfl

/-! ### `useDraw` -/

@[simp] theorem State.useDraw_cfg : s.useDraw.cfg = s.cfg := rfl
@[simp] theorem State.useDraw_pecr : s.useDraw.pecr = s.pecr := rfl
@[simp] theorem State.useDraw_eop : s.useDraw.eop = s.eop := rfl
@[simp] theorem State.useDraw_err : s.useDraw.err = s.err := rfl
@[simp] theorem State.useDraw_peSeq : s.useDraw.peSeq = s.peSeq := rfl
@[simp] theorem State.useDraw_prgSeq : s.useDraw.prgSeq = s.prgSeq := rfl
@[simp] theorem State.useDraw_op : s.useDraw.op = s.op := rfl
@[simp] theorem State.useDraw_mem : s.useDraw.mem = s.mem := rfl
@[simp] theorem State.useDraw_primask : s.useDraw.primask = s.primask := rfl
@[simp] theorem State.useDraw_irqEn : s.useDraw.irqEn = s.irqEn := rfl
@[simp] theorem State.useDraw_irqPrio : s.useDraw.irqPrio = s.irqPrio := rfl
@[simp] theorem State.useDraw_irqPending : s.useDraw.irqPending = s.irqPending := rfl
@[simp] theorem State.useDraw_inHandler : s.useDraw.inHandler = s.inHandler := rfl
@[simp] theorem State.useDraw_halted : s.useDraw.halted = s.halted := rfl
@[simp] theorem State.useDraw_ubFault : s.useDraw.ubFault = s.ubFault := rfl
@[simp] theorem State.useDraw_refused : s.useDraw.refused = s.refused := rfl
@[simp] theorem State.useDraw_reasons : s.useDraw.reasons = s.reasons := rfl
@[simp] theorem State.useDraw_boot : s.useDraw.boot = s.boot := rfl
@[simp] theorem State.useDraw_prog : s.useDraw.prog = s.prog := rfl
@[simp] theorem State.useDraw_pc : s.useDraw.pc = s.pc := rfl
@[simp] theorem State.useDraw_temps : s.useDraw.temps = s.temps := rfl
@[simp] theorem State.useDraw_seqT : s.useDraw.seqT = s.seqT := rfl
@[simp] theorem State.useDraw_seqT2 : s.useDraw.seqT2 = s.seqT2 := rfl
@[simp] theorem State.useDraw_bufBase : s.useDraw.bufBase = s.bufBase := rfl
@[simp] theorem State.useDraw_buf : s.useDraw.buf = s.buf := rfl
@[simp] theorem State.useDraw_inputs : s.useDraw.inputs = s.inputs := rfl
@[simp] theorem State.useDraw_turnCount : s.useDraw.turnCount = s.turnCount := rfl
@[simp] theorem State.useDraw_draws : s.useDraw.draws = s.draws.tail := rfl
@[simp] theorem State.useDraw_drawCount : s.useDraw.drawCount = s.drawCount + 1 := rfl

/-! ### `discardTemps` -/

@[simp] theorem State.discardTemps_cfg : s.discardTemps.cfg = s.cfg := rfl
@[simp] theorem State.discardTemps_pecr : s.discardTemps.pecr = s.pecr := rfl
@[simp] theorem State.discardTemps_eop : s.discardTemps.eop = s.eop := rfl
@[simp] theorem State.discardTemps_err : s.discardTemps.err = s.err := rfl
@[simp] theorem State.discardTemps_peSeq : s.discardTemps.peSeq = s.peSeq := rfl
@[simp] theorem State.discardTemps_prgSeq : s.discardTemps.prgSeq = s.prgSeq := rfl
@[simp] theorem State.discardTemps_op : s.discardTemps.op = s.op := rfl
@[simp] theorem State.discardTemps_mem : s.discardTemps.mem = s.mem := rfl
@[simp] theorem State.discardTemps_primask : s.discardTemps.primask = s.primask := rfl
@[simp] theorem State.discardTemps_irqEn : s.discardTemps.irqEn = s.irqEn := rfl
@[simp] theorem State.discardTemps_irqPrio : s.discardTemps.irqPrio = s.irqPrio := rfl
@[simp] theorem State.discardTemps_irqPending : s.discardTemps.irqPending = s.irqPending := rfl
@[simp] theorem State.discardTemps_inHandler : s.discardTemps.inHandler = s.inHandler := rfl
@[simp] theorem State.discardTemps_halted : s.discardTemps.halted = s.halted := rfl
@[simp] theorem State.discardTemps_ubFault : s.discardTemps.ubFault = s.ubFault := rfl
@[simp] theorem State.discardTemps_refused : s.discardTemps.refused = s.refused := rfl
@[simp] theorem State.discardTemps_reasons : s.discardTemps.reasons = s.reasons := rfl
@[simp] theorem State.discardTemps_boot : s.discardTemps.boot = s.boot := rfl
@[simp] theorem State.discardTemps_prog : s.discardTemps.prog = s.prog := rfl
@[simp] theorem State.discardTemps_pc : s.discardTemps.pc = s.pc := rfl
@[simp] theorem State.discardTemps_temps : s.discardTemps.temps = [] := rfl
@[simp] theorem State.discardTemps_seqT : s.discardTemps.seqT = 0#32 := rfl
@[simp] theorem State.discardTemps_seqT2 : s.discardTemps.seqT2 = 0#32 := rfl
@[simp] theorem State.discardTemps_bufBase : s.discardTemps.bufBase = s.bufBase := rfl
@[simp] theorem State.discardTemps_buf : s.discardTemps.buf = s.buf := rfl
@[simp] theorem State.discardTemps_inputs : s.discardTemps.inputs = s.inputs := rfl
@[simp] theorem State.discardTemps_turnCount : s.discardTemps.turnCount = s.turnCount := rfl
@[simp] theorem State.discardTemps_draws : s.discardTemps.draws = s.draws := rfl
@[simp] theorem State.discardTemps_drawCount : s.discardTemps.drawCount = s.drawCount := rfl

/-! ### `expand` -/

@[simp] theorem State.expand_cfg (body : List Item) : (s.expand body).cfg = s.cfg := rfl
@[simp] theorem State.expand_pecr (body : List Item) : (s.expand body).pecr = s.pecr := rfl
@[simp] theorem State.expand_eop (body : List Item) : (s.expand body).eop = s.eop := rfl
@[simp] theorem State.expand_err (body : List Item) : (s.expand body).err = s.err := rfl
@[simp] theorem State.expand_peSeq (body : List Item) : (s.expand body).peSeq = s.peSeq := rfl
@[simp] theorem State.expand_prgSeq (body : List Item) : (s.expand body).prgSeq = s.prgSeq := rfl
@[simp] theorem State.expand_op (body : List Item) : (s.expand body).op = s.op := rfl
@[simp] theorem State.expand_mem (body : List Item) : (s.expand body).mem = s.mem := rfl
@[simp] theorem State.expand_primask (body : List Item) : (s.expand body).primask = s.primask := rfl
@[simp] theorem State.expand_irqEn (body : List Item) : (s.expand body).irqEn = s.irqEn := rfl
@[simp] theorem State.expand_irqPrio (body : List Item) : (s.expand body).irqPrio = s.irqPrio := rfl
@[simp] theorem State.expand_irqPending (body : List Item) : (s.expand body).irqPending = s.irqPending := rfl
@[simp] theorem State.expand_inHandler (body : List Item) : (s.expand body).inHandler = s.inHandler := rfl
@[simp] theorem State.expand_halted (body : List Item) : (s.expand body).halted = s.halted := rfl
@[simp] theorem State.expand_ubFault (body : List Item) : (s.expand body).ubFault = s.ubFault := rfl
@[simp] theorem State.expand_refused (body : List Item) : (s.expand body).refused = s.refused := rfl
@[simp] theorem State.expand_reasons (body : List Item) : (s.expand body).reasons = s.reasons := rfl
@[simp] theorem State.expand_boot (body : List Item) : (s.expand body).boot = s.boot := rfl
@[simp] theorem State.expand_prog (body : List Item) : (s.expand body).prog = { s.prog with items := expandAt s.pc body s.prog.items } := rfl
@[simp] theorem State.expand_pc (body : List Item) : (s.expand body).pc = s.pc := rfl
@[simp] theorem State.expand_temps (body : List Item) : (s.expand body).temps = s.temps := rfl
@[simp] theorem State.expand_seqT (body : List Item) : (s.expand body).seqT = s.seqT := rfl
@[simp] theorem State.expand_seqT2 (body : List Item) : (s.expand body).seqT2 = s.seqT2 := rfl
@[simp] theorem State.expand_bufBase (body : List Item) : (s.expand body).bufBase = s.bufBase := rfl
@[simp] theorem State.expand_buf (body : List Item) : (s.expand body).buf = s.buf := rfl
@[simp] theorem State.expand_inputs (body : List Item) : (s.expand body).inputs = s.inputs := rfl
@[simp] theorem State.expand_turnCount (body : List Item) : (s.expand body).turnCount = s.turnCount := rfl
@[simp] theorem State.expand_draws (body : List Item) : (s.expand body).draws = s.draws := rfl
@[simp] theorem State.expand_drawCount (body : List Item) : (s.expand body).drawCount = s.drawCount := rfl

/-! ### `takeEntry` -/

@[simp] theorem State.takeEntry_cfg : s.takeEntry.cfg = s.cfg := rfl
@[simp] theorem State.takeEntry_pecr : s.takeEntry.pecr = s.pecr := rfl
@[simp] theorem State.takeEntry_eop : s.takeEntry.eop = s.eop := rfl
@[simp] theorem State.takeEntry_err : s.takeEntry.err = s.err := rfl
@[simp] theorem State.takeEntry_peSeq : s.takeEntry.peSeq = s.peSeq := rfl
@[simp] theorem State.takeEntry_prgSeq : s.takeEntry.prgSeq = s.prgSeq := rfl
@[simp] theorem State.takeEntry_op : s.takeEntry.op = s.op := rfl
@[simp] theorem State.takeEntry_mem : s.takeEntry.mem = s.mem := rfl
@[simp] theorem State.takeEntry_primask : s.takeEntry.primask = s.primask := rfl
@[simp] theorem State.takeEntry_irqEn : s.takeEntry.irqEn = s.irqEn := rfl
@[simp] theorem State.takeEntry_irqPrio : s.takeEntry.irqPrio = s.irqPrio := rfl
@[simp] theorem State.takeEntry_irqPending : s.takeEntry.irqPending = false := rfl
@[simp] theorem State.takeEntry_inHandler : s.takeEntry.inHandler = true := rfl
@[simp] theorem State.takeEntry_halted : s.takeEntry.halted = s.halted := rfl
@[simp] theorem State.takeEntry_ubFault : s.takeEntry.ubFault = s.ubFault := rfl
@[simp] theorem State.takeEntry_refused : s.takeEntry.refused = s.refused := rfl
@[simp] theorem State.takeEntry_reasons : s.takeEntry.reasons = s.reasons := rfl
@[simp] theorem State.takeEntry_boot : s.takeEntry.boot = s.boot := rfl
@[simp] theorem State.takeEntry_prog : s.takeEntry.prog = handlerProgram s.cfg := rfl
@[simp] theorem State.takeEntry_pc : s.takeEntry.pc = 0 := rfl
@[simp] theorem State.takeEntry_temps : s.takeEntry.temps = [] := rfl
@[simp] theorem State.takeEntry_seqT : s.takeEntry.seqT = 0#32 := rfl
@[simp] theorem State.takeEntry_seqT2 : s.takeEntry.seqT2 = 0#32 := rfl
@[simp] theorem State.takeEntry_bufBase : s.takeEntry.bufBase = s.bufBase := rfl
@[simp] theorem State.takeEntry_buf : s.takeEntry.buf = s.buf := rfl
@[simp] theorem State.takeEntry_inputs : s.takeEntry.inputs = s.inputs := rfl
@[simp] theorem State.takeEntry_turnCount : s.takeEntry.turnCount = s.turnCount := rfl
@[simp] theorem State.takeEntry_draws : s.takeEntry.draws = s.draws := rfl
@[simp] theorem State.takeEntry_drawCount : s.takeEntry.drawCount = s.drawCount := rfl

/-! ### `writeTemp` binds a temporary and changes nothing else -/

@[simp] theorem State.writeTemp_cfg (t : Temp) (v : Word) : (s.writeTemp t v).cfg = s.cfg := by cases t <;> rfl
@[simp] theorem State.writeTemp_pecr (t : Temp) (v : Word) : (s.writeTemp t v).pecr = s.pecr := by cases t <;> rfl
@[simp] theorem State.writeTemp_eop (t : Temp) (v : Word) : (s.writeTemp t v).eop = s.eop := by cases t <;> rfl
@[simp] theorem State.writeTemp_err (t : Temp) (v : Word) : (s.writeTemp t v).err = s.err := by cases t <;> rfl
@[simp] theorem State.writeTemp_peSeq (t : Temp) (v : Word) : (s.writeTemp t v).peSeq = s.peSeq := by cases t <;> rfl
@[simp] theorem State.writeTemp_prgSeq (t : Temp) (v : Word) : (s.writeTemp t v).prgSeq = s.prgSeq := by cases t <;> rfl
@[simp] theorem State.writeTemp_op (t : Temp) (v : Word) : (s.writeTemp t v).op = s.op := by cases t <;> rfl
@[simp] theorem State.writeTemp_mem (t : Temp) (v : Word) : (s.writeTemp t v).mem = s.mem := by cases t <;> rfl
@[simp] theorem State.writeTemp_primask (t : Temp) (v : Word) : (s.writeTemp t v).primask = s.primask := by cases t <;> rfl
@[simp] theorem State.writeTemp_irqEn (t : Temp) (v : Word) : (s.writeTemp t v).irqEn = s.irqEn := by cases t <;> rfl
@[simp] theorem State.writeTemp_irqPrio (t : Temp) (v : Word) : (s.writeTemp t v).irqPrio = s.irqPrio := by cases t <;> rfl
@[simp] theorem State.writeTemp_irqPending (t : Temp) (v : Word) : (s.writeTemp t v).irqPending = s.irqPending := by cases t <;> rfl
@[simp] theorem State.writeTemp_inHandler (t : Temp) (v : Word) : (s.writeTemp t v).inHandler = s.inHandler := by cases t <;> rfl
@[simp] theorem State.writeTemp_halted (t : Temp) (v : Word) : (s.writeTemp t v).halted = s.halted := by cases t <;> rfl
@[simp] theorem State.writeTemp_ubFault (t : Temp) (v : Word) : (s.writeTemp t v).ubFault = s.ubFault := by cases t <;> rfl
@[simp] theorem State.writeTemp_refused (t : Temp) (v : Word) : (s.writeTemp t v).refused = s.refused := by cases t <;> rfl
@[simp] theorem State.writeTemp_reasons (t : Temp) (v : Word) : (s.writeTemp t v).reasons = s.reasons := by cases t <;> rfl
@[simp] theorem State.writeTemp_boot (t : Temp) (v : Word) : (s.writeTemp t v).boot = s.boot := by cases t <;> rfl
@[simp] theorem State.writeTemp_prog (t : Temp) (v : Word) : (s.writeTemp t v).prog = s.prog := by cases t <;> rfl
@[simp] theorem State.writeTemp_pc (t : Temp) (v : Word) : (s.writeTemp t v).pc = s.pc := by cases t <;> rfl
@[simp] theorem State.writeTemp_bufBase (t : Temp) (v : Word) : (s.writeTemp t v).bufBase = s.bufBase := by cases t <;> rfl
@[simp] theorem State.writeTemp_buf (t : Temp) (v : Word) : (s.writeTemp t v).buf = s.buf := by cases t <;> rfl
@[simp] theorem State.writeTemp_inputs (t : Temp) (v : Word) : (s.writeTemp t v).inputs = s.inputs := by cases t <;> rfl
@[simp] theorem State.writeTemp_turnCount (t : Temp) (v : Word) : (s.writeTemp t v).turnCount = s.turnCount := by cases t <;> rfl
@[simp] theorem State.writeTemp_draws (t : Temp) (v : Word) : (s.writeTemp t v).draws = s.draws := by cases t <;> rfl
@[simp] theorem State.writeTemp_drawCount (t : Temp) (v : Word) : (s.writeTemp t v).drawCount = s.drawCount := by cases t <;> rfl

/-! ### What the derived values read of an updated state -/

@[simp] theorem State.latch_flashLine : s.latch.flashLine = s.flashLine := rfl
@[simp] theorem State.advance_flashLine : s.advance.flashLine = s.flashLine := rfl
@[simp] theorem State.expand_flashLine (body : List Item) : (s.expand body).flashLine = s.flashLine := rfl
@[simp] theorem State.writeTemp_flashLine (t : Temp) (v : Word) : (s.writeTemp t v).flashLine = s.flashLine := by
  cases t <;> rfl

end Sys2Proof.Machine
end

