-- ==== Sys2Proof/Laws/Sparse.lean ====
section
/-! SUPPORT. The sparse lists behind the array and the temporaries: a read after a write, and that a write keeps the
canonical form. -/

namespace Sys2Proof.Machine

variable {β : Type} [DecidableEq β] (dflt : β)

omit [DecidableEq β] in
@[simp] theorem sparseRead_nil (a : Nat) : sparseRead dflt [] a = dflt := rfl

theorem sparseRead_cell_append (k : Nat) (v : β) (rest : List (Nat × β)) (a : Nat) :
    sparseRead dflt (sparseCell dflt k v ++ rest) a = if a = k ∧ v ≠ dflt then v else sparseRead dflt rest a := by
  unfold sparseCell
  split
  · next h => simp [h]
  · next h => by_cases hk : a = k <;> simp [sparseRead, h, hk]

/-- A canonical list whose keys start at `lo` reads `dflt` below `lo`. -/
theorem sparseRead_below (l : List (Nat × β)) (lo a : Nat) (h : sparseWfFrom dflt lo l = true) (ha : a < lo) :
    sparseRead dflt l a = dflt := by
  induction l generalizing lo with
  | nil => rfl
  | cons p rest ih =>
    simp only [sparseWfFrom, Bool.and_eq_true, decide_eq_true_eq] at h
    obtain ⟨⟨hk, -⟩, hr⟩ := h
    rw [sparseRead, if_neg (by omega)]
    exact ih (p.1 + 1) hr (by omega)

theorem sparseWfFrom_mono (l : List (Nat × β)) (lo lo' : Nat) (h : sparseWfFrom dflt lo l = true) (hl : lo' ≤ lo) :
    sparseWfFrom dflt lo' l = true := by
  cases l with
  | nil => rfl
  | cons p rest =>
    simp only [sparseWfFrom, Bool.and_eq_true, decide_eq_true_eq] at h ⊢
    exact ⟨⟨by omega, h.1.2⟩, h.2⟩

theorem sparseWfFrom_cell_append (k lo : Nat) (v : β) (rest : List (Nat × β)) (hk : lo ≤ k)
    (h : sparseWfFrom dflt (k + 1) rest = true) : sparseWfFrom dflt lo (sparseCell dflt k v ++ rest) = true := by
  unfold sparseCell
  split
  · exact sparseWfFrom_mono dflt rest (k + 1) lo h (by omega)
  · next hv => simp [sparseWfFrom, hk, hv, h]

/-- A write keeps the canonical form. -/
theorem sparseWrite_wf (l : List (Nat × β)) (lo a : Nat) (v : β) (h : sparseWfFrom dflt lo l = true) (ha : lo ≤ a) :
    sparseWfFrom dflt lo (sparseWrite dflt l a v) = true := by
  induction l generalizing lo with
  | nil => simpa [sparseWrite] using sparseWfFrom_cell_append dflt a lo v [] ha rfl
  | cons p rest ih =>
    have h0 := h
    simp only [sparseWfFrom, Bool.and_eq_true, decide_eq_true_eq] at h
    obtain ⟨⟨hk, hv⟩, hr⟩ := h
    unfold sparseWrite
    split
    · next hlt =>
      exact sparseWfFrom_cell_append dflt a lo v _ ha (by simp [sparseWfFrom, hv, hr]; omega)
    · split
      · next hge heq => exact sparseWfFrom_cell_append dflt a lo v _ ha (by rw [heq]; exact hr)
      · next hge hne => simp [sparseWfFrom, hk, hv, ih (p.1 + 1) hr (by omega)]

/-- A read after a write: the value written at the key, and every other key as before. -/
theorem sparseRead_write (l : List (Nat × β)) (lo a b : Nat) (v : β) (h : sparseWfFrom dflt lo l = true) :
    sparseRead dflt (sparseWrite dflt l a v) b = if b = a then v else sparseRead dflt l b := by
  induction l generalizing lo with
  | nil =>
    have := sparseRead_cell_append dflt a v [] b
    simp only [List.append_nil] at this
    rw [sparseWrite, this]
    by_cases hb : b = a <;> by_cases hv : v = dflt <;> simp [hb, hv]
  | cons p rest ih =>
    simp only [sparseWfFrom, Bool.and_eq_true, decide_eq_true_eq] at h
    obtain ⟨⟨hk, hv⟩, hr⟩ := h
    unfold sparseWrite
    split
    · next hlt =>
      rw [sparseRead_cell_append]
      by_cases hb : b = a
      · subst hb
        have : sparseRead dflt rest b = dflt := sparseRead_below dflt rest (p.1 + 1) b hr (by omega)
        by_cases hd : v = dflt <;> simp [hd, sparseRead, this, Nat.ne_of_lt hlt]
      · simp [hb]
    · split
      · next hge heq =>
        rw [sparseRead_cell_append]
        by_cases hb : b = a
        · subst hb
          have : sparseRead dflt rest b = dflt := sparseRead_below dflt rest (p.1 + 1) b hr (by omega)
          by_cases hd : v = dflt <;> simp [hd, this]
        · have hb' : b ≠ p.1 := by omega
          simp [hb, sparseRead, hb']
      · next hge hne =>
        by_cases hb : b = p.1
        · simp [sparseRead, hb, Ne.symm hne]
        · simp [sparseRead, hb, ih (p.1 + 1) hr]

/-- Every key of a written list is an old key or the written one. -/
theorem sparseWrite_keys (l : List (Nat × β)) (a : Nat) (v : β) (p : Nat × β) (h : p ∈ sparseWrite dflt l a v) :
    p ∈ l ∨ p.1 = a := by
  induction l with
  | nil =>
    simp only [sparseWrite, sparseCell] at h
    split at h <;> simp_all
  | cons q rest ih =>
    simp only [sparseWrite, sparseCell] at h
    split at h
    · split at h <;> simp_all
      rcases h with h | h <;> simp_all
    · split at h
      · split at h <;> simp_all
        rcases h with h | h <;> simp_all
      · simp only [List.mem_cons] at h ⊢
        rcases h with h | h
        · exact .inl (.inl h)
        · rcases ih h with h | h <;> simp_all

end Sys2Proof.Machine
end

