-- ==== Sys2Proof/Laws/Memory.lean ====
section
/-! SUPPORT. The flash array: its bytes after a write, and that every write keeps the canonical form (R34, R37, R77). -/

namespace Sys2Proof.Machine

theorem Memory.writeByte_wf (m : List Host.Cell) (a : Nat) (v : Byte) (h : Memory.wf m = true) :
    Memory.wf (Memory.writeByte m a v) = true :=
  sparseWrite_wf erasedByte m 0 a v h (Nat.zero_le a)

theorem Memory.readByte_writeByte (m : List Host.Cell) (a b : Nat) (v : Byte) (h : Memory.wf m = true) :
    Memory.readByte (Memory.writeByte m a v) b = if b = a then v else Memory.readByte m b :=
  sparseRead_write erasedByte m 0 a b v h

theorem Memory.writeWord_wf (m : List Host.Cell) (a v : Word) (h : Memory.wf m = true) :
    Memory.wf (Memory.writeWord m a v) = true :=
  writeByte_wf _ _ _ (writeByte_wf _ _ _ (writeByte_wf _ _ _ (writeByte_wf _ _ _ h)))

/-- A word write changes its own four bytes, least significant first. -/
theorem Memory.readByte_writeWord (m : List Host.Cell) (a v : Word) (b : Nat) (h : Memory.wf m = true) :
    Memory.readByte (Memory.writeWord m a v) b =
      if b = a.toNat then v.extractLsb' 0 8
      else if b = a.toNat + 1 then v.extractLsb' 8 8
      else if b = a.toNat + 2 then v.extractLsb' 16 8
      else if b = a.toNat + 3 then v.extractLsb' 24 8
      else Memory.readByte m b := by
  have h1 := writeByte_wf m a.toNat (v.extractLsb' 0 8) h
  have h2 := writeByte_wf _ (a.toNat + 1) (v.extractLsb' 8 8) h1
  have h3 := writeByte_wf _ (a.toNat + 2) (v.extractLsb' 16 8) h2
  unfold writeWord
  rw [readByte_writeByte _ _ _ _ h3, readByte_writeByte _ _ _ _ h2, readByte_writeByte _ _ _ _ h1,
    readByte_writeByte _ _ _ _ h]
  repeat' split
  all_goals first | rfl | omega

theorem Memory.readByte_writeWord_other (m : List Host.Cell) (a v : Word) (b : Nat) (h : Memory.wf m = true)
    (hb : b < a.toNat ∨ a.toNat + 4 ≤ b) : Memory.readByte (Memory.writeWord m a v) b = Memory.readByte m b := by
  rw [readByte_writeWord m a v b h]
  repeat' split
  all_goals first | rfl | omega

/-- A word is read back as it was written. -/
theorem Memory.readWord_writeWord_same (m : List Host.Cell) (a v : Word) (h : Memory.wf m = true) :
    Memory.readWord (Memory.writeWord m a v) a = v := by
  unfold readWord
  simp only [readByte_writeWord m a v _ h]
  have e1 : ¬(a.toNat + 1 = a.toNat) := by omega
  have e2 : ¬(a.toNat + 2 = a.toNat) := by omega
  have e3 : ¬(a.toNat + 3 = a.toNat) := by omega
  have e4 : ¬(a.toNat + 2 = a.toNat + 1) := by omega
  have e5 : ¬(a.toNat + 3 = a.toNat + 1) := by omega
  have e6 : ¬(a.toNat + 3 = a.toNat + 2) := by omega
  simp only [e1, e2, e3, e4, e5, e6, if_true, if_false]
  ext i hi
  simp only [BitVec.getElem_append, BitVec.getElem_extractLsb']
  repeat' split
  all_goals first | (congr 1; omega) | (rw [BitVec.getLsbD_eq_getElem] <;> (try congr 1) <;> omega)

/-- Another word is read as before. -/
theorem Memory.readWord_writeWord_other (m : List Host.Cell) (a v b : Word) (h : Memory.wf m = true)
    (hb : b.toNat + 4 ≤ a.toNat ∨ a.toNat + 4 ≤ b.toNat) :
    Memory.readWord (Memory.writeWord m a v) b = Memory.readWord m b := by
  unfold readWord
  rw [readByte_writeWord_other m a v _ h (by omega), readByte_writeWord_other m a v _ h (by omega),
    readByte_writeWord_other m a v _ h (by omega), readByte_writeWord_other m a v _ h (by omega)]

/-- The keys of a written array are old keys or lie in the written word. -/
theorem Memory.writeWord_keys (m : List Host.Cell) (a v : Word) (p : Host.Cell) (h : p ∈ Memory.writeWord m a v) :
    p ∈ m ∨ (a.toNat ≤ p.1 ∧ p.1 < a.toNat + 4) := by
  unfold writeWord writeByte at h
  rcases sparseWrite_keys erasedByte _ _ _ p h with h | h
  · rcases sparseWrite_keys erasedByte _ _ _ p h with h | h
    · rcases sparseWrite_keys erasedByte _ _ _ p h with h | h
      · rcases sparseWrite_keys erasedByte _ _ _ p h with h | h
        · exact .inl h
        · exact .inr (by omega)
      · exact .inr (by omega)
    · exact .inr (by omega)
  · exact .inr (by omega)

/-- A fold of word writes keeps the canonical form. -/
theorem Memory.foldl_wf {α : Type} (f : List Host.Cell → α → List Host.Cell)
    (hf : ∀ m x, Memory.wf m = true → Memory.wf (f m x) = true) (l : List α) (m : List Host.Cell)
    (h : Memory.wf m = true) : Memory.wf (l.foldl f m) = true := by
  induction l generalizing m with
  | nil => exact h
  | cons x xs ih => exact ih (f m x) (hf m x h)

theorem programCell_wf (c : Config) (m : List Host.Cell) (av : Word × Word) (h : Memory.wf m = true) :
    Memory.wf (programCell c m av) = true :=
  Memory.writeWord_wf _ _ _ h

/-- R77: an operation's effect keeps the canonical form. -/
theorem Op.effect_wf (c : Config) (m : List Host.Cell) (op : Op) (h : Memory.wf m = true) :
    Memory.wf (op.effect c m) = true := by
  cases op with
  | erase p => exact Memory.foldl_wf _ (fun m a h => Memory.writeWord_wf m a _ h) _ m h
  | word a v => exact programCell_wf c m (a, v) h
  | half b buf => exact Memory.foldl_wf _ (programCell_wf c) _ m h

end Sys2Proof.Machine
end

