-- ==== Sys2Proof/Laws/Array.lean ====
section
/-! SUPPORT. Reads and blocks of the array: an aligned read as the bytes it covers, the words of a page or half-page, and
a fold of word writes read back word by word (R34, R37, R68, R77). -/

namespace Sys2Proof.Machine

/-! ## Addresses of a block -/

theorem addr_toNat (a : Word) (k : Nat) (h : a.toNat + k < 2 ^ 32) : (a + BitVec.ofNat 32 k).toNat = a.toNat + k := by
  rw [BitVec.toNat_add, BitVec.toNat_ofNat]
  have := a.isLt
  omega

/-- A page that starts in the flash array ends in it (R6, R7). -/
theorem page_fits {c : Config} (h : c.wf = true) {p : Word} (hf : c.inFlash p = true)
    (ha : p.toNat % c.pageBytes = 0) :
    p.toNat + c.pageBytes ≤ c.flashBase.toNat + c.flashBytes ∧ c.flashBase.toNat ≤ p.toNat := by
  have h1 := Config.flashBase_aligned h
  have h2 := Config.flashBytes_aligned h
  simp only [Config.inFlash, decide_eq_true_eq] at hf
  obtain ⟨x, hx⟩ := Nat.dvd_of_mod_eq_zero h1
  obtain ⟨y, hy⟩ := Nat.dvd_of_mod_eq_zero h2
  obtain ⟨z, hz⟩ := Nat.dvd_of_mod_eq_zero ha
  refine ⟨?_, hf.1⟩
  have hf2 := hf.2
  rw [hx, hy, hz, ← Nat.mul_add] at hf2
  rw [hx, hy, hz, ← Nat.mul_add]
  have : z < x + y := Nat.lt_of_mul_lt_mul_left hf2
  calc c.pageBytes * z + c.pageBytes = c.pageBytes * (z + 1) := by ring
    _ ≤ c.pageBytes * (x + y) := Nat.mul_le_mul_left _ this

/-- A half-page that starts in the flash array ends in it (R6, R7). -/
theorem half_fits {c : Config} (h : c.wf = true) {p : Word} (hf : c.inFlash p = true)
    (ha : p.toNat % c.halfBytes = 0) :
    p.toNat + c.halfBytes ≤ c.flashBase.toNat + c.flashBytes ∧ c.flashBase.toNat ≤ p.toNat := by
  have e : c.pageBytes = c.halfBytes * 2 := by unfold Config.pageBytes Config.halfBytes; omega
  have h1 := Config.flashBase_aligned h
  have h2 := Config.flashBytes_aligned h
  simp only [Config.inFlash, decide_eq_true_eq] at hf
  obtain ⟨x, hx⟩ := Nat.dvd_of_mod_eq_zero h1
  obtain ⟨y, hy⟩ := Nat.dvd_of_mod_eq_zero h2
  obtain ⟨z, hz⟩ := Nat.dvd_of_mod_eq_zero ha
  refine ⟨?_, hf.1⟩
  have hf2 := hf.2
  rw [hx, hy, hz, ← Nat.mul_add, e, Nat.mul_assoc] at hf2
  rw [hx, hy, hz, ← Nat.mul_add, e, Nat.mul_assoc]
  have : z < 2 * (x + y) := Nat.lt_of_mul_lt_mul_left hf2
  calc c.halfBytes * z + c.halfBytes = c.halfBytes * (z + 1) := by ring
    _ ≤ c.halfBytes * (2 * (x + y)) := Nat.mul_le_mul_left _ this

theorem wordAddrs_pairwise (a : Word) (n : Nat) (h : a.toNat + 4 * n ≤ 2 ^ 32) :
    (wordAddrs a n).Pairwise (fun x y => x.toNat + 4 ≤ y.toNat ∨ y.toNat + 4 ≤ x.toNat) := by
  unfold wordAddrs
  rw [List.pairwise_map]
  apply List.Pairwise.imp_of_mem _ List.pairwise_lt_range
  intro i j hi hj hij
  rw [List.mem_range] at hi hj
  rw [addr_toNat a (4 * i) (by omega), addr_toNat a (4 * j) (by omega)]
  omega

/-! ## Folds of word writes -/

theorem Memory.readWord_congr {m m' : List Host.Cell} {a : Word}
    (h : ∀ b, a.toNat ≤ b → b < a.toNat + 4 → Memory.readByte m b = Memory.readByte m' b) :
    Memory.readWord m a = Memory.readWord m' a := by
  unfold Memory.readWord
  rw [h _ (by omega) (by omega), h _ (by omega) (by omega), h _ (by omega) (by omega), h _ (by omega) (by omega)]

/-- A function of the array that writes one word at `addr x`, as `g x` of what stood there. -/
structure WritesWord {α : Type} (f : List Host.Cell → α → List Host.Cell) (addr : α → Word) (g : α → Word → Word) :
    Prop where
  wf    : ∀ m x, Memory.wf m = true → Memory.wf (f m x) = true
  other : ∀ m x b, Memory.wf m = true → (b < (addr x).toNat ∨ (addr x).toNat + 4 ≤ b) →
    Memory.readByte (f m x) b = Memory.readByte m b
  word  : ∀ m x, Memory.wf m = true → Memory.readWord (f m x) (addr x) = g x (Memory.readWord m (addr x))

variable {α : Type} {f : List Host.Cell → α → List Host.Cell} {addr : α → Word} {g : α → Word → Word}

/-- R77: erasing a word. -/
theorem eraseWord_writes (v : Word) :
    WritesWord (fun m (a : Word) => Memory.writeWord m a v) id (fun _ _ => v) where
  wf m a h := Memory.writeWord_wf m a v h
  other m a b h hb := Memory.readByte_writeWord_other m a v b h hb
  word m a h := Memory.readWord_writeWord_same m a v h

/-- R77, R78: programming a word. -/
theorem programCell_writes (c : Config) : WritesWord (programCell c) Prod.fst (fun av old => combine c old av.2) where
  wf := programCell_wf c
  other m _ b h hb := Memory.readByte_writeWord_other m _ _ b h hb
  word m _ h := Memory.readWord_writeWord_same m _ _ h

theorem WritesWord.fold_other (w : WritesWord f addr g) (l : List α) (m : List Host.Cell) (h : Memory.wf m = true)
    (b : Nat) (hb : ∀ x ∈ l, b < (addr x).toNat ∨ (addr x).toNat + 4 ≤ b) :
    Memory.readByte (l.foldl f m) b = Memory.readByte m b := by
  induction l generalizing m with
  | nil => rfl
  | cons x xs ih =>
    rw [List.foldl_cons, ih (f m x) (w.wf m x h) (fun y hy => hb y (List.mem_cons_of_mem _ hy)),
      w.other m x b h (hb x List.mem_cons_self)]

theorem WritesWord.fold_at (w : WritesWord f addr g) (l : List α) (m : List Host.Cell) (h : Memory.wf m = true)
    (hdis : l.Pairwise (fun x y => (addr x).toNat + 4 ≤ (addr y).toNat ∨ (addr y).toNat + 4 ≤ (addr x).toNat))
    (x : α) (hx : x ∈ l) : Memory.readWord (l.foldl f m) (addr x) = g x (Memory.readWord m (addr x)) := by
  induction l generalizing m with
  | nil => simp at hx
  | cons y ys ih =>
    rw [List.pairwise_cons] at hdis
    rw [List.foldl_cons]
    rcases List.mem_cons.1 hx with rfl | hx
    · rw [← w.word m x h]
      apply Memory.readWord_congr
      intro b h1 h2
      apply w.fold_other ys _ (w.wf m x h)
      intro z hz
      have := hdis.1 z hz
      omega
    · rw [ih _ (w.wf m y h) hdis.2 hx]
      congr 1
      apply Memory.readWord_congr
      intro b h1 h2
      apply w.other m y b h
      have := hdis.1 x hx
      omega

/-! ## Aligned reads -/

theorem shifted_byte (b3 b2 b1 b0 : Byte) : ∀ k < 4, ((b3 ++ b2 ++ b1 ++ b0 : BitVec 32) >>> (8*k)) &&& 0xFF#32 = (match k with | 0 => b0 | 1 => b1 | 2 => b2 | _ => b3).setWidth 32 := by
  intro k hk
  have : k = 0 ∨ k = 1 ∨ k = 2 ∨ k = 3 := by omega
  rcases this with rfl | rfl | rfl | rfl
  all_goals
    apply BitVec.eq_of_getLsbD_eq; intro i hi
    have h255 : ∀ i < 32, (255#32).getLsbD i = decide (i < 8) := by decide
    simp only [BitVec.getLsbD_and, BitVec.getLsbD_ushiftRight, h255 i hi, BitVec.getLsbD_append, BitVec.getLsbD_setWidth, hi, decide_true, Bool.true_and]
    by_cases h8 : i < 8
    · have : i = 0 ∨ i = 1 ∨ i = 2 ∨ i = 3 ∨ i = 4 ∨ i = 5 ∨ i = 6 ∨ i = 7 := by omega
      rcases this with rfl | rfl | rfl | rfl | rfl | rfl | rfl | rfl <;> simp
    · simp only [h8, decide_false, Bool.and_false]; symm; exact BitVec.getLsbD_of_ge _ _ (by omega)

theorem shifted_half (b3 b2 b1 b0 : Byte) : ∀ k, (k = 0 ∨ k = 2) → ((b3 ++ b2 ++ b1 ++ b0 : BitVec 32) >>> (8*k)) &&& 0xFFFF#32 = (match k with | 0 => (b1 ++ b0) | _ => (b3 ++ b2)).setWidth 32 := by
  intro k hk
  rcases hk with rfl | rfl
  all_goals
    apply BitVec.eq_of_getLsbD_eq; intro i hi
    have h255 : ∀ i < 32, (65535#32).getLsbD i = decide (i < 16) := by decide
    simp only [BitVec.getLsbD_and, BitVec.getLsbD_ushiftRight, h255 i hi, BitVec.getLsbD_append, BitVec.getLsbD_setWidth, hi, decide_true, Bool.true_and]
    by_cases h8 : i < 16
    · have : i = 0 ∨ i = 1 ∨ i = 2 ∨ i = 3 ∨ i = 4 ∨ i = 5 ∨ i = 6 ∨ i = 7 ∨ i = 8 ∨ i = 9 ∨ i = 10 ∨ i = 11 ∨ i = 12 ∨ i = 13 ∨ i = 14 ∨ i = 15 := by omega
      rcases this with rfl | rfl | rfl | rfl | rfl | rfl | rfl | rfl | rfl | rfl | rfl | rfl | rfl | rfl | rfl | rfl <;> simp
    · simp only [h8, decide_false, Bool.and_false]
      rw [BitVec.getLsbD_of_ge _ _ (by omega : 8 ≤ i - 8), BitVec.getLsbD_of_ge _ _ (by omega : 8 ≤ i)]; simp

theorem wordBase_toNat (a : Word) : (a - BitVec.ofNat 32 (a.toNat % 4)).toNat = a.toNat - a.toNat % 4 := by
  have := a.isLt
  rw [BitVec.toNat_sub_of_le]
  · simp; omega
  · rw [BitVec.le_def]; simp; omega

theorem Memory.read_word (m : List Host.Cell) (a : Word) (h : a.toNat % 4 = 0) : Memory.read m .word a = Memory.readWord m a := by
  simp only [Memory.read, h, Size.mask]
  simp
  rw [show (4294967295#32) = BitVec.allOnes 32 by decide, BitVec.and_allOnes]

theorem Memory.read_byte (m : List Host.Cell) (a : Word) : Memory.read m .byte a = (Memory.readByte m a.toNat).setWidth 32 := by
  have hb := wordBase_toNat a
  simp only [Memory.read, Memory.readWord, Size.mask, hb]
  rw [shifted_byte _ _ _ _ _ (by omega)]
  have : a.toNat % 4 = 0 ∨ a.toNat % 4 = 1 ∨ a.toNat % 4 = 2 ∨ a.toNat % 4 = 3 := by omega
  rcases this with h | h | h | h <;> simp only [h] <;> congr 2 <;> omega

theorem Memory.read_half (m : List Host.Cell) (a : Word) (h2 : a.toNat % 2 = 0) : Memory.read m .half a = (Memory.readByte m (a.toNat + 1) ++ Memory.readByte m a.toNat).setWidth 32 := by
  have hb := wordBase_toNat a
  simp only [Memory.read, Memory.readWord, Size.mask, hb]
  rw [shifted_half _ _ _ _ _ (by omega)]
  have : a.toNat % 4 = 0 ∨ a.toNat % 4 = 2 := by omega
  rcases this with h | h <;> simp only [h] <;> congr 3 <;> omega

end Sys2Proof.Machine
end

