-- ==== Sys2Proof/Laws/Ops.lean ====
section
/-! SUPPORT. For each shared operation, one lemma that says once everything it can do. -/

namespace Sys2Proof.Machine

variable {s t : State}

/-! ## The state after an operation of the temporaries -/

@[simp] theorem State.readTemp_writeTemp_seqT (s : State) (v : Word) : (s.writeTemp .seqT v).readTemp .seqT = v := rfl
@[simp] theorem State.readTemp_writeTemp_seqT2 (s : State) (v : Word) : (s.writeTemp .seqT2 v).readTemp .seqT2 = v := rfl
@[simp] theorem State.readTemp_advance (s : State) (x : Temp) : s.advance.readTemp x = s.readTemp x := by cases x <;> rfl
@[simp] theorem State.readTemp_latch (s : State) (x : Temp) : s.latch.readTemp x = s.readTemp x := by cases x <;> rfl

theorem State.writeTemp_temps_wf (s : State) (x : Temp) (v : Word) (h : sparseWfFrom 0#32 0 s.temps = true) :
    sparseWfFrom 0#32 0 (s.writeTemp x v).temps = true := by
  cases x with
  | user k => exact sparseWrite_wf 0#32 s.temps 0 k v h (Nat.zero_le k)
  | seqT => exact h
  | seqT2 => exact h

/-- An expression reads the temporaries alone, so the order of the agents does not matter to it. -/
@[simp] theorem State.evalExpr_inputs (s : State) (l : List Input) (n : Nat) (e : Expr) :
    State.evalExpr { s with inputs := l, turnCount := n } e = s.evalExpr e := by
  induction e with
  | imm v => rfl
  | temp t => cases t <;> rfl
  | or x y hx hy => simp only [evalExpr, hx, hy]
  | and x y hx hy => simp only [evalExpr, hx, hy]
  | not x hx => simp only [evalExpr, hx]
  | add x y hx hy => simp only [evalExpr, hx, hy]

@[simp] theorem State.evalTarget_inputs (s : State) (l : List Input) (n : Nat) (g : Target) :
    State.evalTarget { s with inputs := l, turnCount := n } g = s.evalTarget g := by
  cases g with
  | reg r => rfl
  | addr e => exact s.evalExpr_inputs l n e

/-! ## Reads -/

/-- R80: an array read raises one of three codes, holds, or gives the value and changes nothing. -/
theorem State.readArray_cases (s : State) (sz : Size) (a : Word) :
    (s.cfg.inFlash a = false ∧ s.readArray sz a = .raised (s.raiseRef .unmapped)) ∨
    (s.cfg.inFlash a = true ∧ a.toNat % Size.bytes sz ≠ 0 ∧ s.readArray sz a = .raised (s.raiseRef .misalignedRead)) ∨
    (s.cfg.inFlash a = true ∧ a.toNat % Size.bytes sz = 0 ∧
      ((s.readGate a = .hold ∧ s.readArray sz a = .held) ∨
       (s.readGate a = .placement ∧ s.readArray sz a = .raised (s.raiseUb .placement)) ∨
       (s.readGate a = .go ∧ s.readArray sz a = .value (Memory.read s.mem sz a) s))) := by
  unfold readArray
  cases hf : s.cfg.inFlash a
  · simp
  · by_cases hm : a.toNat % Size.bytes sz = 0
    · cases hg : s.readGate a <;> simp [hm]
    · simp [hm]

/-- What a read leaves in the state when it gives a value or raises: nothing but the code, or a used draw. -/
def ReadResult.leaves (s : State) : ReadResult → Prop
  | .value _ t => t = s ∨ t = s.useDraw
  | .raised t => (∃ c, t = s.raiseUb c) ∨ (∃ c, t = s.raiseRef c)
  | .held => True

theorem State.readArray_leaves (s : State) (sz : Size) (a : Word) : (s.readArray sz a).leaves s := by
  rcases s.readArray_cases sz a with ⟨-, h⟩ | ⟨-, -, h⟩ | ⟨-, -, ⟨-, h⟩ | ⟨-, h⟩ | ⟨-, h⟩⟩ <;> rw [h]
  · exact .inr ⟨_, rfl⟩
  · exact .inr ⟨_, rfl⟩
  · exact trivial
  · exact .inl ⟨_, rfl⟩
  · exact .inl rfl

theorem State.readBusWord_leaves (s : State) (a : Word) : (s.readBusWord a).leaves s := by
  unfold readBusWord
  split
  · exact .inl rfl
  · exact .inl rfl
  · exact .inl rfl
  · exact .inr rfl
  · exact .inr ⟨_, rfl⟩
  · exact s.readArray_leaves _ _
  all_goals exact .inr ⟨_, rfl⟩

theorem State.readBuf_leaves (s : State) (i : Nat) : (s.readBuf i).leaves s := by
  unfold readBuf
  split
  · exact .inl ⟨_, rfl⟩
  · split
    · exact s.readArray_leaves _ _
    · exact .inl rfl

/-- A read item always answers a next state: the value bound, a code raised, or the CPU waiting. -/
theorem ReadResult.bind_next (r : ReadResult) (x : Temp) (s : State) :
    (∃ v s1, r = .value v s1 ∧ r.bind x s = .next (s1.writeTemp x v).advance) ∨
    (∃ s1, r = .raised s1 ∧ r.bind x s = .next s1.advance) ∨
    (r = .held ∧ r.bind x s = .next s) := by
  cases r with
  | value v s1 => exact .inl ⟨v, s1, rfl, rfl⟩
  | raised s1 => exact .inr (.inl ⟨s1, rfl, rfl⟩)
  | held => exact .inr (.inr ⟨rfl, rfl⟩)

/-! ## Writes -/

/-- R56: a key write changes nothing, the sequencer, or the lock and the sequencer. -/
theorem State.writePekeyr_cases (s : State) (d : Word) :
    s.writePekeyr d = s ∨
    (s.pecr.pelock = true ∧ s.peSeq ≠ .dead ∧ ∃ q, (q = .k1 ∨ q = wrongKey s.cfg) ∧ s.writePekeyr d = { s with peSeq := q }) ∨
    (s.pecr.pelock = true ∧ s.peSeq = .k1 ∧ d = s.cfg.keyPe2 ∧
      s.writePekeyr d = { s with pecr := { s.pecr with pelock := false }, peSeq := .k0 }) := by
  unfold writePekeyr
  cases hl : s.pecr.pelock
  · simp
  · cases hq : s.peSeq
    · refine .inr (.inl ⟨rfl, by simp, _, ?_, by simp; rfl⟩)
      split <;> simp
    · by_cases hd : d = s.cfg.keyPe2
      · exact .inr (.inr ⟨rfl, rfl, hd, by simp [hd]⟩)
      · exact .inr (.inl ⟨rfl, by simp, _, .inr rfl, by simp [hd]⟩)
    · simp

/-- R57: the same for the program-unlock key port, which also needs PELOCK = 0. -/
theorem State.writePrgkeyr_cases (s : State) (d : Word) :
    s.writePrgkeyr d = s ∨
    (s.pecr.prglock = true ∧ s.prgSeq ≠ .dead ∧
      ∃ q, (q = .k1 ∨ q = wrongKey s.cfg) ∧ s.writePrgkeyr d = { s with prgSeq := q }) ∨
    (s.pecr.pelock = false ∧ s.pecr.prglock = true ∧ s.prgSeq = .k1 ∧ d = s.cfg.keyPrg2 ∧
      s.writePrgkeyr d = { s with pecr := { s.pecr with prglock := false }, prgSeq := .k0 }) := by
  unfold writePrgkeyr
  cases hp : s.pecr.pelock
  · cases hl : s.pecr.prglock
    · simp
    · cases hq : s.prgSeq
      · refine .inr (.inl ⟨rfl, by simp, _, ?_, by simp; rfl⟩)
        split <;> simp
      · by_cases hd : d = s.cfg.keyPrg2
        · exact .inr (.inr ⟨rfl, rfl, rfl, hd, by simp [hd]⟩)
        · exact .inr (.inl ⟨rfl, by simp, _, .inr rfl, by simp [hd]⟩)
      · simp
  · simp

/-- R59: a PECR write raises a code, changes nothing, or is accepted, and then only with no operation pending, PELOCK = 0
and a legal mode. -/
theorem State.writePecr_cases (s : State) (d : Word) :
    s.writePecr d = s.raiseUb .pecrWhileBusy ∨ s.writePecr d = s ∨ s.writePecr d = s.raiseRef .pecrBit ∨
    s.writePecr d = s.raiseUb .reservedMode ∨
    (s.bsy = false ∧ s.pecr.pelock = false ∧ modeOf (d.getLsbD 3) (d.getLsbD 9) (d.getLsbD 10) ≠ .reserved ∧
      s.writePecr d =
        { s with
          pecr := pecrAfterWrite s.pecr d
          peSeq := if d.getLsbD 0 then rearm s.peSeq else s.peSeq
          prgSeq := if d.getLsbD 1 || d.getLsbD 0 then rearm s.prgSeq else s.prgSeq }) := by
  unfold writePecr
  cases hb : s.bsy
  · cases hl : s.pecr.pelock
    · by_cases h48 : (d.getLsbD 4 || d.getLsbD 8) = true
      · refine .inr (.inr (.inl ?_))
        simp only [h48, Bool.false_eq_true, if_false, if_true]
      · by_cases hm : modeOf (d.getLsbD 3) (d.getLsbD 9) (d.getLsbD 10) = .reserved
        · simp only [h48, hm, Bool.false_eq_true, if_false, if_true, true_or, or_true]
        · refine .inr (.inr (.inr (.inr ⟨rfl, rfl, hm, ?_⟩)))
          simp only [h48, hm, Bool.false_eq_true, if_false]
    · simp
  · simp

/-- R72: a locked array write changes nothing, or sets WRPERR under LOCKED_WRITE_RAISES. -/
theorem State.arrWrLocked_cases (s : State) :
    s.arrWrLocked = s ∨ (s.cfg.lockedWriteRaises = true ∧ s.arrWrLocked = { s with err := s.err ||| bit 8 }) := by
  unfold arrWrLocked
  cases s.cfg.lockedWriteRaises <;> simp

/-- R71: an array write raises a code, sets WRPERR at most, or starts or feeds an operation; nothing else changes. -/
theorem State.arrayWrite_cases (s : State) (a d : Word) :
    (∃ c, s.arrayWrite a d = s.raiseUb c) ∨ s.arrayWrite a d = s.raiseRef .unmapped ∨
    (s.op = .idle ∧ s.unlocked = false ∧ s.arrayWrite a d = s.arrWrLocked) ∨
    (s.op = .idle ∧ s.unlocked = true ∧ s.cfg.inFlash a = true ∧ s.mode = .word ∧ a.toNat % 4 = 0 ∧
      s.arrayWrite a d = { s with op := .busy (.word a d) }) ∨
    (s.op = .idle ∧ s.unlocked = true ∧ s.cfg.inFlash a = true ∧ s.mode = .erasePage ∧ a.toNat % s.cfg.pageBytes = 0 ∧
      s.arrayWrite a d = { s with op := .busy (.erase a) }) ∨
    (s.op = .idle ∧ s.unlocked = true ∧ s.cfg.inFlash a = true ∧ s.mode = .halfPage ∧ a.toNat % s.cfg.halfBytes = 0 ∧
      s.primask = true ∧
      s.arrayWrite a d = { s with op := if s.cfg.n = 1 then .busy (.half a [d]) else .hpFill a [d] }) ∨
    (∃ b buf, s.op = .hpFill b buf ∧ s.primask = true ∧
      s.arrayWrite a d =
        { s with op := if buf.length + 1 = s.cfg.n then .busy (.half b (buf ++ [d])) else .hpFill b (buf ++ [d]) }) := by
  unfold arrayWrite
  cases hf : s.cfg.inFlash a
  · simp
  · cases ho : s.op with
    | busy op => exact .inl ⟨.arrayWriteWhileBusy, by simp⟩
    | hpFill b buf =>
      simp only [Bool.not_true, Bool.false_eq_true, if_false, arrWrHpNext]
      split
      · exact .inl ⟨_, rfl⟩
      · cases hp : s.primask
        · exact .inl ⟨.hpIrqEnabled, by simp⟩
        · refine .inr (.inr (.inr (.inr (.inr (.inr ⟨b, buf, rfl, rfl, ?_⟩)))))
          by_cases hn : buf.length + 1 = s.cfg.n <;> simp [hn]
    | idle =>
      simp only [Bool.not_true, Bool.false_eq_true, if_false]
      by_cases hl : (s.pecr.pelock || s.pecr.prglock) = true
      · have hu : s.unlocked = false := by
          unfold unlocked
          cases h1 : s.pecr.pelock <;> cases h2 : s.pecr.prglock <;> simp_all
        exact .inr (.inr (.inl ⟨trivial, hu, by simp [hl]⟩))
      · have hu : s.unlocked = true := by
          unfold unlocked
          cases h1 : s.pecr.pelock <;> cases h2 : s.pecr.prglock <;> simp_all
        rw [if_neg hl]
        cases hm : s.mode with
        | word =>
          by_cases ha : a.toNat % 4 = 0
          · exact .inr (.inr (.inr (.inl ⟨trivial, hu, trivial, rfl, ha, by simp [arrWrWord, ha]⟩)))
          · exact .inl ⟨.misalignedWord, by simp [arrWrWord, ha]⟩
        | erasePage =>
          by_cases ha : a.toNat % s.cfg.pageBytes = 0
          · exact .inr (.inr (.inr (.inr (.inl ⟨trivial, hu, trivial, rfl, ha, by simp [arrWrErase, ha]⟩))))
          · exact .inl ⟨.misalignedErase, by simp [arrWrErase, ha]⟩
        | halfPage =>
          by_cases ha : a.toNat % s.cfg.halfBytes = 0
          · cases hp : s.primask
            · exact .inl ⟨.hpIrqEnabled, by simp [arrWrHpFirst, ha, hp]⟩
            · refine .inr (.inr (.inr (.inr (.inr (.inl ⟨trivial, hu, trivial, rfl, ha, rfl, ?_⟩)))))
              by_cases hn : s.cfg.n = 1 <;> simp [arrWrHpFirst, ha, hp, hn]
          · exact .inl ⟨.misalignedHalf, by simp [arrWrHpFirst, ha]⟩
        | reserved => exact .inl ⟨.reservedMode, rfl⟩

/-- R88: an NVIC enable write is refused, sets irq_en, or changes nothing. -/
theorem State.writeNvicIser_cases (s : State) (d : Word) :
    s.writeNvicIser d = s.raiseRef .otherIrq ∨ s.writeNvicIser d = { s with irqEn := true } ∨ s.writeNvicIser d = s := by
  unfold writeNvicIser
  split
  · exact .inl rfl
  · split
    · exact .inr (.inl rfl)
    · exact .inr (.inr rfl)

/-! ## The steps of the agents -/

/-- R68, R112: drawing words uses draws and writes words of the list; every other field is unchanged. -/
theorem drawWords_frame (ws : List Word) (s : State) :
    ∃ m ds k, drawWords ws s = { s with mem := m, draws := ds, drawCount := k } := by
  induction ws generalizing s with
  | nil => exact ⟨s.mem, s.draws, s.drawCount, rfl⟩
  | cons w ws ih =>
    obtain ⟨m, ds, k, h⟩ := ih { s.useDraw with mem := Memory.writeWord s.mem w s.nextDraw }
    exact ⟨m, ds, k, by rw [drawWords, h]; rfl⟩

theorem drawWords_wf (ws : List Word) (s : State) (h : Memory.wf s.mem = true) :
    Memory.wf (drawWords ws s).mem = true := by
  induction ws generalizing s with
  | nil => exact h
  | cons w ws ih => exact ih _ (Memory.writeWord_wf _ _ _ h)

/-- Drawing words leaves every byte outside them. -/
theorem drawWords_other (ws : List Word) (s : State) (b : Nat) (h : Memory.wf s.mem = true)
    (hb : ∀ w ∈ ws, b < w.toNat ∨ w.toNat + 4 ≤ b) :
    Memory.readByte (drawWords ws s).mem b = Memory.readByte s.mem b := by
  induction ws generalizing s with
  | nil => rfl
  | cons w ws ih =>
    rw [drawWords, ih _ (Memory.writeWord_wf _ _ _ h) (fun w' hw' => hb w' (List.mem_cons_of_mem _ hw'))]
    exact Memory.readByte_writeWord_other _ _ _ _ h (hb w List.mem_cons_self)

/-- Every instruction answers a next state (the model's instructions neither fault nor are refused). -/
theorem exec_next (i : Instr) (s : State) : ∃ t, exec i s = .next t := by
  have hb : ∀ (r : ReadResult) (x : Temp) (s : State), ∃ t, r.bind x s = .next t := fun r x s => by
    rcases r.bind_next x s with ⟨v, s1, -, h⟩ | ⟨s1, -, h⟩ | ⟨-, h⟩ <;> exact ⟨_, h⟩
  have hp : ∀ (g : Target) (m v : Word) (s : State), ∃ t, execPoll g m v s = .next t := fun g m v s => by
    unfold execPoll
    split
    · split <;> exact ⟨_, rfl⟩
    · exact ⟨_, rfl⟩
    · exact ⟨_, rfl⟩
  cases i with
  | brnz x m l => unfold exec execBrnz; dsimp only; split <;> exact ⟨_, rfl⟩
  | acquireChecked sc l => cases sc <;> exact ⟨_, rfl⟩
  | poll g m v => exact hp g m v s
  | waitDone => exact hp _ _ _ _
  | rdPekeyr x => exact hb (.value 0#32 s) x s
  | rdPrgkeyr x => exact hb (.value 0#32 s) x s
  | rdPecr x => exact hb (.value s.pecr.toWord s) x s
  | rdSr x => exact hb (.value s.readSr s.useDraw) x s
  | rdArrW a x => exact hb _ x s
  | rdArrH a x => exact hb _ x s
  | rdArrB a x => exact hb _ x s
  | ldbuf k x => exact hb _ x s
  | release => exact hb (.value s.pecr.toWord (s.expand releaseItems)) .seqT (s.expand releaseItems)
  | _ => exact ⟨_, rfl⟩

/-- R101: the agent chosen has a step; where no agent is chosen, neither the CPU nor the controller has one. -/
theorem nextAgent_cases (busy ready : Bool) (n : Nat) (l : List Input) :
    (∃ rest m, nextAgent busy ready n l = some (.cpu, rest, m) ∧ ready = true) ∨
    (∃ rest m, nextAgent busy ready n l = some (.complete, rest, m) ∧ busy = true) ∨
    (∃ rest m, nextAgent busy ready n l = some (.reset, rest, m)) ∨
    (nextAgent busy ready n l = none ∧ busy = false ∧ ready = false) := by
  induction l with
  | nil =>
    simp only [nextAgent, freeAgent]
    repeat' split
    all_goals simp_all
  | cons x rest ih =>
    cases x with
    | cpu => cases ready <;> simp_all [nextAgent]
    | complete => cases busy <;> simp_all [nextAgent]
    | reset => simp [nextAgent]

/-- A CPU step that is ready answers a next state. -/
theorem runCpu_next (v : CpuStep) (s : State) (h : v.ready = true) : ∃ t, runCpu v s = .next t := by
  cases v with
  | run i => exact exec_next i s
  | held => exact ⟨s, rfl⟩
  | none why => simp [CpuStep.ready] at h
  | _ => exact ⟨_, rfl⟩

/-- The pending operation is an erase or a word program: the two for which a read of its bank holds (R38). -/
def OpState.stalls : OpState → Prop
  | .busy (.erase _) | .busy (.word _ _) => True
  | .idle | .hpFill _ _ | .busy (.half _ _) => False

theorem OpState.stalls_busy {o : OpState} (h : o.stalls) : ∃ op, o = .busy op := by
  cases o with
  | busy op => exact ⟨op, rfl⟩
  | _ => exact h.elim

theorem State.readGate_hold {a : Word} (h : s.readGate a = .hold) : s.op.stalls := by
  unfold readGate at h
  split at h
  · simp at h
  · split at h <;> simp at h
  · split at h <;> simp at h
  · next ho => simp [ho, OpState.stalls]
  · next ho => simp [ho, OpState.stalls]

theorem State.readArray_isHeld {sz : Size} {a : Word} (h : (s.readArray sz a).isHeld = true) : s.readGate a = .hold := by
  rcases s.readArray_cases sz a with ⟨-, e⟩ | ⟨-, -, e⟩ | ⟨-, -, ⟨hg, e⟩ | ⟨-, e⟩ | ⟨-, e⟩⟩
  case inr.inr.inl => exact hg
  all_goals simp [e, ReadResult.isHeld] at h

theorem State.readBusWord_isHeld {a : Word} (h : (s.readBusWord a).isHeld = true) : s.readGate a = .hold := by
  unfold readBusWord at h
  split at h
  case h_6 => exact readArray_isHeld h
  all_goals simp [ReadResult.isHeld] at h

theorem State.readBuf_isHeld {k : Nat} (h : (s.readBuf k).isHeld = true) : s.readGate (s.bufAddr k) = .hold := by
  unfold readBuf at h
  split at h
  · simp [ReadResult.isHeld] at h
  · split at h
    · exact readArray_isHeld h
    · simp [ReadResult.isHeld] at h

/-- An instruction holds only at a read of the bank of a pending erase or word program. -/
theorem State.instrHeld_stalls {i : Instr} (h : s.instrHeld i = true) : s.op.stalls := by
  cases i <;> simp only [instrHeld, Bool.false_eq_true] at h
  · exact readGate_hold (readArray_isHeld h)
  · exact readGate_hold (readArray_isHeld h)
  · exact readGate_hold (readArray_isHeld h)
  · exact readGate_hold (readBuf_isHeld h)
  · exact readGate_hold (readBusWord_isHeld h)

/-- R38: a CPU that holds waits for a pending erase or word program. -/
theorem State.cpuStep_held (h : s.cpuStep = .held) : s.op.stalls := by
  unfold cpuStep at h
  split at h
  · simp at h
  · split at h
    · simp at h
    · split at h
      · split at h <;> simp at h
      · split at h
        · simp at h
        · split at h
          · simp at h
          · split at h
            · next hf =>
              unfold fetchGate at hf
              split at hf
              · exact readGate_hold hf
              · simp at hf
            · simp at h
            · split at h
              · next hh => exact instrHeld_stalls hh
              · simp at h

/-- A POLL whose 32-bit read the decoder refuses is refused with it (A30), and its read raises that code. -/
theorem State.pollRefused_poll {g : Target} {m v : Word} {c : RefCode}
    (h : decodeRead s.cfg 2#2 (s.evalTarget g) .seqT = .error c) :
    s.pollRefused (.poll g m v) = true ∧ s.readBusWord (s.evalTarget g) = .raised (s.raiseRef c) := by
  refine ⟨by simp [pollRefused, Size.code, h], ?_⟩
  unfold decodeRead at h
  unfold readBusWord
  split at h
  all_goals next hr => simp_all [wordOnly]

/-- Only a POLL is refused so. -/
theorem State.pollRefused_elim {i : Instr} (h : s.pollRefused i = true) :
    ∃ g m v c, i = .poll g m v ∧ decodeRead s.cfg 2#2 (s.evalTarget g) .seqT = .error c := by
  cases i <;> simp only [pollRefused, Bool.false_eq_true] at h
  next g m v =>
  split at h
  · next c hd => exact ⟨g, m, v, c, rfl, hd⟩
  · simp at h

/-- One step is one step of one agent, followed by the latch of R84; the order of the agents loses what was used. -/
theorem step_cases (h : step s = .next t) :
    (∃ rest n u, nextAgent s.completeEnabled s.cpuStep.ready s.turnCount s.inputs = some (.cpu, rest, n) ∧
      s.cpuStep.ready = true ∧ runCpu s.cpuStep { s with inputs := rest, turnCount := n } = .next u ∧ t = u.latch) ∨
    (∃ rest n, nextAgent s.completeEnabled s.cpuStep.ready s.turnCount s.inputs = some (.complete, rest, n) ∧
      s.completeEnabled = true ∧ t = { s.complete with inputs := rest, turnCount := n }.latch) ∨
    (∃ rest n, nextAgent s.completeEnabled s.cpuStep.ready s.turnCount s.inputs = some (.reset, rest, n) ∧
      t = { s.applyReset with inputs := rest, turnCount := n }.latch) := by
  unfold step machineStep at h
  rcases nextAgent_cases s.completeEnabled s.cpuStep.ready s.turnCount s.inputs with
    ⟨r, n, ha, hr⟩ | ⟨r, n, ha, hr⟩ | ⟨r, n, ha⟩ | ⟨ha, hb, hr⟩
  · obtain ⟨u, hu⟩ := runCpu_next s.cpuStep { s with inputs := r, turnCount := n } hr
    simp only [ha, hu, latchNext, Host.Outcome.next.injEq] at h
    exact .inl ⟨r, n, u, ha, hr, hu, h.symm⟩
  · simp only [ha, latchNext, Host.Outcome.next.injEq] at h
    exact .inr (.inl ⟨r, n, ha, hr, h.symm⟩)
  · simp only [ha, latchNext, Host.Outcome.next.injEq] at h
    exact .inr (.inr ⟨r, n, ha, h.symm⟩)
  · rw [ha] at h
    cases hv : s.cpuStep with
    | none why => simp [hv, runCpu] at h
    | held =>
      obtain ⟨op, ho⟩ := OpState.stalls_busy (State.cpuStep_held hv)
      simp [State.completeEnabled, ho] at hb
    | entry => simp [hv, CpuStep.ready] at hr
    | run i => simp [hv, CpuStep.ready] at hr
    | refuse c => simp [hv, CpuStep.ready] at hr
    | placement => simp [hv, CpuStep.ready] at hr

/-- Whichever agent moves, if the controller or the CPU has a step, the machine has one. -/
theorem step_next (h : s.completeEnabled = true ∨ s.cpuStep.ready = true) : ∃ t, step s = .next t := by
  unfold step machineStep
  rcases nextAgent_cases s.completeEnabled s.cpuStep.ready s.turnCount s.inputs with
    ⟨r, n, ha, hr⟩ | ⟨r, n, ha, hr⟩ | ⟨r, n, ha⟩ | ⟨ha, hb, hr⟩
  · obtain ⟨u, hu⟩ := runCpu_next s.cpuStep { s with inputs := r, turnCount := n } hr
    simp only [ha, hu, latchNext]
    exact ⟨_, rfl⟩
  · simp only [ha, latchNext]
    exact ⟨_, rfl⟩
  · simp only [ha, latchNext]
    exact ⟨_, rfl⟩
  · simp [hb, hr] at h

/-- The CPU runs the instruction its next item decodes to (R49, R100). -/
theorem cpuStep_run {i : Instr} {item : Item} (hh : s.halted = false) (he : s.entryEnabled = false)
    (hi : s.prog.items[s.pc]? = some item) (hd : decode s.cfg s.arrForm (s.evalItem item) = .ok i)
    (hf : s.fetchGate = .go) (hn : s.instrHeld i = false) : s.cpuStep = .run i := by
  simp [State.cpuStep, hh, he, hi, hd, hf, hn]

/-- A POLL that the decoder refuses is run whatever the fetch check says (A30). -/
theorem cpuStep_pollRefused {i : Instr} {item : Item} (hh : s.halted = false) (he : s.entryEnabled = false)
    (hi : s.prog.items[s.pc]? = some item) (hd : decode s.cfg s.arrForm (s.evalItem item) = .ok i)
    (hp : s.pollRefused i = true) : s.cpuStep = .run i := by
  simp [State.cpuStep, hh, he, hi, hd, hp]

/-- What the CPU running an instruction means: the item at pc decodes to it, and it is a refused POLL, or it may be
fetched and does not hold. -/
theorem cpuStep_eq_run {i : Instr} (h : s.cpuStep = .run i) :
    s.halted = false ∧ s.entryEnabled = false ∧
    ∃ item, s.prog.items[s.pc]? = some item ∧ decode s.cfg s.arrForm (s.evalItem item) = .ok i ∧
      (s.pollRefused i = true ∨ s.fetchGate = .go ∧ s.instrHeld i = false) := by
  unfold State.cpuStep at h
  split at h
  · simp at h
  · next hh =>
    split at h
    · simp at h
    · next he =>
      simp only [Bool.not_eq_true] at hh he
      split at h
      · split at h <;> simp at h
      · next item hi =>
        split at h
        · simp at h
        · next j hd =>
          split at h
          · next hp =>
            simp only [CpuStep.run.injEq] at h
            subst h
            exact ⟨hh, he, item, hi, hd, .inl hp⟩
          · split at h
            · simp at h
            · simp at h
            · next hf =>
              split at h
              · simp at h
              · next hn =>
                simp only [CpuStep.run.injEq] at h
                subst h
                simp only [Bool.not_eq_true] at hn
                exact ⟨hh, he, item, hi, hd, .inr ⟨hf, hn⟩⟩

end Sys2Proof.Machine
end

