-- ==== Sys2Proof/Laws/Exec.lean ====
section
/-! SUPPORT. One inversion lemma for the instructions, and one for each of the steps of the controller and the
environment: everything they can do to the state. -/

namespace Sys2Proof.Machine

variable {s t : State}

/-- What a CPU step that runs an instruction may do, apart from pc, the temporaries and the program's text. -/
inductive CpuEffect (s : State) : State → Prop where
  | same : CpuEffect s s
  | drawn : CpuEffect s s.useDraw
  | ub (c : UbCode) : CpuEffect s (s.raiseUb c)
  | ref (c : RefCode) : CpuEffect s (s.raiseRef c)
  | pekeyr (d : Word) : CpuEffect s (s.writePekeyr d)
  | prgkeyr (d : Word) : CpuEffect s (s.writePrgkeyr d)
  | pecr (d : Word) : CpuEffect s (s.writePecr d)
  | sr (d : Word) : CpuEffect s (s.writeSr d)
  | array (a d : Word) : CpuEffect s (s.arrayWrite a d)
  | nvicIpr (d : Word) : CpuEffect s (s.writeNvicIpr d)
  | nvicIser (d : Word) : CpuEffect s (s.writeNvicIser d)
  | mask (b : Bool) : CpuEffect s { s with primask := b }
  | halt : CpuEffect s { s with halted := true }

/-- The CPU's own part of a step: pc and the temporaries. -/
def cpuLocal (c t : State) : Prop :=
  ∃ pc temps x y, (sparseWfFrom 0#32 0 c.temps = true → sparseWfFrom 0#32 0 temps = true) ∧
    t = { c with pc := pc, temps := temps, seqT := x, seqT2 := y }

theorem cpuLocal_pc (c : State) (pc : Nat) : cpuLocal c { c with pc := pc } :=
  ⟨pc, c.temps, c.seqT, c.seqT2, id, rfl⟩

theorem cpuLocal_advance (c : State) : cpuLocal c c.advance := cpuLocal_pc c (c.pc + 1)

theorem cpuLocal_writeTemp (c : State) (x : Temp) (v : Word) (pc : Nat) : cpuLocal c { c.writeTemp x v with pc := pc } :=
  ⟨pc, (c.writeTemp x v).temps, (c.writeTemp x v).seqT, (c.writeTemp x v).seqT2, c.writeTemp_temps_wf x v,
    by cases x <;> rfl⟩

/-- What a read leaves is an effect of the CPU. -/
theorem ReadResult.leaves_effect {r : ReadResult} (h : r.leaves s) :
    (∀ v u, r = .value v u → CpuEffect s u) ∧ (∀ u, r = .raised u → CpuEffect s u) := by
  refine ⟨?_, ?_⟩
  · rintro v u rfl
    rcases h with rfl | rfl
    · exact .same
    · exact .drawn
  · rintro u rfl
    rcases h with ⟨c, rfl⟩ | ⟨c, rfl⟩
    · exact .ub c
    · exact .ref c

/-- A read item's end: the value bound, a code raised, or the CPU waiting. -/
theorem ReadResult.bind_effect (r : ReadResult) (x : Temp) (hr : r.leaves s) (h : r.bind x s = .next t) :
    ∃ c, CpuEffect s c ∧ cpuLocal c t := by
  cases r with
  | value v u =>
    simp only [ReadResult.bind, Host.Outcome.next.injEq] at h
    exact ⟨u, (leaves_effect hr).1 v u rfl, h ▸ cpuLocal_writeTemp u x v _⟩
  | raised u =>
    simp only [ReadResult.bind, Host.Outcome.next.injEq] at h
    exact ⟨u, (leaves_effect hr).2 u rfl, h ▸ cpuLocal_advance u⟩
  | held =>
    simp only [ReadResult.bind, Host.Outcome.next.injEq] at h
    exact ⟨s, .same, h ▸ cpuLocal_pc s s.pc⟩

theorem execPoll_effect {g : Target} {m v : Word} (h : execPoll g m v s = .next t) :
    ∃ c, CpuEffect s c ∧ cpuLocal c t := by
  have hl := ReadResult.leaves_effect (s.readBusWord_leaves (s.evalTarget g))
  unfold execPoll at h
  split at h
  · next w u hr =>
    split at h
    all_goals
      simp only [Host.Outcome.next.injEq] at h
      exact ⟨u, hl.1 w u hr, h ▸ cpuLocal_writeTemp u .seqT w _⟩
  · next u hr =>
    simp only [Host.Outcome.next.injEq] at h
    exact ⟨u, hl.2 u hr, h ▸ cpuLocal_pc u u.pc⟩
  · simp only [Host.Outcome.next.injEq] at h
    exact ⟨s, .same, h ▸ cpuLocal_pc s s.pc⟩

/-- The state with other items in its program: what a pseudo-instruction's expansion changes before its first item. -/
def State.withItems (s : State) (items : List Item) : State := { s with prog := { s.prog with items := items } }

/-- Everything an instruction can do: one effect of the list, and then the CPU's own part. A pseudo-instruction first
puts its items in its place (R55). -/
theorem exec_cases {i : Instr} (h : exec i s = .next t) :
    ∃ items c, CpuEffect (s.withItems items) c ∧ cpuLocal c t := by
  have own : ∀ {c : State}, CpuEffect s c → cpuLocal c t → ∃ items c, CpuEffect (s.withItems items) c ∧ cpuLocal c t :=
    fun {c} hc hl => ⟨s.prog.items, c, hc, hl⟩
  have adv : ∀ {c : State}, CpuEffect s c → Host.Outcome.next (ρ := Refusal) (φ := Fault) c.advance = .next t →
      ∃ items c, CpuEffect (s.withItems items) c ∧ cpuLocal c t := fun {c} hc ht => by
    simp only [Host.Outcome.next.injEq] at ht
    exact own hc (ht ▸ cpuLocal_advance c)
  have rd : ∀ {r : ReadResult} {x : Temp}, r.leaves s → r.bind x s = .next t →
      ∃ items c, CpuEffect (s.withItems items) c ∧ cpuLocal c t := fun hr ht => by
    obtain ⟨c, hc, hl⟩ := ReadResult.bind_effect _ _ hr ht
    exact own hc hl
  have mac : ∀ {b : List Item} {c : State}, CpuEffect (s.expand b) c →
      Host.Outcome.next (ρ := Refusal) (φ := Fault) c.advance = .next t →
      ∃ items c, CpuEffect (s.withItems items) c ∧ cpuLocal c t := fun {b c} hc ht => by
    simp only [Host.Outcome.next.injEq] at ht
    exact ⟨expandAt s.pc b s.prog.items, c, hc, ht ▸ cpuLocal_advance c⟩
  cases i with
  | wrPekeyr d => exact adv (.pekeyr d) h
  | rdPekeyr x => exact rd (r := .value 0#32 s) (.inl rfl) h
  | wrPrgkeyr d => exact adv (.prgkeyr d) h
  | rdPrgkeyr x => exact rd (r := .value 0#32 s) (.inl rfl) h
  | wrPecr d => exact adv (.pecr d) h
  | rdPecr x => exact rd (r := .value s.pecr.toWord s) (.inl rfl) h
  | wrSr d => exact adv (.sr d) h
  | rdSr x => exact rd (r := .value s.readSr s.useDraw) (.inr rfl) h
  | rdArrW a x => exact rd (s.readArray_leaves .word a) h
  | rdArrH a x => exact rd (s.readArray_leaves .half a) h
  | rdArrB a x => exact rd (s.readArray_leaves .byte a) h
  | arrWrLocked a d => exact adv (.array a d) h
  | arrWrWord a d => exact adv (.array a d) h
  | arrWrErase a d => exact adv (.array a d) h
  | arrWrHpFirst a d => exact adv (.array a d) h
  | arrWrHpNext a d => exact adv (.array a d) h
  | arrWrBusy a d => exact adv (.array a d) h
  | wrNvicIpr d => exact adv (.nvicIpr d) h
  | wrNvicIser d => exact adv (.nvicIser d) h
  | cpsid => exact adv (.mask true) h
  | cpsie => exact adv (.mask false) h
  | halt =>
    simp only [exec, execHalt, Host.Outcome.next.injEq] at h
    exact own .halt (h ▸ cpuLocal_pc _ s.pc)
  | ldbuf k x => exact rd (s.readBuf_leaves k) h
  | brnz x m l =>
    simp only [exec, execBrnz] at h
    split at h
    · simp only [Host.Outcome.next.injEq] at h
      exact own .same (h ▸ cpuLocal_pc s l)
    · exact adv .same h
  | poll g m v =>
    obtain ⟨c, hc, hl⟩ := execPoll_effect h
    exact own hc hl
  | acquirePe => exact mac (.pekeyr _) h
  | acquirePrg => exact mac (.prgkeyr _) h
  | acquireChecked sc l =>
    cases sc with
    | dataScope => exact mac (.pekeyr _) h
    | programScope => exact mac (.prgkeyr _) h
  | release =>
    obtain ⟨c, hc, hl⟩ := ReadResult.bind_effect (.value s.pecr.toWord (s.expand releaseItems)) .seqT (.inl rfl) h
    exact ⟨_, c, hc, hl⟩
  | waitDone =>
    obtain ⟨c, hc, hl⟩ := execPoll_effect h
    exact ⟨_, c, hc, hl⟩
  | erasePage a => exact mac (.pekeyr _) h
  | programWord a v => exact mac (.pekeyr _) h
  | programHalf b p w => exact mac (.pekeyr _) h
  | init => exact mac (.pekeyr _) h
  | cfgIrq p => exact mac (.nvicIpr _) h
  | faultHandler => exact mac (.sr _) h

/-- What no effect of the CPU changes. -/
theorem CpuEffect.frame {c : State} (h : CpuEffect s c) :
    c.prog = s.prog ∧ c.temps = s.temps ∧ c.cfg = s.cfg ∧ c.mem = s.mem ∧ c.boot = s.boot ∧ c.bufBase = s.bufBase ∧
    c.buf = s.buf ∧ c.inputs = s.inputs ∧ c.turnCount = s.turnCount ∧ c.irqPending = s.irqPending ∧ c.inHandler = s.inHandler ∧ c.pc = s.pc := by
  cases h with
  | pekeyr d =>
    rcases s.writePekeyr_cases d with h | ⟨-, -, q, -, h⟩ | ⟨-, -, -, h⟩ <;> rw [h] <;> simp
  | prgkeyr d =>
    rcases s.writePrgkeyr_cases d with h | ⟨-, -, q, -, h⟩ | ⟨-, -, -, -, h⟩ <;> rw [h] <;> simp
  | pecr d => rcases s.writePecr_cases d with h | h | h | h | ⟨-, -, -, h⟩ <;> rw [h] <;> simp
  | array a d =>
    rcases s.arrayWrite_cases a d with ⟨c, h⟩ | h | ⟨-, -, h⟩ | ⟨-, -, -, -, -, h⟩ | ⟨-, -, -, -, -, h⟩ | ⟨-, -, -, -, -, -, h⟩ |
      ⟨b, buf, -, -, h⟩ <;> rw [h]
    all_goals first | exact (by simp) | skip
    rcases s.arrWrLocked_cases with h | ⟨-, h⟩ <;> rw [h] <;> simp
  | nvicIser d => rcases s.writeNvicIser_cases d with h | h | h <;> rw [h] <;> simp
  | _ => simp [State.writeSr, State.writeNvicIpr]

/-- R49, R89, R100: everything a CPU step can do: take the interrupt, or one effect of the list and the CPU's own part. A
halted CPU does neither. `s'` is `s` with its inputs used. -/
theorem runCpu_cases {s' u : State} (hr : s.cpuStep.ready = true) (h : runCpu s.cpuStep s' = .next u) :
    s.halted = false ∧
    ((s.entryEnabled = true ∧ u = s'.takeEntry) ∨ ∃ items c, CpuEffect (s'.withItems items) c ∧ cpuLocal c u) := by
  have hh : s.halted = false := by
    cases hh : s.halted
    · rfl
    · simp [State.cpuStep, hh, CpuStep.ready] at hr
  refine ⟨hh, ?_⟩
  cases hc : s.cpuStep with
  | entry =>
    have he : s.entryEnabled = true := by
      unfold State.cpuStep at hc
      split at hc
      · simp at hc
      · split at hc
        · assumption
        · repeat' split at hc
          all_goals simp at hc
    rw [hc] at h
    simp only [runCpu, Host.Outcome.next.injEq] at h
    exact .inl ⟨he, h.symm⟩
  | run i =>
    rw [hc] at h
    exact .inr (exec_cases h)
  | refuse c =>
    rw [hc] at h
    simp only [runCpu, Host.Outcome.next.injEq] at h
    exact .inr ⟨s'.prog.items, _, .ref c, h ▸ cpuLocal_advance _⟩
  | placement =>
    rw [hc] at h
    simp only [runCpu, Host.Outcome.next.injEq] at h
    subst h
    exact .inr ⟨s'.prog.items, _, .ub .placement, cpuLocal_pc _ s'.pc⟩
  | held => simp [hc, CpuStep.ready] at hr
  | none w => simp [hc, CpuStep.ready] at hr

/-! ## The controller and the environment -/

/-- R68: COMPLETE changes the array, EOP, the error bits and op_state; it uses draws. -/
theorem State.complete_frame (s : State) : ∃ m ds k eop err, s.complete =
    { s with
      mem := m, draws := ds, drawCount := k, eop := eop, err := err
      op := if s.completeEnabled then .idle else s.op } := by
  cases ho : s.op with
  | busy op =>
    simp only [complete, ho, completeOp, completeEnabled]
    split
    · exact ⟨_, _, _, _, _, rfl⟩
    · split
      · exact ⟨_, _, _, _, _, rfl⟩
      · obtain ⟨m, ds, k, h⟩ := drawWords_frame (op.target s.useDraw.cfg) s.useDraw
        simp only [drawTarget, h]
        exact ⟨_, _, _, _, _, rfl⟩
  | idle =>
    refine ⟨s.mem, s.draws, s.drawCount, s.eop, s.err, ?_⟩
    simp only [complete, completeEnabled, ho]
    cases s
    simp_all
  | hpFill b buf =>
    refine ⟨s.mem, s.draws, s.drawCount, s.eop, s.err, ?_⟩
    simp only [complete, completeEnabled, ho]
    cases s
    simp_all

/-- R112: what RESET does to the array. -/
theorem State.resetArray_frame (s : State) :
    ∃ m ds k, s.resetArray = { s with mem := m, draws := ds, drawCount := k } := by
  unfold resetArray
  split
  · split
    · exact ⟨s.mem, s.draws, s.drawCount, rfl⟩
    · exact drawWords_frame _ _
  · exact ⟨s.mem, s.draws, s.drawCount, rfl⟩
  · exact ⟨s.mem, s.draws, s.drawCount, rfl⟩

/-- R111: everything RESET does. -/
theorem State.applyReset_frame (s : State) : ∃ m ds k, s.applyReset =
    { s with
      mem := m, draws := ds, drawCount := k, temps := [], seqT := 0#32, seqT2 := 0#32
      pecr := Pecr.reset, eop := false, err := 0#32, peSeq := .k0, prgSeq := .k0, op := .idle
      primask := false, irqEn := false, irqPrio := 0#8, irqPending := false, inHandler := false, halted := false
      prog := s.boot, pc := 0 } := by
  obtain ⟨m, ds, k, h⟩ := s.resetArray_frame
  exact ⟨m, ds, k, by simp only [applyReset, h, discardTemps]⟩

@[simp] theorem State.complete_turnCount (s : State) : s.complete.turnCount = s.turnCount := by
  obtain ⟨m, ds, k, eop, err, h⟩ := s.complete_frame
  rw [h]

@[simp] theorem State.applyReset_turnCount (s : State) : s.applyReset.turnCount = s.turnCount := by
  obtain ⟨m, ds, k, h⟩ := s.applyReset_frame
  rw [h]

/-! ## The interrupt line -/

theorem State.flashLine_iff (s : State) : s.flashLine = true ↔
    (s.pecr.errie = true ∧ s.err &&& Config.errMask ≠ 0#32) ∨ (s.pecr.eopie = true ∧ s.eop = true) := by
  simp only [flashLine, Bool.or_eq_true, Bool.and_eq_true, decide_eq_true_eq]

theorem State.latch_irqPending_iff (s : State) :
    s.latch.irqPending = true ↔ s.irqPending = true ∨ s.flashLine = true := by
  simp [latch]

end Sys2Proof.Machine
end

