-- ==== Sys2Proof/Laws/PerInstr.lean ====
section
/-! SUPPORT. A fact about every instruction, said once per constructor: the format of its encoding (R47, R48, R55). -/

namespace Sys2Proof.Laws.EncodingFormat

/-- A row without bits is written symbolically and every other row has a BUS word or a halfword, so that its encoding is
an item the decoder reads. -/
def Statement (i : Instr) : Prop :=
  ∀ c : Config, encode c i = .sym i ∧ i.symbolic = true ∨
    i.symbolic = false ∧ ((∃ T t, encode c i = .bus T t) ∨ ∃ h, encode c i = .cpu h)

theorem wrPekeyr (x : Word) : Statement (.wrPekeyr x) := fun _ => .inr ⟨rfl, .inl ⟨_, _, rfl⟩⟩
theorem rdPekeyr (x : Temp) : Statement (.rdPekeyr x) := fun _ => .inr ⟨rfl, .inl ⟨_, _, rfl⟩⟩
theorem wrPrgkeyr (x : Word) : Statement (.wrPrgkeyr x) := fun _ => .inr ⟨rfl, .inl ⟨_, _, rfl⟩⟩
theorem rdPrgkeyr (x : Temp) : Statement (.rdPrgkeyr x) := fun _ => .inr ⟨rfl, .inl ⟨_, _, rfl⟩⟩
theorem wrPecr (x : Word) : Statement (.wrPecr x) := fun _ => .inr ⟨rfl, .inl ⟨_, _, rfl⟩⟩
theorem rdPecr (x : Temp) : Statement (.rdPecr x) := fun _ => .inr ⟨rfl, .inl ⟨_, _, rfl⟩⟩
theorem wrSr (x : Word) : Statement (.wrSr x) := fun _ => .inr ⟨rfl, .inl ⟨_, _, rfl⟩⟩
theorem rdSr (x : Temp) : Statement (.rdSr x) := fun _ => .inr ⟨rfl, .inl ⟨_, _, rfl⟩⟩
theorem rdArrW (x : Word) (y : Temp) : Statement (.rdArrW x y) := fun _ => .inr ⟨rfl, .inl ⟨_, _, rfl⟩⟩
theorem rdArrH (x : Word) (y : Temp) : Statement (.rdArrH x y) := fun _ => .inr ⟨rfl, .inl ⟨_, _, rfl⟩⟩
theorem rdArrB (x : Word) (y : Temp) : Statement (.rdArrB x y) := fun _ => .inr ⟨rfl, .inl ⟨_, _, rfl⟩⟩
theorem arrWrLocked (x : Word) (y : Word) : Statement (.arrWrLocked x y) := fun _ => .inr ⟨rfl, .inl ⟨_, _, rfl⟩⟩
theorem arrWrWord (x : Word) (y : Word) : Statement (.arrWrWord x y) := fun _ => .inr ⟨rfl, .inl ⟨_, _, rfl⟩⟩
theorem arrWrErase (x : Word) (y : Word) : Statement (.arrWrErase x y) := fun _ => .inr ⟨rfl, .inl ⟨_, _, rfl⟩⟩
theorem arrWrHpFirst (x : Word) (y : Word) : Statement (.arrWrHpFirst x y) := fun _ => .inr ⟨rfl, .inl ⟨_, _, rfl⟩⟩
theorem arrWrHpNext (x : Word) (y : Word) : Statement (.arrWrHpNext x y) := fun _ => .inr ⟨rfl, .inl ⟨_, _, rfl⟩⟩
theorem arrWrBusy (x : Word) (y : Word) : Statement (.arrWrBusy x y) := fun _ => .inr ⟨rfl, .inl ⟨_, _, rfl⟩⟩
theorem wrNvicIpr (x : Word) : Statement (.wrNvicIpr x) := fun _ => .inr ⟨rfl, .inl ⟨_, _, rfl⟩⟩
theorem wrNvicIser (x : Word) : Statement (.wrNvicIser x) := fun _ => .inr ⟨rfl, .inl ⟨_, _, rfl⟩⟩
theorem cpsid : Statement .cpsid := fun _ => .inr ⟨rfl, .inr ⟨_, rfl⟩⟩
theorem cpsie : Statement .cpsie := fun _ => .inr ⟨rfl, .inr ⟨_, rfl⟩⟩
theorem halt : Statement .halt := fun _ => .inr ⟨rfl, .inr ⟨_, rfl⟩⟩
theorem ldbuf (x : Nat) (y : Temp) : Statement (.ldbuf x y) := fun _ => .inl ⟨rfl, rfl⟩
theorem brnz (x : Temp) (y : Word) (z : Nat) : Statement (.brnz x y z) := fun _ => .inl ⟨rfl, rfl⟩
theorem poll (x : Target) (y : Word) (z : Word) : Statement (.poll x y z) := fun _ => .inl ⟨rfl, rfl⟩
theorem acquirePe : Statement .acquirePe := fun _ => .inl ⟨rfl, rfl⟩
theorem acquirePrg : Statement .acquirePrg := fun _ => .inl ⟨rfl, rfl⟩
theorem acquireChecked (x : Scope) (y : Nat) : Statement (.acquireChecked x y) := fun _ => .inl ⟨rfl, rfl⟩
theorem release : Statement .release := fun _ => .inl ⟨rfl, rfl⟩
theorem waitDone : Statement .waitDone := fun _ => .inl ⟨rfl, rfl⟩
theorem erasePage (x : Word) : Statement (.erasePage x) := fun _ => .inl ⟨rfl, rfl⟩
theorem programWord (x : Word) (y : Word) : Statement (.programWord x y) := fun _ => .inl ⟨rfl, rfl⟩
theorem programHalf (x : Word) (y : Word) (z : Word) : Statement (.programHalf x y z) := fun _ => .inl ⟨rfl, rfl⟩
theorem init : Statement .init := fun _ => .inl ⟨rfl, rfl⟩
theorem cfgIrq (x : Word) : Statement (.cfgIrq x) := fun _ => .inl ⟨rfl, rfl⟩
theorem faultHandler : Statement .faultHandler := fun _ => .inl ⟨rfl, rfl⟩

end Sys2Proof.Laws.EncodingFormat
end

