-- ==== Sys2Proof/Laws/Run.lean ====
section
/-! SUPPORT. Steps of a program, item by item: what a step is when the CPU moves at a known item, how steps chain, and
where the items of an expanded pseudo-instruction stand. -/

namespace Sys2Proof.Machine

variable {s t u : State} {rest : List Input}

/-! ## Chaining steps -/

theorem run_one (h : step s = .next t) : Host.Core.run Sys2Proof.core 1 s = .next t := by
  simp only [Host.Core.run]
  rw [show Sys2Proof.core.step s = .next t from h]

/-- One more step after a run. -/
theorem run_snoc : ∀ {n : Nat} {s t u : State}, Host.Core.run Sys2Proof.core n s = .next t → step t = .next u →
    Host.Core.run Sys2Proof.core (n + 1) s = .next u
  | 0, _, _, _, h, h2 => by cases h; exact run_one h2
  | n + 1, s, t, u, h, h2 => by
    simp only [Host.Core.run] at h ⊢
    split at h
    · exact run_snoc h h2
    · cases h
    · cases h

/-! ## A CPU step at a known item -/

/-- The CPU's step at an item that decodes to `i`, may be fetched and does not hold. -/
theorem step_item {item : Item} {i : Instr} (hin : s.inputs = .cpu :: rest) (hh : s.halted = false)
    (he : s.entryEnabled = false) (hitem : s.prog.items[s.pc]? = some item)
    (hd : decode s.cfg s.arrForm (s.evalItem item) = .ok i) (hf : s.fetchGate = .go) (hn : s.instrHeld i = false)
    (hx : exec i { s with inputs := rest } = .next t) : step s = .next t.latch := by
  have hc := cpuStep_run hh he hitem hd hf hn
  unfold step machineStep
  rw [hin, hc]
  simp only [CpuStep.ready, nextAgent, if_true, runCpu, hx, latchNext]

/-- No interrupt is taken while one of the masks of R89 blocks it. -/
theorem entryEnabled_blocked (h : s.primask = true ∨ s.irqEn = false ∨ s.inHandler = true) :
    s.entryEnabled = false := by
  unfold State.entryEnabled
  rcases h with h | h | h <;> simp [h]

theorem entryEnabled_of_latch (h : s.latch.entryEnabled = false) : s.entryEnabled = false := by
  revert h
  simp only [State.entryEnabled, State.latch]
  cases s.irqPending <;> cases s.flashLine <;> simp

/-- No fetch waits or raises while nothing is pending (R38, R39). -/
theorem fetchGate_idle (h : s.op = .idle) : s.fetchGate = .go := by
  unfold State.fetchGate State.readGate
  rw [h]
  simp

theorem decode_wrReg (c : Config) (f : ArrForm) (r : RegName) (d : Word) (x : Temp) :
    decode c f (.bus (busWord true Size.word.code (regAddr c r) d) x) = decodeWrite c f 2#2 (regAddr c r) d :=
  decode_wordWrite _ _ _ _ _

theorem decode_rdReg (c : Config) (f : ArrForm) (r : RegName) (x : Temp) :
    decode c f (.bus (busWord false Size.word.code (regAddr c r) 0#32) x) = decodeRead c 2#2 (regAddr c r) x :=
  decode_read _ _ _ _ _ (by decide)

/-- The CPU moves next, is at `item`, and may fetch it. -/
structure AtItem (s : State) (item : Item) (rest : List Input) : Prop where
  inputs : s.inputs = .cpu :: rest
  halted : s.halted = false
  entry  : s.entryEnabled = false
  fetch  : s.fetchGate = .go
  item   : s.prog.items[s.pc]? = some item
  cfg_wf : s.cfg.wf = true

/-- `WR PEKEYR, x`. -/
theorem step_wrPekeyr {x : Expr} (h : AtItem s (.wr (.reg .pekeyr) x) rest) :
    step s = .next (({ s with inputs := rest }.writePekeyr (s.evalExpr x)).advance.latch) :=
  step_item (i := .wrPekeyr (s.evalExpr x)) h.inputs h.halted h.entry h.item
    ((decode_wrReg _ _ .pekeyr _ _).trans (by simp [decodeWrite, regAddr, regionOf_pekeyr, wordOnly])) h.fetch rfl rfl

/-- `WR PRGKEYR, x`. -/
theorem step_wrPrgkeyr {x : Expr} (h : AtItem s (.wr (.reg .prgkeyr) x) rest) :
    step s = .next (({ s with inputs := rest }.writePrgkeyr (s.evalExpr x)).advance.latch) :=
  step_item (i := .wrPrgkeyr (s.evalExpr x)) h.inputs h.halted h.entry h.item
    ((decode_wrReg _ _ .prgkeyr _ _).trans (by simp [decodeWrite, regAddr, regionOf_prgkeyr h.cfg_wf, wordOnly]))
    h.fetch rfl rfl

/-- `WR PECR, x`. -/
theorem step_wrPecr {x : Expr} (h : AtItem s (.wr (.reg .pecr) x) rest) :
    step s = .next (({ s with inputs := rest }.writePecr (s.evalExpr x)).advance.latch) :=
  step_item (i := .wrPecr (s.evalExpr x)) h.inputs h.halted h.entry h.item
    ((decode_wrReg _ _ .pecr _ _).trans (by simp [decodeWrite, regAddr, regionOf_pecr h.cfg_wf, wordOnly]))
    h.fetch rfl rfl

/-- `WR SR, x`. -/
theorem step_wrSr {x : Expr} (h : AtItem s (.wr (.reg .sr) x) rest) :
    step s = .next (({ s with inputs := rest }.writeSr (s.evalExpr x)).advance.latch) :=
  step_item (i := .wrSr (s.evalExpr x)) h.inputs h.halted h.entry h.item
    ((decode_wrReg _ _ .sr _ _).trans (by simp [decodeWrite, regAddr, regionOf_sr h.cfg_wf, wordOnly])) h.fetch rfl rfl

/-- `RD PECR -> x`. -/
theorem step_rdPecr {x : Temp} (h : AtItem s (.rd .word (.reg .pecr) x) rest) :
    step s = .next (({ s with inputs := rest }.writeTemp x s.pecr.toWord).advance.latch) :=
  step_item (i := .rdPecr x) h.inputs h.halted h.entry h.item
    ((decode_rdReg _ _ .pecr _).trans (by simp [decodeRead, regAddr, regionOf_pecr h.cfg_wf, wordOnly])) h.fetch rfl rfl

/-- `HALT`. -/
theorem step_halt (h : AtItem s (.code (.cpu 0xE7FE#16)) rest) :
    step s = .next ({ s with inputs := rest, halted := true }.latch) :=
  step_item h.inputs h.halted h.entry h.item (i := .halt) rfl h.fetch rfl rfl

/-- `POLL SR, mask, val` whose one read meets the condition. -/
theorem step_pollSr {m v : Word} (h : AtItem s (.code (.sym (.poll (.reg .sr) m v))) rest)
    (hv : s.readSr &&& m = v) :
    step s = .next (({ s with inputs := rest }.useDraw.writeTemp .seqT s.readSr).advance.latch) := by
  refine step_item (i := .poll (.reg .sr) m v) h.inputs h.halted h.entry h.item rfl h.fetch ?_ ?_
  · simp [State.instrHeld, State.evalTarget, regAddr, State.readBusWord, regionOf_sr h.cfg_wf, ReadResult.isHeld]
  · simp only [exec, execPoll, State.evalTarget, regAddr, State.readBusWord]
    rw [show regionOf _ (State.cfg _).srAddr = Region.sr from regionOf_sr h.cfg_wf]
    simp only
    rw [show State.readSr { s with inputs := rest } = s.readSr from rfl, if_neg (not_not.2 hv)]

/-- `WR [e], x` to the array. -/
theorem step_wrArray {e x : Expr} (h : AtItem s (.wr (.addr e) x) rest)
    (hf : s.cfg.inFlash (s.evalExpr e) = true) :
    step s = .next (({ s with inputs := rest }.arrayWrite (s.evalExpr e) (s.evalExpr x)).advance.latch) := by
  have hd : decode s.cfg s.arrForm (s.evalItem (.wr (.addr e) x)) =
      .ok (s.arrForm.instr (s.evalExpr e) (s.evalExpr x)) := by
    show decode _ _ (.bus (busWord true 2#2 _ _) _) = _
    rw [decode_wordWrite]
    simp only [decodeWrite, regionOf_flash h.cfg_wf _ hf, wordOnly, State.evalTarget]
    rfl
  refine step_item h.inputs h.halted h.entry h.item hd h.fetch ?_ ?_
  · cases s.arrForm <;> rfl
  · cases s.arrForm <;> rfl

/-! ## Expansion -/

/-- After the pseudo-instruction at `pc` has been expanded, item `k` of its body stands at `pc + k`. -/
theorem expandAt_get (pc k : Nat) (body items : List Item) (h : pc < items.length) (hk : k < body.length) :
    (expandAt pc body items)[pc + k]? = (body[k]?).map (Item.relabel pc body.length) := by
  unfold expandAt
  rw [List.getElem?_map]
  congr 1
  have ht : (items.take pc).length = pc := by simp; omega
  rw [List.append_assoc, List.getElem?_append_right (by omega), ht, Nat.add_sub_cancel_left,
    List.getElem?_append_left hk]

end Sys2Proof.Machine
end

