-- ==== Sys2Proof/Tests/Slice0.lean ====
section
/-! SUPPORT. Tests of one decoding or one step each. Every expected result is from spec/ (95_test_vectors.md unless a
comment names another file); and for each statement with hypotheses a witness that meets them. -/

namespace Sys2Proof.Tests

open Sys2Proof.Machine

/-! ## Helpers -/

/-- What holds after an instruction. -/
def after (i : Instr) (s : State) (p : State → Bool) : Bool :=
  match exec i s with
  | .next t => p t
  | .fault _ | .refused _ => false

/-- What holds after a step. -/
def afterStep (s : State) (p : State → Bool) : Bool :=
  match step s with
  | .next t => p t
  | .fault _ | .refused _ => false

/-- The decoder gives this instruction. -/
def decodesTo (c : Config) (f : ArrForm) (e : Code) (i : Instr) : Bool :=
  match decode c f e with
  | .ok j => decide (j = i)
  | .error _ => false

/-- The decoder refuses with this code. -/
def refusedAs (c : Config) (f : ArrForm) (e : Code) (r : RefCode) : Bool :=
  match decode c f e with
  | .ok _ => false
  | .error q => decide (q = r)

/-- PECR with the bits of a word. -/
def pecrOf (d : Word) : Pecr :=
  { pelock := d.getLsbD 0, prglock := d.getLsbD 1, prog := d.getLsbD 3, erase := d.getLsbD 9, fprg := d.getLsbD 10
    eopie := d.getLsbD 16, errie := d.getLsbD 17 }

/-- The state after reset with PECR = `d`. -/
def st (d : Word) : State := { State.reset with pecr := pecrOf d }

/-- The same with a pending operation or fill. -/
def stOp (d : Word) (op : OpState) : State := { st d with op := op }

def sticky : Config := { Config.default with keyErrorPolicy := .sticky }

/-- P14: a second bank from 0x0800_8000. -/
def twoBanks : Config := { Config.default with bankOfPage := List.replicate 256 0 ++ List.replicate 256 1 }

/-- Arr[0x0800_3000] = 0xDEAD_BEEF. -/
def beef : List Host.Cell :=
  [(0x08003000, 0xEF#8), (0x08003001, 0xBE#8), (0x08003002, 0xAD#8), (0x08003003, 0xDE#8)]

/-- `s` about to run the items, the CPU moving first. -/
def running (s : State) (items : List Item) : State :=
  { s with prog := { base := 0x20000000#32, bytes := 64, items := items }, inputs := [.cpu] }

def erasing : OpState := .busy (.erase 0x08003000#32)
def wordPending : OpState := .busy (.word 0x08003000#32 0xDEADBEEF#32)
def filling : OpState := .hpFill 0x08003000#32 [7#32]
def burst : OpState := .busy (.half 0x08003000#32 (List.replicate 16 7#32))

/-! ## Decoding, each word written out from R47 or R48 (programs 1 and 3 give several of them) -/

theorem test_decode_wrPekeyr : decodeTableWord 72 0x64002200C89ABCDEF = some (.wrPekeyr 0x89ABCDEF#32) := by decide
theorem test_decode_rdPekeyr : decodeTableWord 72 0x24002200C00000000 = some (.rdPekeyr (.user 0)) := by decide
theorem test_decode_wrPrgkeyr : decodeTableWord 72 0x6400220108C9DAEBF = some (.wrPrgkeyr 0x8C9DAEBF#32) := by decide
theorem test_decode_rdPrgkeyr : decodeTableWord 72 0x24002201000000000 = some (.rdPrgkeyr (.user 0)) := by decide
theorem test_decode_wrPecr : decodeTableWord 72 0x64002200400020208 = some (.wrPecr 0x00020208#32) := by decide
theorem test_decode_rdPecr : decodeTableWord 72 0x24002200400000000 = some (.rdPecr (.user 0)) := by decide
theorem test_decode_wrSr : decodeTableWord 72 0x64002201800000002 = some (.wrSr 0x00000002#32) := by decide
theorem test_decode_rdSr : decodeTableWord 72 0x24002201800000000 = some (.rdSr (.user 0)) := by decide
theorem test_decode_rdArrW : decodeTableWord 72 0x20800300000000000 = some (.rdArrW 0x08003000#32 (.user 0)) := by decide
theorem test_decode_rdArrH : decodeTableWord 72 0x10800300200000000 = some (.rdArrH 0x08003002#32 (.user 0)) := by decide
theorem test_decode_rdArrB : decodeTableWord 72 0x00800300100000000 = some (.rdArrB 0x08003001#32 (.user 0)) := by decide
theorem test_decode_arrayWrite :
    decodeTableWord 72 0x608003000DEADBEEF = some (.arrWrLocked 0x08003000#32 0xDEADBEEF#32) := by decide
theorem test_decode_wrNvicIpr : decodeTableWord 72 0x6E000E40040000000 = some (.wrNvicIpr 0x40000000#32) := by decide
theorem test_decode_wrNvicIser : decodeTableWord 72 0x6E000E10000000008 = some (.wrNvicIser 0x00000008#32) := by decide
theorem test_decode_cpsid : decodeTableWord 16 0b1011011001110010 = some .cpsid := by decide
theorem test_decode_cpsie : decodeTableWord 16 0b1011011001100010 = some .cpsie := by decide
theorem test_decode_halt : decodeTableWord 16 0b1110011111111110 = some .halt := by decide
/-- R71: the state selects the row of the array write. -/
theorem test_decode_arrayWrite_rows :
    ([(ArrForm.word, Instr.arrWrWord 0x08003000#32 5#32), (.erase, .arrWrErase 0x08003000#32 5#32),
      (.hpFirst, .arrWrHpFirst 0x08003000#32 5#32), (.hpNext, .arrWrHpNext 0x08003000#32 5#32),
      (.busy, .arrWrBusy 0x08003000#32 5#32)].all fun p =>
        decodesTo Config.default p.1 (.bus 0x60800300000000005#67 (.user 0)) p.2) = true := by decide
/-- Symbolic items name their rows; a row with bits is not written symbolically. -/
theorem test_decode_symbolic :
    decodesTo Config.default .locked (.sym (.ldbuf 16 .seqT2)) (.ldbuf 16 .seqT2) = true ∧
    refusedAs Config.default .locked (.sym .halt) .encoding = true := by decide
/-- R53: reserved and illegal encodings, each by its name. -/
theorem test_decode_refusals :
    ([(0x74002200400000000#67, RefCode.encoding),   -- SZ = 3 to PECR (X-1)
      (0x24002200400000001#67, .encoding),          -- a read with data
      (0x54002200400000000#67, .width),             -- a 16-bit write of PECR
      (0x24002200000000000#67, .regOffset),         -- offset 0 of the window
      (0x40800300000000000#67, .width),             -- WR.B to the array (R-11)
      (0x2E000E40000000000#67, .unmapped),          -- a read of an NVIC word
      (0x62000000000000000#67, .unmapped)].all fun p =>
        refusedAs Config.default .locked (.bus p.1 (.user 0)) p.2) = true := by decide
theorem test_decode_bad_halfword : refusedAs Config.default .locked (.cpu 0xB660#16) .encoding = true := by decide

/-! ## Well-formedness: for each check a term it refuses -/

theorem test_wf_array_read :
    Instr.wf Config.default (.rdArrW 0x0800FFFC#32 .seqT) = true ∧
    Instr.wf Config.default (.rdArrW 0x08010000#32 .seqT) = false ∧
    Instr.wf Config.default (.rdArrH 0x07FFFFFE#32 .seqT) = false ∧
    Instr.wf Config.default (.rdArrB 0x40022018#32 .seqT) = false := by decide
theorem test_wf_array_write :
    Instr.wf Config.default (.arrWrWord 0x08000000#32 0#32) = true ∧
    ([Instr.arrWrLocked 0#32 0#32, .arrWrWord 0#32 0#32, .arrWrErase 0#32 0#32, .arrWrHpFirst 0#32 0#32,
      .arrWrHpNext 0#32 0#32, .arrWrBusy 0#32 0#32].all fun i => !i.wf Config.default) = true := by decide
theorem test_wf_label :
    Program.wf Config.default { base := 0x20000000#32, bytes := 8, items := [.code (.sym (.brnz .seqT 1#32 1))] } = true ∧
    Program.wf Config.default { base := 0x20000000#32, bytes := 8, items := [.code (.sym (.brnz .seqT 1#32 2))] } = false ∧
    Program.wf Config.default
      { base := 0x20000000#32, bytes := 8, items := [.code (.sym (.acquireChecked .dataScope 2))] } = false := by decide
theorem test_wf_symbolic :
    Program.wf Config.default { base := 0x20000000#32, bytes := 8, items := [.code (.sym .cpsid)] } = false := by decide
theorem test_wf_region_edge :
    Program.wf Config.default { base := 0x0800FFFC#32, bytes := 4, items := [] } = true ∧
    Program.wf Config.default { base := 0x0800FFFC#32, bytes := 8, items := [] } = false ∧
    Program.wf Config.default { base := 0x07FFFFFC#32, bytes := 8, items := [] } = false := by decide
theorem test_wf_region_one_bank :
    Program.wf twoBanks { base := 0x08007FFC#32, bytes := 4, items := [] } = true ∧
    Program.wf twoBanks { base := 0x08007FFC#32, bytes := 8, items := [] } = false := by decide
/-- R36: an odd first address, of a program and of the handler. -/
theorem test_wf_region_even :
    Program.wf Config.default { base := 0x20000001#32, bytes := 2, items := [] } = false ∧
    Config.wf { Config.default with handlerBase := 0x20002001#32 } = false := by decide
/-- R49: the handler's region across the end of the flash array, and across a bank's. -/
theorem test_wf_handler :
    Config.wf { Config.default with handlerBase := 0x0800FFFE#32 } = false ∧
    Config.wf { twoBanks with handlerBase := 0x08007FFE#32 } = false ∧
    Config.wf { twoBanks with handlerBase := 0x08007FFC#32 } = true := by decide
/-- R6 and R32: parameter values that are refused. -/
theorem test_wf_config :
    Config.default.wf = true ∧
    Config.wf { Config.default with n := 0 } = false ∧
    Config.wf { Config.default with flashBase := 0x08000004#32 } = false ∧
    Config.wf { Config.default with flashBytes := 100 } = false ∧
    Config.wf { Config.default with offSr := 4#32 } = false ∧
    Config.wf { Config.default with offSr := 0x1A#32 } = false ∧
    Config.wf { Config.default with flashRBase := 0x08000000#32 } = false ∧
    Config.wf { Config.default with nvicIpr := 0xE000E100#32 } = false ∧
    Config.wf { Config.default with nvicIser := 0x40022020#32 } = false ∧
    Config.wf { Config.default with prioBits := 9 } = false ∧
    Config.wf { Config.default with iprShift := 25 } = false ∧
    Config.wf { Config.default with flashIrq := 32 } = false := by decide

/-! ## The unlock guard (section 2) -/

theorem test_key_first : after (.wrPekeyr 0x89ABCDEF#32) State.reset (fun t =>
    t.peSeq == .k1 && t.pecr.pelock && t.pc == 1) = true := by decide
theorem test_key_second : after (.wrPekeyr 0x02030405#32) { State.reset with peSeq := .k1 } (fun t =>
    t.peSeq == .k0 && !t.pecr.pelock && t.pecr.prglock) = true := by decide
theorem test_key_wrong_sticky : after (.wrPrgkeyr 0#32) { st 2#32 with cfg := sticky, prgSeq := .k1 } (fun t =>
    t.prgSeq == .dead && t.pecr.prglock) = true := by decide
theorem test_program_key_while_data_locked : after (.wrPrgkeyr 0x8C9DAEBF#32) State.reset (fun t =>
    t.prgSeq == .k0 && t.pecr.prglock) = true := by decide
theorem test_rdPekeyr : after (.rdPekeyr (.user 3)) { State.reset with temps := [(3, 9#32)] } (fun t =>
    t.readTemp (.user 3) == 0#32 && t.temps == []) = true := by decide
theorem test_rdPrgkeyr : after (.rdPrgkeyr .seqT) { State.reset with seqT := 9#32 } (fun t => t.seqT == 0#32) = true := by
  decide
/-- P-12: PELOCK sets PRGLOCK too and the mode is kept. -/
theorem test_wrPecr_locks : after (.wrPecr 0x20209#32) (st 0x20208#32) (fun t => t.pecr.toWord == 0x2020B#32) = true := by
  decide
/-- X-2, X-3, X-4: the order of the checks. -/
theorem test_wrPecr_order :
    after (.wrPecr 0x10#32) (stOp 0#32 wordPending) (fun t => t.reasons == [.ub .pecrWhileBusy]) = true ∧
    after (.wrPecr 0x10#32) (st 3#32) (fun t => t.reasons == []) = true ∧
    after (.wrPecr 0x210#32) (st 0#32) (fun t => t.reasons == [.ref .pecrBit] && t.refused && !t.ubFault) = true := by
  decide
/-- P-1. -/
theorem test_rdPecr : after (.rdPecr (.user 0)) State.reset (fun t => t.temps == [(0, 3#32)]) = true := by decide

/-! ## The completion monitor (section 3) -/

/-- C-3. -/
theorem test_wrSr_eop : after (.wrSr 2#32) { State.reset with eop := true, err := 0x100#32 } (fun t =>
    !t.eop && t.err == 0x100#32) = true := by decide
/-- C-4. -/
theorem test_wrSr_all : after (.wrSr 0xFFFFFFFF#32) { State.reset with eop := true, err := 0x20200#32 } (fun t =>
    !t.eop && t.err == 0#32) = true := by decide
/-- C-2. -/
theorem test_rdSr_fill : after (.rdSr .seqT) { stOp 0x408#32 filling with draws := [0xFFFFFFFF#32] } (fun t =>
    t.seqT &&& 0x32F03#32 == 1#32) = true := by decide
/-- C-14: EOP is stale, and the second phase of WAIT_DONE passes. -/
theorem test_poll_passes : after (.poll (.reg .sr) maskEop maskEop) { State.reset with eop := true, draws := [0#32] }
    (fun t => t.pc == 1 && t.seqT == 2#32) = true := by decide
/-- C-13: EOP = 0, and the item runs again. -/
theorem test_poll_repeats : after (.poll (.reg .sr) maskEop maskEop) { State.reset with draws := [0#32] }
    (fun t => t.pc == 0) = true := by decide
/-- C-8. -/
theorem test_complete_word : afterStep { stOp 0#32 wordPending with inputs := [.complete], draws := [0#32] } (fun t =>
    t.mem == beef && t.eop && t.op == .idle) = true := by decide
/-- C-11: WRPERR, and the page unchanged. -/
theorem test_complete_protected : afterStep
    { stOp 0x208#32 erasing with
      cfg := { Config.default with protectedWords := [0x0800307C] }, mem := beef, inputs := [.complete], draws := [0#32] }
    (fun t => t.mem == beef && t.err == 0x100#32 && !t.eop && t.op == .idle) = true := by decide

/-! ## Erase and program (section 4) -/

/-- A-4 and A-3. -/
theorem test_arrWrLocked :
    after (.arrWrLocked 0x08003000#32 1#32)
      { st 2#32 with cfg := { Config.default with lockedWriteRaises := true } } (fun t =>
      t.err == 0x100#32 && t.op == .idle) = true ∧
    after (.arrWrLocked 0x08003000#32 1#32) (st 2#32) (fun t => t.err == 0#32 && t.op == .idle) = true := by decide
/-- A-1 and A-2. -/
theorem test_arrWrWord :
    after (.arrWrWord 0x08003000#32 0xDEADBEEF#32) (st 0#32) (fun t => t.op == wordPending) = true ∧
    after (.arrWrWord 0x08003002#32 1#32) (st 0#32) (fun t => t.reasons == [.ub .misalignedWord]) = true := by decide
/-- A-5 and A-6. -/
theorem test_arrWrErase :
    after (.arrWrErase 0x08003000#32 0xABCD#32) (st 0x208#32) (fun t => t.op == erasing) = true ∧
    after (.arrWrErase 0x08003040#32 0#32) (st 0x208#32) (fun t => t.reasons == [.ub .misalignedErase]) = true := by
  decide
/-- A-7, A-10 and A-9. -/
theorem test_arrWrHpFirst :
    after (.arrWrHpFirst 0x08003040#32 7#32) { st 0x408#32 with primask := true } (fun t =>
      t.op == .hpFill 0x08003040#32 [7#32]) = true ∧
    after (.arrWrHpFirst 0x08003020#32 7#32) (st 0x408#32) (fun t => t.reasons == [.ub .misalignedHalf]) = true ∧
    after (.arrWrHpFirst 0x08003000#32 7#32) (st 0x408#32) (fun t => t.reasons == [.ub .hpIrqEnabled]) = true := by
  decide
/-- A-16: N = 1. -/
theorem test_arrWrHpFirst_one : after (.arrWrHpFirst 0x08003004#32 5#32)
    { st 0x408#32 with primask := true, cfg := { Config.default with n := 1 } } (fun t =>
      t.op == .busy (.half 0x08003004#32 [5#32])) = true := by decide
/-- A-11 and A-12. -/
theorem test_arrWrHpNext :
    after (.arrWrHpNext 0x0800303C#32 8#32) { stOp 0x408#32 filling with primask := true } (fun t =>
      t.op == .hpFill 0x08003000#32 [7#32, 8#32]) = true ∧
    after (.arrWrHpNext 0x08003040#32 8#32) { stOp 0x408#32 filling with primask := true } (fun t =>
      t.reasons == [.ub .hpAddr]) = true := by decide
/-- A-13: the sixteenth word. -/
theorem test_arrWrHpNext_last : after (.arrWrHpNext 0x08003000#32 9#32)
    { stOp 0x408#32 (.hpFill 0x08003000#32 (List.replicate 15 7#32)) with primask := true } (fun t =>
      t.op == .busy (.half 0x08003000#32 (List.replicate 15 7#32 ++ [9#32]))) = true := by decide
/-- A-15. -/
theorem test_arrWrBusy : after (.arrWrBusy 0x08004000#32 1#32) (stOp 0x208#32 erasing) (fun t =>
    t.reasons == [.ub .arrayWriteWhileBusy] && t.op == erasing) = true := by decide
/-- The combine law's table. -/
theorem test_combine :
    ([(0xFFFFFFFF#32, 0x00000000#32, 0x00000000#32), (0xF0F0F0F0#32, 0x0F0F0F0F#32, 0xFFFFFFFF#32),
      (0xDEADBEEF#32, 0x00000000#32, 0xDEADBEEF#32), (0x00000000#32, 0x12345678#32, 0x12345678#32)].all fun p =>
        combine Config.default p.1 p.2.1 == p.2.2) = true := by decide
/-- R-1 and R-6. -/
theorem test_rdArrW :
    after (.rdArrW 0x08003000#32 .seqT) { State.reset with mem := beef } (fun t => t.seqT == 0xDEADBEEF#32) = true ∧
    after (.rdArrW 0x08003002#32 .seqT) State.reset (fun t => t.reasons == [.ref .misalignedRead]) = true := by decide
/-- R-4 and X-7. -/
theorem test_rdArrH :
    after (.rdArrH 0x08003002#32 .seqT) { State.reset with mem := beef } (fun t => t.seqT == 0xDEAD#32) = true ∧
    after (.rdArrH 0x08003001#32 .seqT) (stOp 0x408#32 burst) (fun t => t.reasons == [.ref .misalignedRead]) = true := by
  decide
/-- R-3 and R-2. -/
theorem test_rdArrB :
    after (.rdArrB 0x08003003#32 .seqT) { State.reset with mem := beef } (fun t => t.seqT == 0xDE#32) = true ∧
    after (.rdArrB 0x08003000#32 .seqT) { State.reset with mem := beef } (fun t => t.seqT == 0xEF#32) = true := by decide
/-- R-9 and R-10: the bank of a burst, and the other bank. -/
theorem test_read_during_burst :
    after (.rdArrW 0x08008000#32 .seqT) (stOp 0x408#32 filling) (fun t => t.reasons == [.ub .placement]) = true ∧
    after (.rdArrW 0x08008000#32 .seqT) { stOp 0x408#32 filling with cfg := twoBanks } (fun t =>
      t.reasons == [] && t.seqT == 0xFFFFFFFF#32) = true := by decide
/-- R79: program 3's word 16, and the end of the buffer. -/
theorem test_ldbuf :
    after (.ldbuf 1 .seqT2) { State.reset with buf := [0x100#32, 0x101#32] } (fun t => t.seqT2 == 0x101#32) = true ∧
    after (.ldbuf 2 .seqT2) { State.reset with buf := [0x100#32, 0x101#32] } (fun t =>
      t.reasons == [.ub .bufRange]) = true := by decide
/-- The table of R79's offsets. -/
theorem test_buf_offset :
    bufOffset Config.default 0#32 1#32 0 = 16 ∧ bufOffset Config.default 1#32 1#32 3 = 51 ∧
    bufOffset Config.default 0#32 2#32 0 = 32 := by decide

/-! ## Interrupts and the CPU (section 5) -/

/-- F-9 and F-10. -/
theorem test_wrNvicIpr :
    after (.wrNvicIpr 0xC0000000#32) State.reset (fun t => t.irqPrio == 3#8) = true ∧
    after (.wrNvicIpr 0x00FFFFFF#32) State.reset (fun t => t.irqPrio == 0#8) = true := by decide
/-- F-11, F-12 and F-13. -/
theorem test_wrNvicIser :
    after (.wrNvicIser 8#32) State.reset (fun t => t.irqEn) = true ∧
    after (.wrNvicIser 9#32) State.reset (fun t => !t.irqEn && t.reasons == [.ref .otherIrq]) = true ∧
    after (.wrNvicIser 0#32) { State.reset with irqEn := true } (fun t => t.irqEn) = true := by decide
theorem test_cpsid : after .cpsid State.reset (fun t => t.primask && t.pc == 1) = true := by decide
/-- F-7. -/
theorem test_cpsie : after .cpsie { State.reset with primask := true, irqPending := true, irqEn := true } (fun t =>
    !t.primask && t.latch.cpuStep == .entry) = true := by decide
/-- F-15. -/
theorem test_halt : after .halt State.reset (fun t => t.halted && t.pc == 0 && t.cpuStep == .none .halted) = true := by
  decide
/-- Program 4a, item 3: the branch is taken. -/
theorem test_brnz :
    after (.brnz .seqT 1#32 5) { State.reset with seqT := 0x20003#32 } (fun t => t.pc == 5) = true ∧
    after (.brnz .seqT 1#32 5) { State.reset with seqT := 2#32 } (fun t => t.pc == 1) = true := by decide
/-- F-1 and F-2: the latch after any step. -/
theorem test_latch :
    afterStep (running { st 0x20003#32 with err := 0x200#32 } [.code (.cpu 0xB672#16)]) (fun t => t.irqPending) = true ∧
    afterStep (running { st 3#32 with err := 0x200#32 } [.code (.cpu 0xB672#16)]) (fun t => !t.irqPending) = true := by
  decide
/-- F-4. -/
theorem test_entry : afterStep
    (running { st 0x20000#32 with irqPending := true, irqEn := true, seqT := 5#32, pc := 7 } []) (fun t =>
      t.inHandler && !t.irqPending && t.pc == 0 && t.prog.items == faultHandlerItems && t.seqT == 0#32 &&
      t.pecr.toWord == 0x20000#32) = true := by decide
/-- F-16: no nesting; the next item runs. -/
theorem test_no_nesting : afterStep
    (running { st 0x20000#32 with irqPending := true, irqEn := true, inHandler := true } [.code (.cpu 0xB672#16)])
      (fun t => t.primask && t.pc == 1) = true := by decide

/-! ## Sequences: the items they stand for (programs 1, 3 and 5), and the first step -/

theorem test_items_init : (initItems Config.default).map (State.evalItem { State.reset with seqT := 2#32 }) =
    [.bus 0x64002200C89ABCDEF#67 (.user 0), .bus 0x64002200C02030405#67 (.user 0),
     .bus 0x24002200400000000#67 .seqT, .bus 0x64002200400020002#67 (.user 0),
     .bus 0x24002200400000000#67 .seqT, .bus 0x64002200400000003#67 (.user 0)] := by decide
theorem test_items_cfgIrq : (cfgIrqItems Config.default 1#32).map State.reset.evalItem =
    [.bus 0x6E000E40040000000#67 (.user 0), .bus 0x6E000E10000000008#67 (.user 0)] := by decide
theorem test_items_erasePage :
    (erasePageItems Config.default 0x08003000#32).map (State.evalItem { State.reset with seqT := 0x20208#32 }) =
    [.bus 0x64002200C89ABCDEF#67 (.user 0), .bus 0x64002200C02030405#67 (.user 0),
     .bus 0x6400220108C9DAEBF#67 (.user 0), .bus 0x64002201013141516#67 (.user 0),
     .bus 0x24002200400000000#67 .seqT, .bus 0x64002200400020208#67 (.user 0),
     .bus 0x60800300000000000#67 (.user 0),
     .sym (.poll (.reg .sr) 1#32 0#32), .sym (.poll (.reg .sr) 2#32 2#32), .bus 0x64002201800000002#67 (.user 0),
     .bus 0x24002200400000000#67 .seqT, .bus 0x64002200400020000#67 (.user 0),
     .bus 0x24002200400000000#67 .seqT, .bus 0x6400220040002020B#67 (.user 0)] := by decide
theorem test_items_programWord :
    ((programWordItems Config.default 0x08003000#32 0xDEADBEEF#32).map State.reset.evalItem)[4]? =
      some (.bus 0x608003000DEADBEEF#67 (.user 0)) ∧
    (programWordItems Config.default 0x08003000#32 0xDEADBEEF#32).length = 10 := by decide
theorem test_items_programHalf :
    let l := (programHalfItems Config.default 0x08003040#32 0#32 1#32).map
      (State.evalItem { State.reset with seqT := 0x20000#32, seqT2 := 0x110#32 })
    l.length = 47 ∧ l[5]? = some (.bus 0x64002200400020408#67 (.user 0)) ∧ l[6]? = some (.cpu 0xB672#16) ∧
    l[7]? = some (.sym (.ldbuf 16 .seqT2)) ∧ l[8]? = some (.bus 0x60800304000000110#67 (.user 0)) ∧
    l[37]? = some (.sym (.ldbuf 31 .seqT2)) ∧ l[46]? = some (.cpu 0xB662#16) := by decide
theorem test_items_handler : faultHandlerItems.map State.reset.evalItem =
    [.bus 0x64002201800032F00#67 (.user 0), .cpu 0xE7FE#16] := by decide

/-- The program a sequence leaves behind it, and its first item's effect: the label past it moves with its target. -/
theorem test_first_of_acquireChecked : after (.acquireChecked .dataScope 1)
    (running State.reset [.code (.sym (.acquireChecked .dataScope 1)), .code (.cpu 0xE7FE#16)]) (fun t =>
      t.peSeq == .k1 && t.pc == 1 && t.prog.items.length == 5 &&
      t.prog.items[3]? == some (.code (.sym (.brnz .seqT 1#32 4)))) = true := by decide
theorem test_first_of_key_sequences :
    ([Instr.acquirePe, .erasePage 0x08003000#32, .programWord 0x08003000#32 1#32, .programHalf 0x08003000#32 0#32 0#32,
      .init].all fun i => after i (running State.reset [.code (.sym i)]) (fun t =>
        t.peSeq == .k1 && t.pc == 1 && t.prog.items.length == (expansion Config.default i).length)) = true := by decide
theorem test_first_of_acquirePrg : after .acquirePrg (running (st 2#32) [.code (.sym .acquirePrg)]) (fun t =>
    t.prgSeq == .k1 && t.pc == 1) = true := by decide
theorem test_first_of_release : after .release (running (st 0x20208#32) [.code (.sym .release)]) (fun t =>
    t.seqT == 0x20208#32 && t.pc == 1 && t.prog.items.length == 2) = true := by decide
theorem test_first_of_waitDone : after .waitDone
    { running (stOp 0#32 wordPending) [.code (.sym .waitDone)] with draws := [0#32] } (fun t =>
      t.seqT == 1#32 && t.pc == 0 && t.prog.items.length == 3) = true := by decide
/-- F-19: the priority of CFG_IRQ 5. -/
theorem test_first_of_cfgIrq : after (.cfgIrq 5#32) (running State.reset [.code (.sym (.cfgIrq 5#32))]) (fun t =>
    t.irqPrio == 1#8 && t.pc == 1) = true := by decide
/-- F-14. -/
theorem test_first_of_faultHandler : after .faultHandler
    { running State.reset [.code (.sym .faultHandler)] with err := 0x200#32, eop := true } (fun t =>
      t.err == 0#32 && t.eop && t.pc == 1) = true := by decide

/-! ## Steps and agents -/

/-- The table word placed at the fetch runs at once. -/
theorem test_step_from_reset : step (State.reset.withFetchWord 16 0xB672) =
    latchNext (exec .cpsid { State.reset.withFetchWord 16 0xB672 with inputs := [] }) := by rfl
theorem test_step_from_reset_bus : afterStep (State.reset.withFetchWord 72 0x64002200C89ABCDEF) (fun t =>
    t.peSeq == .k1 && t.pc == 1) = true := by decide
/-- R49, R90: at the end of the program (with nothing placed it is empty), halted, and past the end the CPU has no step. -/
theorem test_cpu_stops :
    State.reset.cpuStep = .none .programEnd ∧ { State.reset with halted := true }.cpuStep = .none .halted ∧
    { State.reset with pc := 1 }.cpuStep = .none .pcBeyondProgram := by decide
/-- R101, R123: while an operation is BUSY every turn that nothing decides goes to an agent that has a step, and the CPU
may be that agent, so that COMPLETE need not come. -/
theorem test_free_turns :
    (List.range 3).map (freeAgent true true) = [some .reset, some .cpu, some .complete] ∧
    (List.range 3).map (freeAgent true false) = [some .reset, some .complete, some .complete] ∧
    (List.range 3).map (freeAgent false true) = [some .reset, some .cpu, some .cpu] ∧
    (List.range 3).map (freeAgent false false) = [some .reset, none, none] := by decide
/-- R50, R52, R100: a POLL of an address that R52 refuses is refused before the fetch check, in the bank of a burst and where
the CPU would hold. -/
theorem test_poll_refused_first :
    ([burst, erasing].all fun op => afterStep
      { running (stOp 0x408#32 op) [] with
        prog := { base := 0x08008000#32, bytes := 4, items := [.code (.sym (.poll (.addr (.imm 0x40022000#32)) 1#32 0#32))] } }
      (fun t => t.reasons == [.ref .regOffset] && t.pc == 0 && t.op == op)) = true := by decide
/-- X-5: the fetch raises before the item's own rule. -/
theorem test_fetch_in_burst_bank : afterStep
    { running (stOp 0x408#32 burst) [] with
      prog := { base := 0x08008000#32, bytes := 4, items := [.code (.cpu 0xB672#16)] } } (fun t =>
        t.reasons == [.ub .placement] && !t.primask) = true := by decide
/-- X-6: the CPU holds, its turn is passed over, and the controller moves. -/
theorem test_fetch_holds : afterStep
    { running (stOp 0#32 wordPending) [] with
      prog := { base := 0x08008000#32, bytes := 4, items := [.code (.cpu 0xB672#16)] }, inputs := [.cpu, .complete]
      draws := [0#32] } (fun t =>
        t.op == .idle && t.pc == 0 && !t.primask) = true := by decide
/-- Z-1, Z-2, Z-4, Z-5 and Z-6. -/
theorem test_reset : afterStep
    { stOp 0x20408#32 filling with
      halted := true, inHandler := true, peSeq := .dead, ubFault := true, eop := true, err := 0x20000#32
      irqPending := true, mem := beef, inputs := [.reset] } (fun t =>
        t.pecr.toWord == 3#32 && !t.halted && !t.inHandler && t.pc == 0 && t.peSeq == .k0 && t.ubFault && !t.eop &&
        t.err == 0#32 && !t.irqPending && t.mem == beef && t.op == .idle) = true := by decide
/-- Z-3: the words of an interrupted erase are drawn. -/
theorem test_reset_during_erase : afterStep
    { stOp 0x208#32 erasing with
      cfg := { Config.default with n := 1 }, mem := beef, inputs := [.reset], draws := [0x12345678#32, 0#32] } (fun t =>
      Memory.readWord t.mem 0x08003000#32 == 0x12345678#32 && Memory.readWord t.mem 0x08003004#32 == 0#32 &&
      t.op == .idle) = true := by decide

/-! ## Witnesses: for each statement with hypotheses, states and operands that meet all of them, at the ends of a range
where a clause has one -/

/-- What `State.Inv` asks of a state that has raised nothing, as one check. -/
def invCheck (s : State) : Bool :=
  s.cfg.wf && Memory.wf s.mem &&
  s.mem.all (fun p => decide (s.cfg.flashBase.toNat ≤ p.1 ∧ p.1 < s.cfg.flashBase.toNat + s.cfg.flashBytes)) &&
  sparseWfFrom 0#32 0 s.temps && (!s.pecr.pelock || s.pecr.prglock) && decide (s.mode ≠ .reserved) &&
  s.prog.regionOk s.cfg && s.boot.regionOk s.cfg &&
  (match s.op with
   | .idle => true
   | .hpFill b buf => s.cfg.inFlash b && decide (b.toNat % s.cfg.halfBytes = 0 ∧ 1 ≤ buf.length ∧ buf.length < s.cfg.n)
   | .busy (.erase p) => s.cfg.inFlash p && decide (p.toNat % s.cfg.pageBytes = 0)
   | .busy (.word a _) => s.cfg.inFlash a && decide (a.toNat % 4 = 0)
   | .busy (.half b buf) => s.cfg.inFlash b && decide (b.toNat % s.cfg.halfBytes = 0 ∧ buf.length = s.cfg.n)) &&
  (decide (s.op = .idle) || s.unlocked) && decide (s.err &&& ~~~Config.errMask = 0#32) &&
  (decide (s.cfg.keyErrorPolicy = .sticky) || decide (s.peSeq ≠ .dead ∧ s.prgSeq ≠ .dead)) &&
  (s.pecr.pelock || decide (s.peSeq = .k0)) && (s.pecr.prglock || decide (s.prgSeq = .k0)) &&
  decide (s.irqPrio.toNat < 2 ^ s.cfg.prioBits) && !s.ubFault && !s.refused && decide (s.reasons = [])

theorem inv_of_check (s : State) (h : invCheck s = true) : s.Inv := by
  simp only [invCheck, Bool.and_eq_true, decide_eq_true_eq, Bool.or_eq_true, Bool.not_eq_true', List.all_eq_true] at h
  obtain ⟨⟨⟨⟨⟨⟨⟨⟨⟨⟨⟨⟨⟨⟨⟨⟨⟨h1, h2⟩, h3⟩, h4⟩, h5⟩, h6⟩, hp⟩, hb⟩, h7⟩, h8⟩, h9⟩, h10⟩, h11⟩, h12⟩, h13⟩, h14⟩, h15⟩, h16⟩ := h
  refine ⟨h1, h2, h3, h4, ?_, h6, hp, hb, ?_, ?_, h9, ?_, ?_, ?_, h13, ?_, ?_⟩
  · intro h
    rcases h5 with h5 | h5
    · rw [h] at h5; cases h5
    · exact h5
  · unfold OpState.wf
    split <;> rename_i ho <;> rw [ho] at h7
    · trivial
    all_goals simpa [Bool.and_eq_true, decide_eq_true_eq] using h7
  · exact fun h => h8.resolve_left h
  · intro h
    rcases h10 with h10 | h10
    · rw [h] at h10; cases h10
    · exact h10
  · intro h
    rcases h11 with h11 | h11
    · rw [h] at h11; cases h11
    · exact h11
  · intro h
    rcases h12 with h12 | h12
    · rw [h] at h12; cases h12
    · exact h12
  · simp [h14, h16]
  · simp [h15, h16]

/-- A state about to run `items`, unlocked and clean. -/
def ready (items : List Item) : State := running (st 0#32) items

theorem witness_DecodeOfEncode :
    Config.default.wf = true ∧ Instr.wf Config.default (.rdArrB 0x0800FFFF#32 (.user 7)) = true ∧
    Instr.wf Config.default (.arrWrErase 0x08000000#32 0xFFFFFFFF#32) = true ∧ ArrForm.erase = ArrForm.erase := by decide

theorem witness_DecodedWord :
    decode Config.default .hpNext (.bus 0x60800FFFFFFFFFFFF#67 .seqT) = .ok (.arrWrHpNext 0x0800FFFF#32 0xFFFFFFFF#32) ∧
    decode Config.default .locked (.cpu 0xE7FE#16) = .ok .halt := ⟨rfl, rfl⟩

theorem witness_ReservedEncodings :
    busSz 0x30000000000000000#67 = 3#2 ∧
    (busSz 0x00000000000000001#67 ≠ 3#2 ∧ busW 0x00000000000000001#67 = false ∧ busD 0x00000000000000001#67 ≠ 0#32) ∧
    (0xB673#16 ≠ 0xB672#16 ∧ 0xB673#16 ≠ 0xB662#16 ∧ 0xB673#16 ≠ 0xE7FE#16) ∧
    Config.default.pekeyrAddr ∈ Config.default.regAddrs ∧
    (Config.default.inRegWindow 0x400223FF#32 = true ∧ 0x400223FF#32 ∉ Config.default.regAddrs) ∧
    (Config.default.inFlash 0x0800FFFF#32 = true) ∧
    Config.default.nvicIpr ∈ [Config.default.nvicIser, Config.default.nvicIpr] ∧
    (0x40022400#32 ∉ Config.default.regAddrs ∧ Config.default.inRegWindow 0x40022400#32 = false ∧
      Config.default.inFlash 0x40022400#32 = false ∧ 0x40022400#32 ≠ Config.default.nvicIser ∧
      0x40022400#32 ≠ Config.default.nvicIpr) := by decide

theorem witness_StateSelects :
    Config.default.inFlash 0x0800FFFF#32 = true ∧ (stOp 0#32 wordPending).op = wordPending ∧
    (stOp 0x408#32 filling).op = .hpFill 0x08003000#32 [7#32] ∧
    ((st 2#32).op = .idle ∧ (st 2#32).pecr.prglock = true) ∧
    ((st 0#32).mode = .word ∧ (st 0x208#32).mode = .erasePage ∧ (st 0x408#32).mode = .halfPage) := by decide

theorem witness_StepRuns :
    let s := ready [.code (.cpu 0xB672#16)]
    s.inputs = [.cpu] ∧ s.halted = false ∧ s.entryEnabled = false ∧ s.prog.items[s.pc]? = some (.code (.cpu 0xB672#16)) ∧
    decode s.cfg s.arrForm (s.evalItem (.code (.cpu 0xB672#16))) = .ok .cpsid ∧ s.fetchGate = .go ∧
    s.instrHeld .cpsid = false := ⟨rfl, rfl, rfl, rfl, rfl, rfl, rfl⟩

/-- An item the decoder refuses, and a POLL whose read it refuses. -/
theorem witness_RefusedItem :
    (let s := ready [.code (.cpu 0#16)]
     s.inputs = [.cpu] ∧ s.halted = false ∧ s.entryEnabled = false ∧ s.prog.items[s.pc]? = some (.code (.cpu 0#16)) ∧
     decode s.cfg s.arrForm (s.evalItem (.code (.cpu 0#16))) = .error .encoding) ∧
    (let s := ready [.code (.sym (.poll (.reg .nvicIser) 1#32 0#32))]
     decode s.cfg s.arrForm (s.evalItem (.code (.sym (.poll (.reg .nvicIser) 1#32 0#32)))) =
       .ok (.poll (.reg .nvicIser) 1#32 0#32) ∧
     decode s.cfg s.arrForm (.bus (busWord false 2#2 (s.evalTarget (.reg .nvicIser)) 0#32) .seqT) = .error .unmapped) :=
  ⟨⟨rfl, rfl, rfl, rfl, rfl⟩, ⟨rfl, rfl⟩⟩

/-- A program in the flash array while `op` is pending. -/
def inFlashBank (op : OpState) : State :=
  { ready [] with op := op, prog := { base := 0x08008000#32, bytes := 4, items := [.code (.cpu 0xB672#16)] } }

theorem witness_FetchInTheBurstBank :
    let s := inFlashBank burst
    s.inputs = [.cpu] ∧ s.halted = false ∧ s.entryEnabled = false ∧ s.prog.items[s.pc]? = some (.code (.cpu 0xB672#16)) ∧
    decode s.cfg s.arrForm (s.evalItem (.code (.cpu 0xB672#16))) = .ok .cpsid ∧ s.op = burst ∧
    s.pollRefused .cpsid = false ∧ (inFlashBank filling).op = filling ∧ s.cfg.inFlash s.prog.base = true ∧
    s.cfg.bank s.prog.base = s.cfg.bank 0x08003000#32 :=
  ⟨rfl, rfl, rfl, rfl, rfl, rfl, rfl, rfl, by decide, by decide⟩

/-- The ways to hold: the fetch, an array read of each size, the load of a buffer word, and a POLL. -/
theorem witness_HeldCpu :
    (let s := inFlashBank erasing
     s.cfg.wf = true ∧ s.halted = false ∧ s.entryEnabled = false ∧ s.cfg.inFlash s.prog.base = true ∧
     s.cfg.bank s.prog.base = s.cfg.bank 0x08003000#32 ∧ s.pollRefused .cpsid = false ∧
     decode s.cfg s.arrForm (s.evalItem (.code (.cpu 0xB672#16))) = .ok .cpsid ∧ s.cpuStep = .held) ∧
    ([(Item.rd .byte (.addr (.imm 0x0800FFFF#32)) .seqT, Instr.rdArrB 0x0800FFFF#32 .seqT),
      (.rd .half (.addr (.imm 0x0800FFFE#32)) .seqT, .rdArrH 0x0800FFFE#32 .seqT),
      (.rd .word (.addr (.imm 0x0800FFFC#32)) .seqT, .rdArrW 0x0800FFFC#32 .seqT),
      (.code (.sym (.ldbuf 0 .seqT2)), .ldbuf 0 .seqT2),
      (.code (.sym (.poll (.addr (.imm 0x0800FFFC#32)) 1#32 0#32)), .poll (.addr (.imm 0x0800FFFC#32)) 1#32 0#32)].all fun p =>
        let s := { ready [p.1] with op := wordPending, bufBase := 0x0800FFFC#32, buf := [5#32] }
        decide (s.fetchGate = .go) && s.cfg.inFlash 0x0800FFFF#32 && decide (s.bufAddr 0 = 0x0800FFFC#32) &&
        decide (s.cfg.bank 0x0800FFFF#32 = s.cfg.bank 0x08003000#32) &&
        (match decode s.cfg s.arrForm (s.evalItem p.1) with
         | .ok i => decide (i = p.2)
         | .error _ => false) && decide (s.cpuStep = .held)) = true := by decide

/-- The parameters the register statements assume. -/
theorem witness_cfg_wf : State.reset.cfg.wf = true := by decide

theorem witness_ControlRegisterWrite :
    (stOp 0#32 wordPending).op ≠ .idle ∧ ((st 3#32).op = .idle ∧ (st 3#32).pecr.pelock = true) ∧
    ((st 0#32).pecr.pelock = false ∧ (0x10#32).getLsbD 4 = true ∧ (0x100#32).getLsbD 8 = true) ∧
    ((0x400#32).getLsbD 4 = false ∧ (0x400#32).getLsbD 8 = false ∧ (0x400#32).getLsbD 3 = false ∧
      (0x400#32).getLsbD 10 = true) ∧
    ((0x408#32).getLsbD 3 = true ∧ (0x408#32).getLsbD 9 = false) := by decide

/-- The four states that R61's cases start from, each about to run ACQUIRE_PE. -/
theorem witness_AcquirePe :
    ([running (st 2#32) [.code (.sym .acquirePe)], running State.reset [.code (.sym .acquirePe)],
      { running State.reset [.code (.sym .acquirePe)] with peSeq := .k1 },
      { running State.reset [.code (.sym .acquirePe)] with peSeq := .dead, cfg := sticky }].all fun s =>
        let s := { s with inputs := [.cpu, .cpu] }
        s.cfg.wf && !s.halted && !s.latch.entryEnabled && decide (s.fetchGate = .go) &&
        decide (s.prog.items[s.pc]? = some (.code (.sym .acquirePe)))) = true ∧
    Config.default.keyPe1 ≠ Config.default.keyPe2 := by decide

/-- R64's three cases: unlocked, locked, and while an operation is pending. -/
theorem witness_Release :
    ([running (st 0x20208#32) [.code (.sym .release)], running (st 3#32) [.code (.sym .release)],
      { running (st 0#32) [.code (.sym .release)] with op := wordPending }].all fun s =>
        let s := { s with inputs := [.cpu, .cpu] }
        invCheck s && !s.halted && !s.latch.entryEnabled && decide (s.fetchGate = .go) &&
        decide (s.prog.items[s.pc]? = some (.code (.sym .release)))) = true := by decide

theorem witness_WordProgramCompletes :
    let s := { stOp 0#32 (.busy (.word 0x0800FFFC#32 1#32)) with inputs := [.complete], draws := [0xFFFC0100#32] }
    Memory.wf s.mem = true ∧ s.inputs = [.complete] ∧ s.op = .busy (.word 0x0800FFFC#32 1#32) ∧
    s.nextDraw &&& 0x00032E00#32 = 0#32 ∧ (0x0800FFFC#32).toNat ∉ s.cfg.protectedWords := by decide

theorem witness_PageEraseCompletes :
    let s := { stOp 0x208#32 (.busy (.erase 0x0800FF80#32)) with inputs := [.complete], draws := [0#32] }
    s.Inv ∧ s.inputs = [.complete] ∧ s.op = .busy (.erase 0x0800FF80#32) ∧ s.nextDraw &&& 0x00032E00#32 = 0#32 ∧
    ∀ j < s.cfg.pageWords, (0x0800FF80#32 + BitVec.ofNat 32 (4 * j)).toNat ∉ s.cfg.protectedWords :=
  ⟨inv_of_check _ (by decide), rfl, rfl, by decide, by intro j _; simp [stOp, st, State.reset, Config.default]⟩

theorem witness_HalfPageCompletes :
    let s := { stOp 0x408#32 burst with inputs := [.complete], draws := [0#32] }
    s.Inv ∧ s.inputs = [.complete] ∧ s.op = burst ∧ s.nextDraw &&& 0x00032E00#32 = 0#32 ∧
    (∀ i < s.cfg.n, (0x08003000#32 + BitVec.ofNat 32 (4 * i)).toNat ∉ s.cfg.protectedWords) ∧
    (List.replicate 16 7#32)[15]? = some 7#32 :=
  ⟨inv_of_check _ (by decide), rfl, rfl, by decide, by intro j _; simp [stOp, st, State.reset, Config.default], by decide⟩

/-- An error drawn, and a protected word hit. -/
theorem witness_FailedCompletion :
    (let s := { stOp 0#32 wordPending with inputs := [.complete], draws := [0x20200#32] }
     Memory.wf s.mem = true ∧ s.inputs = [.complete] ∧ s.op = wordPending ∧ s.nextDraw &&& 0x00032E00#32 ≠ 0#32) ∧
    (let s := { stOp 0x208#32 erasing with
       cfg := { Config.default with protectedWords := [0x0800307C] }, inputs := [.complete], draws := [0#32] }
     (Op.target s.cfg (.erase 0x08003000#32)).any (fun w => s.cfg.protectedWords.contains w.toNat) = true ∧
     s.nextDraw &&& 0x00032E00#32 = 0#32) := by decide

theorem witness_CombineLaw :
    0xF0F0F0F0#32 ≠ Config.default.erasedWord ∧ 0xF0F0F0F0#32 ||| 0x0F0F0F0F#32 = Config.default.erasedWord ∧
    (0#32 : Word) = { Config.default with erasedWord := 0#32 }.erasedWord := by decide

theorem witness_Storage : Memory.wf beef = true ∧ sparseWfFrom (0#32 : Word) 0 [(0, 5#32), (7, 1#32)] = true := by decide

theorem witness_ArrayWritesThatStartNothing :
    State.reset.cfg.inFlash 0x0800FFFF#32 = true ∧ (st 2#32).op = .idle ∧ (st 2#32).pecr.prglock = true ∧
    (stOp 0#32 wordPending).op = wordPending := by decide

theorem witness_ArrayWriteStarts :
    (st 0#32).op = .idle ∧ (st 0#32).pecr.pelock = false ∧ (st 0#32).pecr.prglock = false ∧
    (st 0#32).pecr.erase = false ∧ (st 0#32).pecr.fprg = false ∧
    (st 0x208#32).pecr.prog = true ∧ (st 0x208#32).pecr.erase = true ∧
    (st 0x408#32).pecr.prog = true ∧ (st 0x408#32).pecr.fprg = true ∧
    (0x0800FFFC#32).toNat % 4 = 0 ∧ (0x0800FFFD#32).toNat % 4 ≠ 0 ∧
    (0x0800FF80#32).toNat % Config.default.pageBytes = 0 ∧ (0x0800FFC0#32).toNat % Config.default.pageBytes ≠ 0 ∧
    (0x0800FFC0#32).toNat % Config.default.halfBytes = 0 ∧ (0x0800FFE0#32).toNat % Config.default.halfBytes ≠ 0 := by
  decide

/-- The ends of the half-page window of a burst, inside and outside. -/
theorem witness_BurstGoesOn :
    let s := stOp 0x408#32 filling
    ([0x08003000#32, 0x0800303F#32].all fun a : Word =>
      s.cfg.inFlash a && decide ((0x08003000#32).toNat ≤ a.toNat ∧ a.toNat < (0x08003000#32).toNat + s.cfg.halfBytes)) = true ∧
    ([0x08002FFF#32, 0x08003040#32].all fun a : Word =>
      s.cfg.inFlash a && decide (¬((0x08003000#32).toNat ≤ a.toNat ∧ a.toNat < (0x08003000#32).toNat + s.cfg.halfBytes))) =
        true := by decide

theorem witness_ArrayReads :
    State.reset.cfg.wf = true ∧ State.reset.cfg.inFlash 0x0800FFFC#32 = true ∧ State.reset.readGate 0x0800FFFC#32 = .go ∧
    (0x0800FFFE#32).toNat % 2 = 0 ∧ (0x0800FFFC#32).toNat % 4 = 0 := by decide

/-- Each pending operation, with a read of its bank and one of the other bank. -/
theorem witness_ArrayReadChecks :
    twoBanks.inFlash 0x08003001#32 = true ∧ State.reset.op = .idle ∧ (stOp 0x408#32 filling).op = filling ∧
    (stOp 0x208#32 erasing).op = erasing ∧
    (0x08003001#32).toNat % 2 ≠ 0 ∧ (0x08003002#32).toNat % 4 ≠ 0 ∧
    twoBanks.bank 0x08008000#32 ≠ twoBanks.bank 0x08003000#32 ∧ twoBanks.bank 0x08007FFC#32 = twoBanks.bank 0x08003000#32 := by
  decide

/-- A buffer in RAM, one in the flash array, one that is misaligned there, and one in the bank of a burst and of a word
program. -/
theorem witness_SourceBufferLoad :
    let s := { State.reset with buf := [5#32] }
    let f := { s with bufBase := 0x08008000#32 }
    s.buf.length ≤ 1 ∧ s.buf[0]? = some 5#32 ∧ s.cfg.inFlash (s.bufAddr 0) = false ∧
    f.cfg.inFlash (f.bufAddr 0) = true ∧ (f.bufAddr 0).toNat % 4 = 0 ∧ f.readGate (f.bufAddr 0) = .go ∧
    ({ s with bufBase := 0x08008002#32 }.bufAddr 0).toNat % 4 ≠ 0 ∧
    { f with op := filling }.readGate (f.bufAddr 0) = .placement ∧
    { f with op := wordPending }.readGate (f.bufAddr 0) = .hold := by decide

theorem witness_Unmask :
    let s := { State.reset with irqPending := true, irqEn := true, primask := true }
    s.inHandler = false ∧ s.halted = false ∧ ∃ u, exec .cpsie s = .next u := ⟨rfl, rfl, _, rfl⟩

theorem witness_Halt : ∃ u, exec .halt State.reset = .next u := ⟨_, rfl⟩

theorem witness_LineEnable :
    ((31 : Nat) < 32 ∧ 31 ≠ State.reset.cfg.flashIrq ∧ (0x80000008#32).getLsbD 31 = true) ∧
    (∀ k < 32, k ≠ State.reset.cfg.flashIrq → (0x00000008#32).getLsbD k = false) := by decide

theorem witness_Branch :
    { State.reset with seqT := 1#32 }.readTemp .seqT &&& 1#32 ≠ 0#32 ∧ State.reset.readTemp .seqT &&& 1#32 = 0#32 := by
  decide

/-- A POLL of each kind of target. -/
theorem witness_Poll :
    let s := State.reset
    let flash : Target := .addr (.imm 0x0800FFFC#32)
    s.cfg.wf = true ∧ s.evalTarget (.reg .sr) = s.cfg.flashRBase + s.cfg.offSr ∧
    s.evalTarget (.reg .pecr) = s.cfg.flashRBase + s.cfg.offPecr ∧
    s.evalTarget (.reg .pekeyr) = s.cfg.flashRBase + s.cfg.offPekeyr ∧
    s.evalTarget (.reg .prgkeyr) = s.cfg.flashRBase + s.cfg.offPrgkeyr ∧
    refusedAs s.cfg s.arrForm (.bus (busWord false 2#2 (s.evalTarget (.reg .nvicIpr)) 0#32) .seqT) .unmapped = true ∧
    s.cfg.inFlash (s.evalTarget flash) = true ∧ (s.evalTarget flash).toNat % 4 = 0 ∧
    (s.evalTarget (.addr (.imm 0x0800FFFE#32))).toNat % 4 ≠ 0 ∧
    s.readGate (s.evalTarget flash) = .go ∧ (stOp 0x408#32 burst).readGate (s.evalTarget flash) = .placement ∧
    (stOp 0x208#32 erasing).readGate (s.evalTarget flash) = .hold := by decide

/-- A state whose next CPU step is ENTRY, the handler in RAM. -/
def entering : State :=
  { st 0x20000#32 with irqPending := true, irqEn := true, err := 0x200#32, inputs := [.cpu, .cpu, .cpu] }

theorem witness_InterruptEntry :
    entering.inputs = [.cpu, .cpu, .cpu] ∧ entering.irqPending = true ∧ entering.irqEn = true ∧ entering.primask = false ∧ entering.inHandler = false ∧
    entering.halted = false := by decide

theorem witness_FaultHandler :
    entering.cfg.wf = true ∧ entering.cfg.inFlash entering.cfg.handlerBase = false ∧
    entering.inputs = [.cpu, .cpu, .cpu] ∧ entering.entryEnabled = true := by decide

theorem witness_SequencesRun :
    let s := running State.reset [.code (.sym .acquirePe)]
    s.pc < s.prog.items.length ∧ 1 < (expansion s.cfg .acquirePe).length := by decide

theorem witness_SequenceSteps :
    let s := running State.reset [.code (.sym .init)]
    s.cfg.wf = true ∧ s.inputs = [.cpu] ∧ s.cpuStep = .run .init ∧ expansion s.cfg .init ≠ [] := by decide

theorem witness_Init :
    let s := { running State.reset [.code (.sym .init)] with inputs := List.replicate 6 Input.cpu }
    s.Inv ∧ s.halted = false ∧ s.op = .idle ∧ s.pecr.pelock = true ∧ s.peSeq = .k0 ∧ s.irqEn = false ∧
    s.prog.items[s.pc]? = some (.code (.sym .init)) :=
  ⟨inv_of_check _ (by decide), rfl, rfl, rfl, rfl, rfl, rfl⟩

theorem witness_ProgramWord :
    let s := { running State.reset [.code (.sym (.programWord 0x08003000#32 0xDEADBEEF#32))] with
      inputs := List.replicate 5 Input.cpu ++ Input.complete :: List.replicate 5 Input.cpu, draws := [0#32] }
    s.Inv ∧ s.halted = false ∧ s.op = .idle ∧ s.mode = .word ∧ s.pecr.pelock = true ∧ s.peSeq = .k0 ∧ s.prgSeq = .k0 ∧
    s.irqEn = false ∧ s.cfg.inFlash 0x08003000#32 = true ∧ (0x08003000#32).toNat % 4 = 0 ∧
    (0x08003000#32).toNat ∉ s.cfg.protectedWords ∧ s.nextDraw &&& 0x00032E00#32 = 0#32 ∧
    s.prog.items[s.pc]? = some (.code (.sym (.programWord 0x08003000#32 0xDEADBEEF#32))) :=
  ⟨inv_of_check _ (by decide), rfl, rfl, rfl, rfl, rfl, rfl, rfl, by decide, by decide, by decide, by decide, rfl⟩

theorem witness_ErasePage :
    let s := { running State.reset [.code (.sym (.erasePage 0x08003000#32))] with
      inputs := List.replicate 7 Input.cpu ++ Input.complete :: List.replicate 7 Input.cpu, draws := [0#32] }
    s.Inv ∧ s.halted = false ∧ s.op = .idle ∧ s.mode = .word ∧ s.pecr.pelock = true ∧ s.peSeq = .k0 ∧ s.prgSeq = .k0 ∧
    s.irqEn = false ∧ s.cfg.inFlash 0x08003000#32 = true ∧
    (0x08003000#32).toNat % s.cfg.pageBytes = 0 ∧ s.nextDraw &&& 0x00032E00#32 = 0#32 ∧
    s.prog.items[s.pc]? = some (.code (.sym (.erasePage 0x08003000#32))) ∧
    ∀ j < s.cfg.pageWords, (0x08003000#32 + BitVec.ofNat 32 (4 * j)).toNat ∉ s.cfg.protectedWords :=
  ⟨inv_of_check _ (by decide), rfl, rfl, rfl, rfl, rfl, rfl, rfl, by decide, by decide, by decide, rfl,
    by intro j _; simp [running, State.reset, Config.default]⟩

/-- RESET with an erase pending, and with nothing pending. -/
theorem witness_ResetStep :
    let s := { stOp 0x208#32 erasing with mem := beef, inputs := [.reset] }
    Memory.wf s.mem = true ∧ s.inputs = [.reset] ∧ s.op = erasing ∧ State.reset.completeEnabled = false := by decide

/-- The invariant holds in a state that steps, with a fill pending and interrupts masked. -/
theorem witness_EveryStep :
    let s := { running (stOp 0x408#32 filling) [.code (.cpu 0xB672#16)] with primask := true, mem := beef }
    s.Inv ∧ ∃ t, step s = .next t := ⟨inv_of_check _ (by decide), _, rfl⟩

/-- Steps that clear irq_pending: ENTRY with the line low, and RESET. -/
theorem witness_PendingBit :
    afterStep { entering with err := 0#32 } (fun t => !t.irqPending && t.inHandler) = true ∧
    afterStep { entering with inputs := [.reset] } (fun t => !t.irqPending && !t.inHandler) = true := by decide

/-- A CPU that polls for BSY = 0 while a word program is pending. -/
theorem witness_NeverEnds :
    let s := { ready [.code (.sym (.poll (.reg .sr) 0x00000001#32 0#32))] with op := wordPending }
    s.cfg.wf = true ∧ s.halted = false ∧ s.irqEn = false ∧ s.fetchGate = .go ∧ s.completeEnabled = true ∧
    s.prog.items[s.pc]? = some (.code (.sym (.poll (.reg .sr) 0x00000001#32 0#32))) := by decide

theorem witness_InstructionFrame : ∃ t, exec (.arrWrWord 0x08003000#32 1#32) (st 0#32) = .next t := ⟨_, rfl⟩

/-- A step that changes a byte of the array. -/
theorem witness_ArrayChanges :
    afterStep { stOp 0#32 wordPending with inputs := [.complete], draws := [0#32] } (fun t =>
      decide (Memory.readByte t.mem 0x08003000 ≠ Memory.readByte [] 0x08003000)) = true := by decide

/-- Steps that clear each lock. -/
theorem witness_LocksClear :
    afterStep (running { State.reset with peSeq := .k1 } [.wr (.reg .pekeyr) (.imm 0x02030405#32)]) (fun t =>
      !t.pecr.pelock) = true ∧
    afterStep (running { st 2#32 with prgSeq := .k1 } [.wr (.reg .prgkeyr) (.imm 0x13141516#32)]) (fun t =>
      !t.pecr.prglock) = true := by decide

/-- An operation that ends, one that stays, and a fill that gains a word. -/
theorem witness_PendingOperation :
    invCheck (stOp 0#32 wordPending) = true ∧
    afterStep (running (stOp 0#32 wordPending) [.code (.cpu 0xB672#16)]) (fun t => t.op == wordPending) = true ∧
    (let s := { running (stOp 0x408#32 filling) [.wr (.addr (.imm 0x08003000#32)) (.imm 8#32)] with primask := true }
     invCheck s && afterStep s (fun t => t.op == .hpFill 0x08003000#32 [7#32, 8#32])) = true := by decide

/-- COMPLETE sets EOP, and an error bit; a locked write sets WRPERR. -/
theorem witness_StatusFlags :
    afterStep { stOp 0#32 wordPending with inputs := [.complete], draws := [0#32] } (fun t => t.eop) = true ∧
    afterStep { stOp 0#32 wordPending with inputs := [.complete], draws := [0x200#32, 5#32] } (fun t => t.err == 0x200#32) = true ∧
    afterStep { running (st 3#32) [.wr (.addr (.imm 0x08003000#32)) (.imm 8#32)] with
      cfg := { Config.default with lockedWriteRaises := true } } (fun t => t.err == 0x100#32) = true := by decide

/-- A step with both flags set before it. -/
theorem witness_OutcomeFlags :
    afterStep { ready [.code (.cpu 0#16)] with ubFault := true, refused := true } (fun t =>
      t.ubFault && t.refused && t.reasons == [.ref .encoding]) = true := by decide

/-- RESET clears the three; and a halted CPU lets COMPLETE run. -/
theorem witness_OnlyReset :
    afterStep { State.reset with irqEn := true, inHandler := true, halted := true, inputs := [.reset] } (fun t =>
      !t.irqEn && !t.inHandler && !t.halted) = true ∧
    afterStep { stOp 0#32 wordPending with halted := true, inputs := [.complete], draws := [0#32] } (fun t =>
      t.halted && t.op == .idle) = true := by decide

theorem witness_EntryOnly : entering.inHandler = false ∧ afterStep entering (fun t => t.inHandler) = true := by decide

end Sys2Proof.Tests
end

section
/-! Storage: the sparse lists are fixed by their reads, and a temporary read after a write (R9, R28, R34). -/

namespace Sys2Proof.Machine

section
variable {β : Type} [DecidableEq β] {dflt : β}

/-- Canonical lists that read the same are the same list: the key of the first cell of either is the least key that does
not read `dflt`. -/
theorem sparse_ext {l l' : List (Nat × β)} {lo : Nat} (hl : sparseWfFrom dflt lo l = true)
    (hl' : sparseWfFrom dflt lo l' = true) (h : ∀ a, sparseRead dflt l a = sparseRead dflt l' a) : l = l' := by
  induction l generalizing lo l' with
  | nil =>
    cases l' with
    | nil => rfl
    | cons q rest' =>
      simp only [sparseWfFrom, Bool.and_eq_true, decide_eq_true_eq] at hl'
      exact absurd (by simpa [sparseRead] using (h q.1).symm) hl'.1.2
  | cons p rest ih =>
    cases l' with
    | nil =>
      simp only [sparseWfFrom, Bool.and_eq_true, decide_eq_true_eq] at hl
      exact absurd (by simpa [sparseRead] using h p.1) hl.1.2
    | cons q rest' =>
      obtain ⟨k, v⟩ := p
      obtain ⟨k', v'⟩ := q
      simp only [sparseWfFrom, Bool.and_eq_true, decide_eq_true_eq] at hl hl'
      obtain ⟨⟨-, hv⟩, hr⟩ := hl
      obtain ⟨⟨-, hv'⟩, hr'⟩ := hl'
      have hk : k = k' := by
        rcases Nat.lt_trichotomy k k' with hlt | heq | hgt
        · have := h k
          simp [sparseRead, Nat.ne_of_lt hlt, sparseRead_below dflt rest' (k' + 1) k hr' (by omega), hv] at this
        · exact heq
        · have := h k'
          simp [sparseRead, Nat.ne_of_lt hgt, sparseRead_below dflt rest (k + 1) k' hr (by omega), Ne.symm hv'] at this
      subst hk
      have hvv : v = v' := by simpa [sparseRead] using h k
      have hrest : ∀ a, sparseRead dflt rest a = sparseRead dflt rest' a := fun a => by
        by_cases ha : a = k
        · rw [sparseRead_below dflt rest (k + 1) a hr (by omega), sparseRead_below dflt rest' (k + 1) a hr' (by omega)]
        · simpa [sparseRead, ha] using h a
      rw [hvv, ih hr hr' hrest]

end

/-- A temporary read after a write of a temporary: the value written, or what it held (R10, R28). -/
theorem State.readTemp_writeTemp (s : State) (x y : Temp) (v : Word) (h : sparseWfFrom 0#32 0 s.temps = true) :
    (s.writeTemp x v).readTemp y = if y = x then v else s.readTemp y := by
  cases x with
  | user k =>
    cases y with
    | user j => simpa [State.writeTemp, State.readTemp] using sparseRead_write 0#32 s.temps 0 k j v h
    | seqT => rfl
    | seqT2 => rfl
  | seqT => cases y <;> rfl
  | seqT2 => cases y <;> rfl

/-- Settles O24: a word and a temporary read back as written, and a canonical list is fixed by its reads
(`sparse_ext`). -/
theorem storageReadsBackWhatWasWritten : Obligations.StorageReadsBackWhatWasWritten :=
  ⟨fun m a v hm =>
    ⟨Memory.writeWord_wf m a v hm, Memory.readWord_writeWord_same m a v hm,
      fun b hb => Memory.readByte_writeWord_other m a v b hm hb, fun _ hm' h => sparse_ext hm hm' h⟩,
   fun s x y v hs => ⟨s.writeTemp_temps_wf x v hs, s.readTemp_writeTemp x y v hs⟩⟩

end Sys2Proof.Machine
end

section
/-! The invariant: each update of the state keeps it, and so does the step of each agent. -/

namespace Sys2Proof

/-- The four bytes of the word at `a` are bytes of the flash array. -/
def Config.holdsWord (c : Config) (a : Word) : Prop :=
  c.flashBase.toNat ≤ a.toNat ∧ a.toNat + 4 ≤ c.flashBase.toNat + c.flashBytes

end Sys2Proof

namespace Sys2Proof.Machine

/-! ## Writes stay inside the array (R25, R32, R68) -/

section
variable {c : Config} {m : List Host.Cell}

theorem Memory.writeWord_inArray {a : Word} (v : Word) (ha : c.holdsWord a) (h : Memory.inArray c m) :
    Memory.inArray c (Memory.writeWord m a v) := fun p hp => by
  rcases Memory.writeWord_keys m a v p hp with hp | hp
  · exact h p hp
  · obtain ⟨h1, h2⟩ := ha
    omega

/-- The array's base and end are multiples of 4, so an aligned address in it has its whole word there. -/
theorem word_fits (hc : c.wf = true) {a : Word} (hf : c.inFlash a = true) (ha : a.toNat % 4 = 0) :
    c.holdsWord a := by
  have hp : 4 ∣ c.pageBytes := ⟨2 * c.n, by unfold Config.pageBytes; omega⟩
  have h1 : 4 ∣ c.flashBase.toNat := hp.trans (Nat.dvd_of_mod_eq_zero (Config.flashBase_aligned hc))
  have h2 : 4 ∣ c.flashBytes := hp.trans (Nat.dvd_of_mod_eq_zero (Config.flashBytes_aligned hc))
  simp only [Config.inFlash, decide_eq_true_eq] at hf
  exact ⟨hf.1, by omega⟩

theorem wordAddrs_fit (hc : c.wf = true) {b : Word} {n : Nat}
    (h : b.toNat + 4 * n ≤ c.flashBase.toNat + c.flashBytes ∧ c.flashBase.toNat ≤ b.toNat) :
    ∀ w ∈ wordAddrs b n, c.holdsWord w := by
  intro w hw
  simp only [wordAddrs, List.mem_map, List.mem_range] at hw
  obtain ⟨i, hi, rfl⟩ := hw
  have he := Config.flash_end_le hc
  rw [Config.holdsWord, addr_toNat b (4 * i) (by omega)]
  omega

/-- R68: every target word of a well-formed operation lies in the array. -/
theorem Op.target_fits (hc : c.wf = true) {op : Op} (ho : (OpState.busy op).wf c) :
    ∀ w ∈ op.target c, c.holdsWord w := by
  cases op with
  | erase p =>
    have hp := page_fits hc ho.1 ho.2
    exact wordAddrs_fit hc (by unfold Config.pageBytes at hp; unfold Config.pageWords; omega)
  | word a v =>
    intro w hw
    rw [Op.target, List.mem_singleton] at hw
    exact hw ▸ word_fits hc ho.1 ho.2
  | half b buf => exact wordAddrs_fit hc (half_fits hc ho.1 ho.2.1)

theorem Op.effect_inArray {op : Op} (ht : ∀ w ∈ op.target c, c.holdsWord w) (h : Memory.inArray c m) :
    Memory.inArray c (op.effect c m) := by
  cases op with
  | erase p => exact List.foldlRecOn _ _ h fun m hm a ha => Memory.writeWord_inArray _ (ht a ha) hm
  | word a v => exact Memory.writeWord_inArray _ (ht a (List.mem_singleton.2 rfl)) h
  | half b buf =>
    exact List.foldlRecOn _ _ h fun m hm av hav => Memory.writeWord_inArray _ (ht av.1 (List.of_mem_zip hav).1) hm

theorem drawWords_inArray {ws : List Word} (ht : ∀ w ∈ ws, c.holdsWord w) (s : State)
    (h : Memory.inArray c s.mem) : Memory.inArray c (drawWords ws s).mem := by
  induction ws generalizing s with
  | nil => exact h
  | cons w ws ih =>
    exact ih (fun x hx => ht x (List.mem_cons_of_mem w hx)) _
      (Memory.writeWord_inArray _ (ht w List.mem_cons_self) h)

end

/-! ## The bits of the error field (R17) -/

theorem errMask_or {x y : Word} (hx : x &&& ~~~Config.errMask = 0#32) (hy : y &&& ~~~Config.errMask = 0#32) :
    (x ||| y) &&& ~~~Config.errMask = 0#32 := by
  rw [BitVec.and_or_distrib_right, hx, hy, BitVec.or_self]

theorem errMask_and {x : Word} (y : Word) (hx : x &&& ~~~Config.errMask = 0#32) :
    x &&& y &&& ~~~Config.errMask = 0#32 := by
  rw [BitVec.and_assoc, BitVec.and_comm y, ← BitVec.and_assoc, hx, BitVec.zero_and]

/-- R68: a completion draws bits of ERR_MASK only. -/
theorem completionErrors_mask (c : Config) (op : Op) (draw : Word) :
    completionErrors c op draw &&& ~~~Config.errMask = 0#32 := by
  refine errMask_or (errMask_and _ ?_) ?_
  · rw [BitVec.and_assoc, show Config.errMask &&& ~~~Config.errMask = 0#32 by decide, BitVec.and_zero]
  · cases op.protectedTarget c <;> decide

/-! ## Key sequencers and op_state (R20, R22) -/

/-- Where a key write may leave a sequencer, DEAD is not met under RETRY (R20, R56). -/
theorem keyWrite_alive {c : Config} {q : KeySeq} (hr : c.keyErrorPolicy = .retry) (hq : q = .k1 ∨ q = wrongKey c) :
    q ≠ .dead := by
  rcases hq with rfl | rfl
  · decide
  · rw [wrongKey, hr]
    decide

theorem rearm_alive {q : KeySeq} (hq : q ≠ .dead) : rearm q ≠ .dead := by
  cases q <;> simp_all [rearm]

theorem State.op_idle_of_bsy {s : State} (h : s.bsy = false) : s.op = .idle := by
  unfold State.bsy at h
  split at h
  · assumption
  · cases h
  · cases h

/-! ## The invariant under each update of the state -/

section
variable {s t : State}

namespace State.Inv

theorem raiseUb (h : s.Inv) (c : UbCode) : (s.raiseUb c).Inv :=
  { h with
    ub_reasons := by simp
    ref_reasons := by simpa using h.ref_reasons }

theorem raiseRef (h : s.Inv) (c : RefCode) : (s.raiseRef c).Inv :=
  { h with
    ub_reasons := by simpa using h.ub_reasons
    ref_reasons := by simp }

theorem useDraw (h : s.Inv) : s.useDraw.Inv := { h with }

theorem latch (h : s.Inv) : s.latch.Inv := { h with }

/-- The order of the agents is no part of the invariant. -/
theorem withInputs (h : s.Inv) (rest : List Input) (n : Nat) : State.Inv { s with inputs := rest, turnCount := n } :=
  { h with }

/-- A pseudo-instruction's expansion leaves the code region (R55). -/
theorem withItems (h : s.Inv) (items : List Item) : (s.withItems items).Inv := { h with }

theorem cpuLocal (h : s.Inv) (hl : cpuLocal s t) : t.Inv := by
  obtain ⟨pc, temps, x, y, ht, rfl⟩ := hl
  exact { h with temps_wf := ht h.temps_wf }

theorem takeEntry (h : s.Inv) : s.takeEntry.Inv :=
  { h with
    temps_wf := rfl
    prog_region := Config.handler_region h.cfg_wf }

theorem setErr (h : s.Inv) {e : Word} (he : e &&& ~~~Config.errMask = 0#32) : State.Inv { s with err := e } :=
  { h with err_mask := he }

/-- An operation starts or goes on in an unlocked controller (R71). -/
theorem setOp (h : s.Inv) {o : OpState} (hu : s.unlocked = true) (ho : o.wf s.cfg) : State.Inv { s with op := o } :=
  { h with
    op_wf := ho
    op_unlocked := fun _ => hu }

theorem writeSr (h : s.Inv) (d : Word) : (s.writeSr d).Inv := { h with err_mask := errMask_and _ h.err_mask }

theorem writePekeyr (h : s.Inv) (d : Word) : (s.writePekeyr d).Inv := by
  rcases s.writePekeyr_cases d with e | ⟨hl, -, q, hq, e⟩ | ⟨hl, -, -, e⟩ <;> rw [e]
  · exact h
  · exact
      { h with
        retry_alive := fun hr => ⟨keyWrite_alive hr hq, (h.retry_alive hr).2⟩
        pe_seq := fun hl' => absurd hl (by simp [show s.pecr.pelock = false from hl']) }
  · exact
      { h with
        locks := fun hl' => nomatch hl'
        op_unlocked := fun ho => by simpa [State.unlocked, hl] using h.op_unlocked ho
        retry_alive := fun hr => ⟨nofun, (h.retry_alive hr).2⟩
        pe_seq := fun _ => rfl }

theorem writePrgkeyr (h : s.Inv) (d : Word) : (s.writePrgkeyr d).Inv := by
  rcases s.writePrgkeyr_cases d with e | ⟨hl, -, q, hq, e⟩ | ⟨hp, hl, -, -, e⟩ <;> rw [e]
  · exact h
  · exact
      { h with
        retry_alive := fun hr => ⟨(h.retry_alive hr).1, keyWrite_alive hr hq⟩
        prg_seq := fun hl' => absurd hl (by simp [show s.pecr.prglock = false from hl']) }
  · exact
      { h with
        locks := fun hp' => absurd hp (by simp [show s.pecr.pelock = true from hp'])
        op_unlocked := fun ho => by simpa [State.unlocked, hl] using h.op_unlocked ho
        retry_alive := fun hr => ⟨(h.retry_alive hr).1, nofun⟩
        prg_seq := fun _ => rfl }

/-- R59: an accepted PECR write finds no operation pending, leaves a legal mode, and sets PRGLOCK with PELOCK. -/
theorem writePecr (h : s.Inv) (d : Word) : (s.writePecr d).Inv := by
  rcases s.writePecr_cases d with e | e | e | e | ⟨hb, hl, hm, e⟩ <;> rw [e]
  · exact h.raiseUb _
  · exact h
  · exact h.raiseRef _
  · exact h.raiseUb _
  · exact
      { h with
        locks := fun hp => by
          have hd : d.getLsbD 0 = true := by simpa [pecrAfterWrite, hl] using hp
          simp [pecrAfterWrite, hd]
        mode_legal := hm
        op_unlocked := fun ho => absurd (State.op_idle_of_bsy hb) ho
        retry_alive := fun hr => by
          obtain ⟨hpe, hprg⟩ := h.retry_alive hr
          exact ⟨by dsimp only; split; exacts [rearm_alive hpe, hpe],
            by dsimp only; split; exacts [rearm_alive hprg, hprg]⟩
        pe_seq := fun hp => by
          have hd : d.getLsbD 0 = false := by simpa [pecrAfterWrite, hl] using hp
          simp only [hd, Bool.false_eq_true, if_false]
          exact h.pe_seq hl
        prg_seq := fun hp => by
          obtain ⟨⟨hg, hd1⟩, hd0⟩ : (s.pecr.prglock = false ∧ d.getLsbD 1 = false) ∧ d.getLsbD 0 = false := by
            simpa [pecrAfterWrite] using hp
          simp only [hd1, hd0, Bool.or_self, Bool.false_eq_true, if_false]
          exact h.prg_seq hg }

theorem arrWrLocked (h : s.Inv) : s.arrWrLocked.Inv := by
  rcases s.arrWrLocked_cases with e | ⟨-, e⟩ <;> rw [e]
  · exact h
  · exact h.setErr (errMask_or h.err_mask (by decide))

/-- R71 to R76: each form starts an operation that R22 admits. -/
theorem arrayWrite (h : s.Inv) (a d : Word) : (s.arrayWrite a d).Inv := by
  rcases s.arrayWrite_cases a d with ⟨c, e⟩ | e | ⟨-, -, e⟩ | ⟨-, hu, hf, -, ha, e⟩ | ⟨-, hu, hf, -, ha, e⟩ |
    ⟨-, hu, hf, -, ha, -, e⟩ | ⟨b, buf, ho, -, e⟩ <;> rw [e]
  · exact h.raiseUb c
  · exact h.raiseRef _
  · exact h.arrWrLocked
  · exact h.setOp hu ⟨hf, ha⟩
  · exact h.setOp hu ⟨hf, ha⟩
  · refine h.setOp hu ?_
    split
    · next hn => exact ⟨hf, ha, hn.symm⟩
    · next hn =>
      have := Config.n_pos h.cfg_wf
      exact ⟨hf, ha, Nat.le_refl 1, by simp only [List.length_singleton]; omega⟩
  · have hw := h.op_wf
    rw [ho] at hw
    obtain ⟨hf, hb, h1, hn⟩ := hw
    refine h.setOp (h.op_unlocked (by simp [ho])) ?_
    split
    · next hlast => exact ⟨hf, hb, by simpa using hlast⟩
    · next hmore => exact ⟨hf, hb, by simp, by simp only [List.length_append, List.length_singleton]; omega⟩

/-- R87: the priority is a number of PRIO_BITS bits. -/
theorem writeNvicIpr (h : s.Inv) (d : Word) : (s.writeNvicIpr d).Inv :=
  { h with
    prio := by
      simp only [State.writeNvicIpr, prioField, BitVec.toNat_ofNat]
      exact (Nat.mod_le _ _).trans_lt (Nat.mod_lt _ (Nat.two_pow_pos _)) }

theorem writeNvicIser (h : s.Inv) (d : Word) : (s.writeNvicIser d).Inv := by
  rcases s.writeNvicIser_cases d with e | e | e <;> rw [e]
  · exact h.raiseRef _
  · exact { h with }
  · exact h

/-- Every effect an instruction can have keeps the invariant. -/
theorem effect (h : s.Inv) (hc : CpuEffect s t) : t.Inv := by
  cases hc with
  | same => exact h
  | drawn => exact h.useDraw
  | ub c => exact h.raiseUb c
  | ref c => exact h.raiseRef c
  | pekeyr d => exact h.writePekeyr d
  | prgkeyr d => exact h.writePrgkeyr d
  | pecr d => exact h.writePecr d
  | sr d => exact h.writeSr d
  | array a d => exact h.arrayWrite a d
  | nvicIpr d => exact h.writeNvicIpr d
  | nvicIser d => exact h.writeNvicIser d
  | mask b => exact { h with }
  | halt => exact { h with }

/-- The array after an update that writes target words only. -/
theorem setMem (h : s.Inv) {m : List Host.Cell} (hw : Memory.wf m = true) (hm : Memory.inArray s.cfg m) :
    State.Inv { s with mem := m } :=
  { h with
    mem_wf := hw
    mem_inArray := hm }

theorem target_fits (h : s.Inv) {op : Op} (ho : s.op = .busy op) : ∀ w ∈ op.target s.cfg, s.cfg.holdsWord w :=
  Op.target_fits h.cfg_wf (ho ▸ h.op_wf)

theorem drawTarget (h : s.Inv) {op : Op} (ho : s.op = .busy op) : (s.drawTarget op).Inv := by
  have hw := drawWords_wf (op.target s.cfg) s h.mem_wf
  have hm := drawWords_inArray (h.target_fits ho) s h.mem_inArray
  obtain ⟨m, ds, k, e⟩ := drawWords_frame (op.target s.cfg) s
  rw [e] at hw hm
  rw [State.drawTarget, e]
  exact { h.setMem hw hm with }

/-- An operation that ends leaves nothing to ask of op_state. -/
theorem ended (h : s.Inv) (eop : Bool) : State.Inv { s with eop := eop, op := .idle } :=
  { h with
    op_wf := trivial
    op_unlocked := fun ho => absurd rfl ho }

/-- R68: COMPLETE writes target words and error bits of ERR_MASK. -/
theorem completeOp (h : s.Inv) {op : Op} (ho : s.op = .busy op) (draw : Word) : (s.completeOp op draw).Inv := by
  simp only [State.completeOp]
  split
  · exact (h.setMem (Op.effect_wf _ _ op h.mem_wf) (Op.effect_inArray (h.target_fits ho) h.mem_inArray)).ended true
  · have hs : (if (completionErrors s.cfg op draw).getLsbD 8 then s else s.drawTarget op).Inv := by
      split
      · exact h
      · exact h.drawTarget ho
    exact (hs.setErr (errMask_or hs.err_mask (completionErrors_mask _ _ _))).ended _

theorem complete (h : s.Inv) : s.complete.Inv := by
  unfold State.complete
  split
  · next op ho => exact h.useDraw.completeOp ho _
  · exact h
  · exact h

theorem resetArray (h : s.Inv) : s.resetArray.Inv := by
  unfold State.resetArray
  split
  · next op ho =>
    split
    · exact h
    · exact h.drawTarget ho
  · exact h
  · exact h

/-- R111: RESET's values meet the invariant, whatever R112 has left in the array. -/
theorem applyReset (h : s.Inv) : s.applyReset.Inv := by
  have hr := h.resetArray
  obtain ⟨m, ds, k, e⟩ := s.resetArray_frame
  rw [e] at hr
  simp only [State.applyReset, e]
  exact
    { hr with
      temps_wf := rfl
      locks := fun _ => rfl
      mode_legal := (by decide : modeOf false false false ≠ .reserved)
      prog_region := h.boot_region
      op_wf := trivial
      op_unlocked := fun ho => absurd rfl ho
      err_mask := BitVec.zero_and
      retry_alive := fun _ => ⟨nofun, nofun⟩
      pe_seq := fun _ => rfl
      prg_seq := fun _ => rfl
      prio := Nat.two_pow_pos _ }

end State.Inv

end

/-- Settles O50: the step of each agent keeps the invariant, and so does the latch. -/
theorem everyStepKeepsTheInvariant : Obligations.EveryStepKeepsTheInvariant := by
  intro s t h hs
  rcases step_cases hs with ⟨rest, n, u, -, hr, hu, rfl⟩ | ⟨rest, n, -, -, rfl⟩ | ⟨rest, n, -, rfl⟩
  · have hin := h.withInputs rest n
    obtain ⟨-, ⟨-, rfl⟩ | ⟨items, c, hc, hl⟩⟩ := runCpu_cases hr hu
    · exact hin.takeEntry.latch
    · exact (((hin.withItems items).effect hc).cpuLocal hl).latch
  · exact (h.complete.withInputs rest n).latch
  · exact (h.applyReset.withInputs rest n).latch

/-- Settles O49: the parameters' defaults are admissible, and every other clause is about R31's values. -/
theorem resetMeetsTheInvariant : Obligations.ResetMeetsTheInvariant := by
  refine ⟨?_, fun h => absurd h (by decide)⟩
  exact
    { cfg_wf := by decide
      mem_wf := rfl
      mem_inArray := fun _ hp => nomatch hp
      temps_wf := rfl
      locks := fun _ => rfl
      mode_legal := by decide
      prog_region := by decide
      boot_region := by decide
      op_wf := trivial
      op_unlocked := fun ho => absurd rfl ho
      err_mask := by decide
      retry_alive := fun _ => ⟨by decide, by decide⟩
      pe_seq := fun _ => rfl
      prg_seq := fun _ => rfl
      prio := by decide
      ub_reasons := by simp [State.reset]
      ref_reasons := by simp [State.reset] }

end Sys2Proof.Machine
end

section
/-! The model flags and the reasons over a step (R11, R12, R27). -/

namespace Sys2Proof.Machine

/-- An effect of the CPU is one raise, or it leaves the model flags and the reasons. -/
theorem CpuEffect.flags {s c : State} (h : CpuEffect s c) :
    (∃ x, c = s.raiseUb x) ∨ (∃ x, c = s.raiseRef x) ∨
    (c.ubFault = s.ubFault ∧ c.refused = s.refused ∧ c.reasons = s.reasons) := by
  cases h with
  | ub x => exact .inl ⟨x, rfl⟩
  | ref x => exact .inr (.inl ⟨x, rfl⟩)
  | pekeyr d =>
    rcases s.writePekeyr_cases d with e | ⟨-, -, q, -, e⟩ | ⟨-, -, -, e⟩ <;> rw [e] <;> exact .inr (.inr ⟨rfl, rfl, rfl⟩)
  | prgkeyr d =>
    rcases s.writePrgkeyr_cases d with e | ⟨-, -, q, -, e⟩ | ⟨-, -, -, -, e⟩ <;> rw [e] <;>
      exact .inr (.inr ⟨rfl, rfl, rfl⟩)
  | pecr d =>
    rcases s.writePecr_cases d with e | e | e | e | ⟨-, -, -, e⟩ <;> rw [e]
    · exact .inl ⟨_, rfl⟩
    · exact .inr (.inr ⟨rfl, rfl, rfl⟩)
    · exact .inr (.inl ⟨_, rfl⟩)
    · exact .inl ⟨_, rfl⟩
    · exact .inr (.inr ⟨rfl, rfl, rfl⟩)
  | array a d =>
    rcases s.arrayWrite_cases a d with ⟨x, e⟩ | e | ⟨-, -, e⟩ | ⟨-, -, -, -, -, e⟩ | ⟨-, -, -, -, -, e⟩ |
      ⟨-, -, -, -, -, -, e⟩ | ⟨b, buf, -, -, e⟩ <;> rw [e]
    case inl => exact .inl ⟨x, rfl⟩
    case inr.inl => exact .inr (.inl ⟨_, rfl⟩)
    case inr.inr.inl =>
      rcases s.arrWrLocked_cases with e | ⟨-, e⟩ <;> rw [e] <;> exact .inr (.inr ⟨rfl, rfl, rfl⟩)
    all_goals exact .inr (.inr ⟨rfl, rfl, rfl⟩)
  | nvicIser d =>
    rcases s.writeNvicIser_cases d with e | e | e <;> rw [e]
    · exact .inr (.inl ⟨_, rfl⟩)
    · exact .inr (.inr ⟨rfl, rfl, rfl⟩)
    · exact .inr (.inr ⟨rfl, rfl, rfl⟩)
  | same | drawn | sr | nvicIpr | mask | halt => exact .inr (.inr ⟨rfl, rfl, rfl⟩)

/-- R27: from `s` to `t` no model flag is cleared and at most one code is appended. -/
def State.flagsGrow (s t : State) : Prop :=
  (s.ubFault = true → t.ubFault = true) ∧ (s.refused = true → t.refused = true) ∧
  (t.reasons = s.reasons ∨ ∃ r, t.reasons = s.reasons ++ [r])

theorem State.flagsGrow_of_eq {s t : State} (hu : t.ubFault = s.ubFault) (hr : t.refused = s.refused)
    (hx : t.reasons = s.reasons) : s.flagsGrow t :=
  ⟨hu.trans, hr.trans, .inl hx⟩

theorem CpuEffect.flagsGrow {s c : State} (h : CpuEffect s c) : s.flagsGrow c := by
  rcases h.flags with ⟨x, rfl⟩ | ⟨x, rfl⟩ | ⟨hu, hr, hx⟩
  · exact ⟨fun _ => rfl, id, .inr ⟨_, rfl⟩⟩
  · exact ⟨id, fun _ => rfl, .inr ⟨_, rfl⟩⟩
  · exact State.flagsGrow_of_eq hu hr hx

/-- Settles O57: each agent in turn; only an effect of the CPU raises a code. -/
theorem outcomeFlagsAreSticky : Obligations.OutcomeFlagsAreSticky := by
  intro s t h
  rcases step_cases h with ⟨rest, n, u, -, hr, hu, rfl⟩ | ⟨rest, n, -, -, rfl⟩ | ⟨rest, n, -, rfl⟩
  · obtain ⟨-, ⟨-, rfl⟩ | ⟨items, c, hc, pc, temps, x, y, -, rfl⟩⟩ := runCpu_cases hr hu
    · exact State.flagsGrow_of_eq rfl rfl rfl
    · exact hc.flagsGrow
  · obtain ⟨m, ds, k, eop, err, e⟩ := s.complete_frame
    rw [e]
    exact State.flagsGrow_of_eq rfl rfl rfl
  · obtain ⟨m, ds, k, e⟩ := s.applyReset_frame
    rw [e]
    exact State.flagsGrow_of_eq rfl rfl rfl

end Sys2Proof.Machine
end

section
/-! Refused items and holds: what `cpuStep` answers at them, and the step that follows (R12, R13, R38, R39, R100). -/

namespace Sys2Proof.Machine

/-! ## Refused items (R12, R50, R52, R100) -/

/-- The CPU's step at an item the decoder refuses, whatever the fetch check says. -/
theorem cpuStep_refuse {s : State} {item : Item} {c : RefCode} (hh : s.halted = false) (he : s.entryEnabled = false)
    (hi : s.prog.items[s.pc]? = some item) (hd : decode s.cfg s.arrForm (s.evalItem item) = .error c) :
    s.cpuStep = .refuse c := by
  simp [State.cpuStep, hh, he, hi, hd]

/-- The step when the CPU is named next and has a step: the CPU's, and the latch of R84. -/
theorem step_cpu {s u : State} {rest : List Input} (hin : s.inputs = .cpu :: rest) (hr : s.cpuStep.ready = true)
    (hu : runCpu s.cpuStep { s with inputs := rest } = .next u) : step s = .next u.latch := by
  unfold step machineStep
  rw [hin, nextAgent, if_pos hr]
  simp only [hu, latchNext]

/-- A POLL whose read the decoder refuses records the code and stays at its item (A16, A30). -/
theorem exec_pollRefused {s : State} {g : Target} (m v : Word) {c : RefCode}
    (h : decodeRead s.cfg 2#2 (s.evalTarget g) .seqT = .error c) : exec (.poll g m v) s = .next (s.raiseRef c) := by
  simp only [exec, execPoll, (State.pollRefused_poll (m := m) (v := v) h).2]

/-- Settles O7: an item the decoder refuses is not run; a POLL whose read it refuses is run past the fetch check, and its
read raises the code. -/
theorem refusedItemRecordsItsCode : Obligations.RefusedItemRecordsItsCode := by
  intro s item code rest hin hh he hi
  refine ⟨fun hd => ?_, fun g m v hd hr => ?_⟩
  · have hc := cpuStep_refuse hh he hi hd
    exact step_cpu hin (by rw [hc]; rfl) (by rw [hc]; rfl)
  · rw [decode_read _ _ _ _ _ (by decide)] at hr
    have hc := cpuStep_pollRefused hh he hi hd (State.pollRefused_poll hr).1
    have hx := exec_pollRefused (s := { s with inputs := rest }) m v (by simpa using hr)
    exact step_cpu hin (by rw [hc]; rfl) (by rw [hc]; exact hx)

/-! ## Holds (R13, R38, R39) -/

section
variable {s : State} {op : Op} {a : Word}

/-- R38: a read of the bank of a pending erase or word program holds. -/
theorem State.readGate_eq_hold (ho : s.op = .busy op) (hn : ∀ b buf, op ≠ .half b buf)
    (hb : s.cfg.bank a = s.cfg.bank op.addr) : s.readGate a = .hold := by
  cases op with
  | erase p => simp [State.readGate, ho, hb, Op.addr]
  | word w v => simp [State.readGate, ho, hb, Op.addr]
  | half b buf => exact absurd rfl (hn b buf)

/-- R80, R100: an aligned array read holds where R38 says so. -/
theorem State.readArray_eq_held {sz : Size} (hf : s.cfg.inFlash a = true) (ha : a.toNat % Size.bytes sz = 0)
    (hg : s.readGate a = .hold) : s.readArray sz a = .held := by
  simp [State.readArray, hf, ha, hg]

theorem State.readBuf_eq_held {k : Nat} {v : Word} (hv : s.buf[k]? = some v) (hf : s.cfg.inFlash (s.bufAddr k) = true)
    (ha : (s.bufAddr k).toNat % 4 = 0) (hg : s.readGate (s.bufAddr k) = .hold) : s.readBuf k = .held := by
  simp [State.readBuf, hv, hf, State.readArray_eq_held (sz := .word) hf ha hg]

theorem State.readBusWord_eq_held (hc : s.cfg.wf = true) (hf : s.cfg.inFlash a = true) (ha : a.toNat % 4 = 0)
    (hg : s.readGate a = .hold) : s.readBusWord a = .held := by
  simp [State.readBusWord, regionOf_flash hc a hf, State.readArray_eq_held (sz := .word) hf ha hg]

/-- A POLL of an array word is not refused by the decoder (R52 step 8). -/
theorem State.pollRefused_flash {g : Target} {m v : Word} (hc : s.cfg.wf = true)
    (hf : s.cfg.inFlash (s.evalTarget g) = true) : s.pollRefused (.poll g m v) = false := by
  simp [State.pollRefused, decodeRead, regionOf_flash hc _ hf]

section
variable {item : Item} {i : Instr}

/-- R39: the CPU holds at an item whose fetch holds. -/
theorem cpuStep_fetchHeld (hh : s.halted = false) (he : s.entryEnabled = false)
    (hi : s.prog.items[s.pc]? = some item) (hd : decode s.cfg s.arrForm (s.evalItem item) = .ok i)
    (hp : s.pollRefused i = false) (hg : s.fetchGate = .hold) : s.cpuStep = .held := by
  simp [State.cpuStep, hh, he, hi, hd, hp, hg]

/-- R38: the CPU holds at an item that may be fetched and whose own read holds. -/
theorem cpuStep_instrHeld (hh : s.halted = false) (he : s.entryEnabled = false)
    (hi : s.prog.items[s.pc]? = some item) (hd : decode s.cfg s.arrForm (s.evalItem item) = .ok i)
    (hp : s.pollRefused i = false) (hg : s.fetchGate = .go) (hn : s.instrHeld i = true) : s.cpuStep = .held := by
  simp [State.cpuStep, hh, he, hi, hd, hp, hg, hn]

end

/-- R13, R101: the step taken while the CPU holds is COMPLETE or RESET. -/
theorem step_of_held {t : State} (hc : s.cpuStep = .held) (h : step s = .next t) :
    (∃ rest n, t = { s.complete with inputs := rest, turnCount := n }.latch) ∨
    (∃ rest n, t = { s.applyReset with inputs := rest, turnCount := n }.latch) := by
  rcases step_cases h with ⟨rest, n, u, -, hr, -, -⟩ | ⟨rest, n, -, -, e⟩ | ⟨rest, n, -, e⟩
  · simp [hc, CpuStep.ready] at hr
  · exact .inl ⟨rest, n, e⟩
  · exact .inr ⟨rest, n, e⟩

end

/-- Settles O9. First clause: the hold of the fetch, and the hold of each kind of read. Second clause: with the CPU
waiting, the step is the controller's or the environment's (`step_of_held`). -/
theorem heldCpuWaitsForTheController : Obligations.HeldCpuWaitsForTheController := by
  intro s
  refine ⟨fun item i op a hwf hh he hi hd ho hn hf hb hcase => ?_, fun hc => ?_⟩
  · have hg : s.readGate a = .hold := State.readGate_eq_hold ho hn hb
    rcases hcase with ⟨rfl, hp⟩ | ⟨hgo, hread⟩
    · exact cpuStep_fetchHeld hh he hi hd hp (by rw [State.fetchGate, if_pos hf, hg])
    · obtain ⟨hp, hheld⟩ : s.pollRefused i = false ∧ s.instrHeld i = true := by
        rcases hread with ⟨x, rfl | ⟨rfl, ha⟩ | ⟨rfl, ha⟩⟩ | ⟨ha, k, x, v, rfl, hv, rfl⟩ | ⟨ha, g, m, v, rfl, rfl⟩
        · exact ⟨rfl, by rw [State.instrHeld, State.readArray_eq_held hf (Nat.mod_one _) hg]; rfl⟩
        · exact ⟨rfl, by rw [State.instrHeld, State.readArray_eq_held (sz := .half) hf ha hg]; rfl⟩
        · exact ⟨rfl, by rw [State.instrHeld, State.readArray_eq_held (sz := .word) hf ha hg]; rfl⟩
        · exact ⟨rfl, by rw [State.instrHeld, State.readBuf_eq_held hv hf ha hg]; rfl⟩
        · exact ⟨State.pollRefused_flash hwf hf,
            by rw [State.instrHeld, State.readBusWord_eq_held hwf hf ha hg]; rfl⟩
      exact cpuStep_instrHeld hh he hi hd hp hgo hheld
  · obtain ⟨op, ho⟩ := OpState.stalls_busy (State.cpuStep_held hc)
    have hbusy : s.completeEnabled = true := by simp [State.completeEnabled, ho]
    obtain ⟨t, ht⟩ := step_next (.inl hbusy)
    refine ⟨t, ht, hbusy, ?_⟩
    rcases step_of_held hc ht with ⟨rest, n, rfl⟩ | ⟨rest, n, rfl⟩
    · obtain ⟨m, ds, k, eop, err, e⟩ := s.complete_frame
      rw [e, hbusy]
      exact ⟨rfl, .inl ⟨rfl, rfl, rfl, fun x => by cases x <;> rfl⟩⟩
    · obtain ⟨m, ds, k, e⟩ := s.applyReset_frame
      rw [e]
      exact ⟨rfl, .inr ⟨rfl, rfl, rfl⟩⟩

end Sys2Proof.Machine
end

section
/-! The frame of an instruction, and the values at first power-up (R25, R31, R71, R111, R113). -/

namespace Sys2Proof.Machine

/-- Settles O52: an instruction is one effect of the CPU (`exec_cases`), and no effect changes these fields
(`CpuEffect.frame`). -/
theorem instructionFrame : Obligations.InstructionFrame := by
  intro i s t h
  obtain ⟨items, c, hc, pc, temps, x, y, -, rfl⟩ := exec_cases h
  obtain ⟨-, -, hcfg, hmem, hboot, hbase, hbuf, hin, hturn, hirq, hhand, -⟩ := hc.frame
  exact ⟨fun a => congrArg (Memory.readByte · a) hmem, hcfg, hbase, hbuf, hboot, hin, hturn, hirq, hhand⟩

/-- Settles O47: the word of PECR is computed, and every other value is a field of `State.reset`. -/
theorem powerUpState : Obligations.PowerUpState :=
  ⟨by decide, rfl, rfl, rfl, rfl, rfl, rfl, rfl, rfl, rfl, rfl, rfl, rfl, rfl, rfl, rfl, rfl, rfl, rfl⟩

end Sys2Proof.Machine
end

section
/-! The controller's and the environment's steps, field by field and byte by byte (R25, R68, R111, R112). -/

namespace Sys2Proof.Machine

variable {s t : State}

/-! ## Fields -/

theorem State.completeEnabled_iff : s.completeEnabled = true ↔ ∃ op, s.op = .busy op := by
  cases ho : s.op <;> simp [completeEnabled, ho]

@[simp] theorem State.complete_pecr (s : State) : s.complete.pecr = s.pecr := by
  obtain ⟨m, ds, k, eop, err, e⟩ := s.complete_frame
  rw [e]

/-- R68: COMPLETE ends the pending operation. -/
theorem State.complete_op (h : s.completeEnabled = true) : s.complete.op = .idle := by
  obtain ⟨m, ds, k, eop, err, e⟩ := s.complete_frame
  rw [e, if_pos h]

/-- R68: COMPLETE reports success by EOP or failure by an error bit. -/
theorem State.complete_reports (h : s.completeEnabled = true) : s.complete.eop = true ∨ s.complete.err ≠ 0#32 := by
  obtain ⟨op, ho⟩ := completeEnabled_iff.1 h
  simp only [complete, ho, completeOp]
  split
  · exact .inl rfl
  · next he => exact .inr fun h0 => he (BitVec.or_eq_zero_iff.1 h0).2

@[simp] theorem State.applyReset_pecr (s : State) : s.applyReset.pecr = Pecr.reset := rfl
@[simp] theorem State.applyReset_eop (s : State) : s.applyReset.eop = false := rfl
@[simp] theorem State.applyReset_err (s : State) : s.applyReset.err = 0#32 := rfl
@[simp] theorem State.applyReset_mem (s : State) : s.applyReset.mem = s.resetArray.mem := rfl
@[simp] theorem State.applyReset_op (s : State) : s.applyReset.op = .idle := rfl

/-- R112: RESET leaves the array when no operation is BUSY. -/
theorem State.applyReset_mem_of_not_busy (h : s.completeEnabled = false) : s.applyReset.mem = s.mem := by
  have e : s.resetArray = s := by cases ho : s.op <;> simp_all [resetArray, completeEnabled]
  rw [applyReset_mem, e]

/-! ## Bytes outside the target -/

section
variable {c : Config} {op : Op} {b : Nat}

/-- R77: an operation's effect leaves every byte outside its target words. -/
theorem Op.effect_other {m : List Host.Cell} (hm : Memory.wf m = true)
    (hb : ∀ w ∈ op.target c, b < w.toNat ∨ w.toNat + 4 ≤ b) :
    Memory.readByte (op.effect c m) b = Memory.readByte m b := by
  cases op with
  | erase p => exact (eraseWord_writes c.erasedWord).fold_other _ m hm b hb
  | word a v => exact (programCell_writes c).other m (a, v) b hm (hb a (List.mem_singleton.2 rfl))
  | half a buf => exact (programCell_writes c).fold_other _ m hm b fun av hav => hb av.1 (List.of_mem_zip hav).1

/-- R68: so does COMPLETE, whether it succeeds, draws the words of the target or keeps a protected one. -/
theorem State.complete_other (ho : s.op = .busy op) (hm : Memory.wf s.mem = true)
    (hb : ∀ w ∈ op.target s.cfg, b < w.toNat ∨ w.toNat + 4 ≤ b) :
    Memory.readByte s.complete.mem b = Memory.readByte s.mem b := by
  simp only [complete, ho, completeOp]
  split
  · exact Op.effect_other hm hb
  · split
    · rfl
    · exact drawWords_other _ s.useDraw b hm hb

/-- R112: so does RESET, whether it keeps a protected target or draws the words of another. -/
theorem State.applyReset_other (ho : s.op = .busy op) (hm : Memory.wf s.mem = true)
    (hb : ∀ w ∈ op.target s.cfg, b < w.toNat ∨ w.toNat + 4 ≤ b) :
    Memory.readByte s.applyReset.mem b = Memory.readByte s.mem b := by
  simp only [applyReset_mem, resetArray, ho]
  split
  · rfl
  · exact drawWords_other _ s b hm hb

/-- A byte for which fails what holds of every byte outside the words `ws` is in one of them. -/
theorem exists_word_of_not_outside {ws : List Word} {p : Prop} (h : (∀ w ∈ ws, b < w.toNat ∨ w.toNat + 4 ≤ b) → p)
    (hp : ¬p) : ∃ w ∈ ws, w.toNat ≤ b ∧ b < w.toNat + 4 := by
  by_contra hno
  refine hp (h fun w hw => ?_)
  have hw' : ¬(w.toNat ≤ b ∧ b < w.toNat + 4) := fun hin => hno ⟨w, hw, hin⟩
  omega

end

/-- Settles O53: a CPU step leaves the array (`CpuEffect.frame`); COMPLETE and RESET write words of the target only. -/
theorem arrayChangesOnlyUnderAPendingOperation : Obligations.ArrayChangesOnlyUnderAPendingOperation := by
  intro s t b hm h hne
  rcases step_cases h with ⟨rest, n, u, -, hr, hu, rfl⟩ | ⟨rest, n, -, hb, rfl⟩ | ⟨rest, n, -, rfl⟩
  · obtain ⟨-, ⟨-, rfl⟩ | ⟨items, c, hc, pc, temps, x, y, -, rfl⟩⟩ := runCpu_cases hr hu
    · exact absurd rfl hne
    · obtain ⟨-, -, -, hmem, -⟩ := hc.frame
      exact absurd (congrArg (Memory.readByte · b) hmem) hne
  · obtain ⟨op, ho⟩ := State.completeEnabled_iff.1 hb
    exact ⟨op, ho, State.complete_op hb, exists_word_of_not_outside (State.complete_other ho hm) hne⟩
  · cases hb : s.completeEnabled with
    | false => exact absurd (congrArg (Memory.readByte · b) (State.applyReset_mem_of_not_busy hb)) hne
    | true =>
      obtain ⟨op, ho⟩ := State.completeEnabled_iff.1 hb
      exact ⟨op, ho, rfl, exists_word_of_not_outside (State.applyReset_other ho hm) hne⟩

end Sys2Proof.Machine
end

section
/-! The status flags and the controller under an effect of the CPU (R22, R30, R59, R67, R72, R76). -/

namespace Sys2Proof.Machine

variable {s c : State}

/-! ## EOP and the error bits (R30) -/

theorem getLsbD_bit {i k : Nat} (h : (bit i).getLsbD k = true) : k = i := by
  simp only [bit, BitVec.getLsbD_shiftLeft, BitVec.getLsbD_one, Bool.and_eq_true, decide_eq_true_eq,
    Bool.not_eq_true', decide_eq_false_iff_not] at h
  omega

/-- From `s` to `t` neither EOP nor an error bit is set, but for WRPERR where a locked write raises it (R72). -/
def State.statusFalls (s t : State) : Prop :=
  (t.eop = true → s.eop = true) ∧
  ∀ k, t.err.getLsbD k = true →
    s.err.getLsbD k = true ∨ (k = 8 ∧ s.cfg.lockedWriteRaises = true ∧ s.op = .idle ∧ s.unlocked = false)

theorem State.statusFalls_of_eq {t : State} (he : t.eop = s.eop) (hx : t.err = s.err) : s.statusFalls t :=
  ⟨fun h => he ▸ h, fun _ h => .inl (hx ▸ h)⟩

/-- R67: an SR write clears bits only. -/
theorem State.writeSr_statusFalls (s : State) (d : Word) : s.statusFalls (s.writeSr d) := by
  refine ⟨fun h => ?_, fun k h => .inl ?_⟩
  · simp only [writeSr, eopAfterWrite, Bool.and_eq_true] at h
    exact h.1
  · simp only [writeSr, errAfterWrite, BitVec.getLsbD_and, Bool.and_eq_true] at h
    exact h.1

/-- R71, R72: an array write sets WRPERR at most, and only with a lock set. -/
theorem State.arrayWrite_statusFalls (s : State) (a d : Word) : s.statusFalls (s.arrayWrite a d) := by
  rcases s.arrayWrite_cases a d with ⟨x, e⟩ | e | ⟨ho, hu, e⟩ | ⟨-, -, -, -, -, e⟩ | ⟨-, -, -, -, -, e⟩ |
    ⟨-, -, -, -, -, -, e⟩ | ⟨b, buf, -, -, e⟩ <;> rw [e]
  case inr.inr.inl =>
    rcases s.arrWrLocked_cases with e | ⟨hr, e⟩ <;> rw [e]
    · exact statusFalls_of_eq rfl rfl
    · refine ⟨id, fun k h => ?_⟩
      simp only [BitVec.getLsbD_or, Bool.or_eq_true] at h
      exact h.imp_right fun hk => ⟨getLsbD_bit hk, hr, ho, hu⟩
  all_goals exact statusFalls_of_eq rfl rfl

theorem CpuEffect.statusFalls (h : CpuEffect s c) : s.statusFalls c := by
  cases h with
  | sr d => exact s.writeSr_statusFalls d
  | array a d => exact s.arrayWrite_statusFalls a d
  | pekeyr d =>
    rcases s.writePekeyr_cases d with e | ⟨-, -, q, -, e⟩ | ⟨-, -, -, e⟩ <;> rw [e] <;>
      exact State.statusFalls_of_eq rfl rfl
  | prgkeyr d =>
    rcases s.writePrgkeyr_cases d with e | ⟨-, -, q, -, e⟩ | ⟨-, -, -, -, e⟩ <;> rw [e] <;>
      exact State.statusFalls_of_eq rfl rfl
  | pecr d =>
    rcases s.writePecr_cases d with e | e | e | e | ⟨-, -, -, e⟩ <;> rw [e] <;> exact State.statusFalls_of_eq rfl rfl
  | nvicIser d =>
    rcases s.writeNvicIser_cases d with e | e | e <;> rw [e] <;> exact State.statusFalls_of_eq rfl rfl
  | same | drawn | ub | ref | nvicIpr | mask | halt => exact State.statusFalls_of_eq rfl rfl

/-- A step sets no status flag but WRPERR, or it is COMPLETE. -/
theorem step_status {t : State} (h : step s = .next t) :
    s.statusFalls t ∨ (s.completeEnabled = true ∧ t.op = .idle) := by
  rcases step_cases h with ⟨rest, n, u, -, hr, hu, rfl⟩ | ⟨rest, n, -, hb, rfl⟩ | ⟨rest, n, -, rfl⟩
  · obtain ⟨-, ⟨-, rfl⟩ | ⟨items, c, hc, pc, temps, x, y, -, rfl⟩⟩ := runCpu_cases hr hu
    · exact .inl (State.statusFalls_of_eq rfl rfl)
    · exact .inl hc.statusFalls
  · exact .inr ⟨hb, State.complete_op hb⟩
  · exact .inl ⟨nofun, fun k h1 => absurd h1 (by simp)⟩

/-- Settles O56: the two ways of `step_status`. -/
theorem statusFlagsSetOnlyByCompletion : Obligations.StatusFlagsSetOnlyByCompletion := by
  intro s t h
  rcases step_status h with ⟨heop, herr⟩ | hc
  · exact ⟨fun h0 h1 => absurd (heop h1) (by simp [h0]),
      fun k h0 h1 => .inr ((herr k h1).resolve_left (by simp [h0]))⟩
  · exact ⟨fun _ _ => hc, fun _ _ _ => .inl hc⟩

/-! ## A pending operation (R22, R59, R71, R76) -/

/-- R76: what one more word makes of a fill. -/
def fillNext (n : Nat) (b : Word) (buf : List Word) (d : Word) : OpState :=
  if buf.length + 1 = n then .busy (.half b (buf ++ [d])) else .hpFill b (buf ++ [d])

/-- From `s` to `t` PECR stays, and op_state stays or is a fill that gains a word. -/
def State.holdsController (s t : State) : Prop :=
  t.pecr = s.pecr ∧ (t.op = s.op ∨ ∃ b buf d, s.op = .hpFill b buf ∧ t.op = fillNext s.cfg.n b buf d)

theorem State.holdsController_of_eq {t : State} (hp : t.pecr = s.pecr) (ho : t.op = s.op) : s.holdsController t :=
  ⟨hp, .inl ho⟩

theorem State.bsy_of_pending (h : s.op ≠ .idle) : s.bsy = true := by
  cases ho : s.op <;> simp_all [bsy]

/-- R22, R56, R57, R59: while an operation is pending both locks are clear, so a key write does nothing, and a PECR
write raises UB_PECR_WHILE_BUSY; an array write raises or feeds the fill. -/
theorem CpuEffect.holdsController (h : CpuEffect s c) (hp : s.op ≠ .idle) (hu : s.unlocked = true) :
    s.holdsController c := by
  obtain ⟨hpe, hprg⟩ : s.pecr.pelock = false ∧ s.pecr.prglock = false := by simpa [State.unlocked] using hu
  cases h with
  | pekeyr d =>
    have e : s.writePekeyr d = s := by simp [State.writePekeyr, hpe]
    rw [e]
    exact State.holdsController_of_eq rfl rfl
  | prgkeyr d =>
    have e : s.writePrgkeyr d = s := by simp [State.writePrgkeyr, hpe, hprg]
    rw [e]
    exact State.holdsController_of_eq rfl rfl
  | pecr d =>
    have e : s.writePecr d = s.raiseUb .pecrWhileBusy := by rw [State.writePecr, if_pos (State.bsy_of_pending hp)]
    rw [e]
    exact State.holdsController_of_eq rfl rfl
  | array a d =>
    rcases s.arrayWrite_cases a d with ⟨x, e⟩ | e | ⟨ho, -⟩ | ⟨ho, -⟩ | ⟨ho, -⟩ | ⟨ho, -⟩ | ⟨b, buf, ho, -, e⟩
    · exact e ▸ State.holdsController_of_eq rfl rfl
    · exact e ▸ State.holdsController_of_eq rfl rfl
    · exact absurd ho hp
    · exact absurd ho hp
    · exact absurd ho hp
    · exact absurd ho hp
    · exact e ▸ ⟨rfl, .inr ⟨b, buf, d, ho, rfl⟩⟩
  | nvicIser d =>
    rcases s.writeNvicIser_cases d with e | e | e <;> rw [e] <;> exact State.holdsController_of_eq rfl rfl
  | same | drawn | ub | ref | sr | nvicIpr | mask | halt => exact State.holdsController_of_eq rfl rfl

/-- From a state that meets the invariant, a step holds the controller, or is COMPLETE or RESET. -/
theorem step_pending {t : State} (hi : s.Inv) (hp : s.op ≠ .idle) (h : step s = .next t) :
    s.holdsController t ∨
    (s.completeEnabled = true ∧ t.op = .idle ∧ t.pecr = s.pecr ∧ (t.eop = true ∨ t.err ≠ 0#32)) ∨
    (t.op = .idle ∧ t.pecr = Pecr.reset ∧ (s.completeEnabled = false → t.mem = s.mem)) := by
  rcases step_cases h with ⟨rest, n, u, -, hr, hu, rfl⟩ | ⟨rest, n, -, hb, rfl⟩ | ⟨rest, n, -, rfl⟩
  · obtain ⟨-, ⟨-, rfl⟩ | ⟨items, c, hc, pc, temps, x, y, -, rfl⟩⟩ := runCpu_cases hr hu
    · exact .inl (State.holdsController_of_eq rfl rfl)
    · exact .inl (hc.holdsController hp (hi.op_unlocked hp))
  · exact .inr (.inl ⟨hb, State.complete_op hb, s.complete_pecr, State.complete_reports hb⟩)
  · exact .inr (.inr ⟨rfl, rfl, State.applyReset_mem_of_not_busy⟩)

/-- Settles O55: the three ways of `step_pending`, for a BUSY operation and for a fill. -/
theorem pendingOperationHoldsTheController : Obligations.PendingOperationHoldsTheController := by
  intro s t hi h
  refine ⟨fun op ho => ?_, fun b buf ho => ?_⟩
  · rcases step_pending hi (by simp [ho]) h with ⟨hp, hop | ⟨b, buf, d, hf, -⟩⟩ | ⟨-, hop, hp, hx⟩ | ⟨hop, hp, -⟩
    · exact .inl ⟨hop.trans ho, hp⟩
    · simp [ho] at hf
    · exact .inr ⟨hop, .inl ⟨hp, hx⟩⟩
    · exact .inr ⟨hop, .inr hp⟩
  · have hnb : s.completeEnabled = false := by simp [State.completeEnabled, ho]
    rcases step_pending hi (by simp [ho]) h with ⟨hp, hop | ⟨b', buf', d, hf, hop⟩⟩ | ⟨hb, -⟩ | ⟨hop, hp, hm⟩
    · exact .inl ⟨hp, .inl (hop.trans ho)⟩
    · obtain ⟨rfl, rfl⟩ : b = b' ∧ buf = buf' := by simpa [ho] using hf
      exact .inl ⟨hp, .inr ⟨d, hop⟩⟩
    · simp [hnb] at hb
    · exact .inr ⟨hop, hp, hm hnb⟩

end Sys2Proof.Machine
end

section
/-! The locks: what clears one (R15, R20, R56, R57, R59). -/

namespace Sys2Proof.Machine

variable {s t : State} {i : Instr}

/-! ## Keeping and clearing -/

/-- No lock that is set in `p` is clear in `q`. -/
def Pecr.keepsLocks (p q : Pecr) : Prop :=
  (p.pelock = true → q.pelock = true) ∧ (p.prglock = true → q.prglock = true)

theorem Pecr.keepsLocks_of_eq {p q : Pecr} (h : q = p) : p.keepsLocks q := h ▸ ⟨id, id⟩

theorem Pecr.keepsLocks_reset (p : Pecr) : p.keepsLocks Pecr.reset := ⟨fun _ => rfl, fun _ => rfl⟩

/-- `i` is a write of `d` to PEKEYR, or a sequence that begins with one. -/
def writesPekeyr (c : Config) (i : Instr) (d : Word) : Prop :=
  i = .wrPekeyr d ∨ (expansion c i).head? = some (.wr (.reg .pekeyr) (.imm d))

/-- `i` is a write of `d` to PRGKEYR, or a sequence that begins with one. -/
def writesPrgkeyr (c : Config) (i : Instr) (d : Word) : Prop :=
  i = .wrPrgkeyr d ∨ (expansion c i).head? = some (.wr (.reg .prgkeyr) (.imm d))

/-- `i` clears one lock from `s` to `t`, as R56 and R57 say: by the second key, after the first. -/
inductive ClearsLock (i : Instr) (s t : State) : Prop where
  | pelock (hw : writesPekeyr s.cfg i s.cfg.keyPe2) (hq : s.peSeq = .k1)
      (hp : t.pecr = { s.pecr with pelock := false }) (hq' : t.peSeq = .k0) : ClearsLock i s t
  | prglock (hw : writesPrgkeyr s.cfg i s.cfg.keyPrg2) (hq : s.prgSeq = .k1) (hl : s.pecr.pelock = false)
      (hp : t.pecr = { s.pecr with prglock := false }) (hq' : t.prgSeq = .k0) : ClearsLock i s t

/-- R56: a PEKEYR write keeps the locks, or it is the second key after the first. -/
theorem writePekeyr_locks {d : Word} {items : List Item} (hw : writesPekeyr s.cfg i d)
    (ht : t = ((s.withItems items).writePekeyr d).advance) : s.pecr.keepsLocks t.pecr ∨ ClearsLock i s t := by
  rcases (s.withItems items).writePekeyr_cases d with e | ⟨-, -, q, -, e⟩ | ⟨-, hq, hd, e⟩ <;> rw [e] at ht
  · exact .inl (Pecr.keepsLocks_of_eq (by rw [ht]; rfl))
  · exact .inl (Pecr.keepsLocks_of_eq (by rw [ht]; rfl))
  · exact .inr (.pelock (hd ▸ hw) hq (by rw [ht]; rfl) (by rw [ht]; rfl))

/-- R57: a PRGKEYR write keeps the locks, or it is the second key after the first, with PELOCK = 0. -/
theorem writePrgkeyr_locks {d : Word} {items : List Item} (hw : writesPrgkeyr s.cfg i d)
    (ht : t = ((s.withItems items).writePrgkeyr d).advance) : s.pecr.keepsLocks t.pecr ∨ ClearsLock i s t := by
  rcases (s.withItems items).writePrgkeyr_cases d with e | ⟨-, -, q, -, e⟩ | ⟨hl, -, hq, hd, e⟩ <;> rw [e] at ht
  · exact .inl (Pecr.keepsLocks_of_eq (by rw [ht]; rfl))
  · exact .inl (Pecr.keepsLocks_of_eq (by rw [ht]; rfl))
  · exact .inr (.prglock (hd ▸ hw) hq hl (by rw [ht]; rfl) (by rw [ht]; rfl))

/-! ## Everything but a key write keeps the locks -/

/-- R59: a PECR write sets locks and never clears one. -/
theorem State.writePecr_keepsLocks (s : State) (d : Word) : s.pecr.keepsLocks (s.writePecr d).pecr := by
  rcases s.writePecr_cases d with e | e | e | e | ⟨-, -, -, e⟩ <;> rw [e]
  case inr.inr.inr.inr =>
    exact ⟨fun h => by simp [pecrAfterWrite, h], fun h => by simp [pecrAfterWrite, h]⟩
  all_goals exact Pecr.keepsLocks_of_eq rfl

theorem State.arrayWrite_pecr (s : State) (a d : Word) : (s.arrayWrite a d).pecr = s.pecr := by
  rcases s.arrayWrite_cases a d with ⟨x, e⟩ | e | ⟨-, -, e⟩ | ⟨-, -, -, -, -, e⟩ | ⟨-, -, -, -, -, e⟩ |
    ⟨-, -, -, -, -, -, e⟩ | ⟨b, buf, -, -, e⟩ <;> rw [e]
  case inr.inr.inl => rcases s.arrWrLocked_cases with e | ⟨-, e⟩ <;> rw [e]
  all_goals rfl

theorem State.writeNvicIser_pecr (s : State) (d : Word) : (s.writeNvicIser d).pecr = s.pecr := by
  rcases s.writeNvicIser_cases d with e | e | e <;> simp [e]

theorem ReadResult.leaves_pecr {r : ReadResult} (h : r.leaves s) :
    (∀ v u, r = .value v u → u.pecr = s.pecr) ∧ (∀ u, r = .raised u → u.pecr = s.pecr) := by
  refine ⟨?_, ?_⟩
  · rintro v u rfl
    rcases h with rfl | rfl <;> rfl
  · rintro u rfl
    rcases h with ⟨c, rfl⟩ | ⟨c, rfl⟩ <;> rfl

theorem ReadResult.bind_pecr {r : ReadResult} {x : Temp} (hr : r.leaves s) (h : r.bind x s = .next t) :
    t.pecr = s.pecr := by
  have hl := leaves_pecr hr
  rcases r.bind_next x s with ⟨v, u, e, hn⟩ | ⟨u, e, hn⟩ | ⟨-, hn⟩ <;> cases hn.symm.trans h
  · simpa using hl.1 v u e
  · simpa using hl.2 u e
  · rfl

theorem execPoll_pecr {g : Target} {m v : Word} (h : execPoll g m v s = .next t) : t.pecr = s.pecr := by
  have hl := ReadResult.leaves_pecr (s.readBusWord_leaves (s.evalTarget g))
  unfold execPoll at h
  split at h
  · next w u e =>
    have hp : (u.writeTemp .seqT w).pecr = s.pecr := hl.1 w u e
    split at h <;> cases h <;> exact hp
  · next u e => exact Host.Outcome.next.inj h ▸ hl.2 u e
  · cases h; rfl

/-! ## Instructions and steps -/

/-- An instruction keeps the locks, or it is a key write that clears one, its own or that of the sequence it begins. -/
theorem exec_locks (h : exec i s = .next t) : s.pecr.keepsLocks t.pecr ∨ ClearsLock i s t := by
  have same : t.pecr = s.pecr → s.pecr.keepsLocks t.pecr ∨ ClearsLock i s t :=
    fun e => .inl (Pecr.keepsLocks_of_eq e)
  have out : ∀ {u : State}, Host.Outcome.next (ρ := Refusal) (φ := Fault) u = .next t → t = u :=
    fun e => (Host.Outcome.next.inj e).symm
  have arr : ∀ a d, Host.Outcome.next (ρ := Refusal) (φ := Fault) (s.arrayWrite a d).advance = .next t →
      s.pecr.keepsLocks t.pecr ∨ ClearsLock i s t := fun a d e => same (out e ▸ s.arrayWrite_pecr a d)
  cases i with
  | wrPekeyr d => exact writePekeyr_locks (items := s.prog.items) (.inl rfl) (out h)
  | wrPrgkeyr d => exact writePrgkeyr_locks (items := s.prog.items) (.inl rfl) (out h)
  | acquirePe => exact writePekeyr_locks (.inr rfl) (out h)
  | acquirePrg => exact writePrgkeyr_locks (.inr rfl) (out h)
  | acquireChecked sc l =>
    cases sc with
    | dataScope => exact writePekeyr_locks (.inr rfl) (out h)
    | programScope => exact writePrgkeyr_locks (.inr rfl) (out h)
  | erasePage a => exact writePekeyr_locks (.inr rfl) (out h)
  | programWord a v => exact writePekeyr_locks (.inr rfl) (out h)
  | programHalf b p w => exact writePekeyr_locks (.inr rfl) (out h)
  | init => exact writePekeyr_locks (.inr rfl) (out h)
  | wrPecr d => exact .inl (out h ▸ s.writePecr_keepsLocks d)
  | wrNvicIser d => exact same (out h ▸ s.writeNvicIser_pecr d)
  | arrWrLocked a d => exact arr a d h
  | arrWrWord a d => exact arr a d h
  | arrWrErase a d => exact arr a d h
  | arrWrHpFirst a d => exact arr a d h
  | arrWrHpNext a d => exact arr a d h
  | arrWrBusy a d => exact arr a d h
  | rdPekeyr x => exact same (ReadResult.bind_pecr (r := .value 0#32 s) (.inl rfl) h)
  | rdPrgkeyr x => exact same (ReadResult.bind_pecr (r := .value 0#32 s) (.inl rfl) h)
  | rdPecr x => exact same (ReadResult.bind_pecr (r := .value s.pecr.toWord s) (.inl rfl) h)
  | rdSr x => exact same (ReadResult.bind_pecr (r := .value s.readSr s.useDraw) (.inr rfl) h)
  | rdArrW a x => exact same (ReadResult.bind_pecr (s.readArray_leaves .word a) h)
  | rdArrH a x => exact same (ReadResult.bind_pecr (s.readArray_leaves .half a) h)
  | rdArrB a x => exact same (ReadResult.bind_pecr (s.readArray_leaves .byte a) h)
  | ldbuf k x => exact same (ReadResult.bind_pecr (s.readBuf_leaves k) h)
  | release =>
    exact same (ReadResult.bind_pecr (s := s.expand releaseItems) (r := .value s.pecr.toWord _) (.inl rfl) h)
  | poll g m v => exact same (execPoll_pecr h)
  | waitDone => exact same (execPoll_pecr (s := s.expand waitDoneItems) h)
  | brnz x m l =>
    simp only [exec, execBrnz] at h
    split at h <;> exact same (out h ▸ rfl)
  | wrSr | wrNvicIpr | cpsid | cpsie | halt | cfgIrq | faultHandler => exact same (out h ▸ rfl)

/-- A CPU step that runs no instruction leaves PECR. -/
theorem runCpu_pecr {v : CpuStep} (h : runCpu v s = .next t) :
    (∃ i, v = .run i ∧ exec i s = .next t) ∨ t.pecr = s.pecr := by
  cases v with
  | run i => exact .inl ⟨i, rfl, h⟩
  | entry | refuse | placement | held => cases h; exact .inr rfl
  | none why => cases h

/-- A step keeps the locks, or it runs an instruction that clears one. -/
theorem step_locks (h : step s = .next t) :
    s.pecr.keepsLocks t.pecr ∨ ∃ i, s.cpuStep = .run i ∧ ClearsLock i s t := by
  rcases step_cases h with ⟨rest, n, u, -, -, hu, rfl⟩ | ⟨rest, n, -, -, rfl⟩ | ⟨rest, n, -, rfl⟩
  · rcases runCpu_pecr hu with ⟨i, hi, hx⟩ | hp
    · rcases exec_locks hx with hk | ⟨hw, hq, hp, hq'⟩ | ⟨hw, hq, hl, hp, hq'⟩
      · exact .inl hk
      · exact .inr ⟨i, hi, .pelock hw hq hp hq'⟩
      · exact .inr ⟨i, hi, .prglock hw hq hl hp hq'⟩
    · exact .inl (Pecr.keepsLocks_of_eq hp)
  · exact .inl (Pecr.keepsLocks_of_eq s.complete_pecr)
  · exact .inl s.pecr.keepsLocks_reset

/-- Settles O54: a step that clears a lock runs a key write that clears that lock and no other (`step_locks`). -/
theorem locksClearOnlyByTheirKeys : Obligations.LocksClearOnlyByTheirKeys := by
  intro s t h
  rcases step_locks h with ⟨hpe, hprg⟩ | ⟨i, hi, ⟨hw, hq, hp, hq'⟩ | ⟨hw, hq, hl, hp, hq'⟩⟩
  · exact ⟨fun h1 h0 => by simp [hpe h1] at h0, fun h1 h0 => by simp [hprg h1] at h0⟩
  · exact ⟨fun _ _ => ⟨hq, hq', by rw [hp], i, hi, hw⟩, fun h1 h0 => by simp [hp, h1] at h0⟩
  · exact ⟨fun h1 _ => by simp [hl] at h1, fun _ _ => ⟨hq, hq', hl, i, hi, hw⟩⟩

end Sys2Proof.Machine
end

section
/-! Array reads: what R38 answers at an address, what the read then does, and the fetch from the bank of a burst (R36 to
R39, R80, R100). -/

namespace Sys2Proof.Machine

/-! ## What R38 answers -/

section
variable {s : State} {a b : Word} {buf : List Word} {op : Op}

theorem State.readGate_idle (ho : s.op = .idle) : s.readGate a = .go := by
  simp [State.readGate, ho]

/-- R38: the bank of a burst that is filling or committing is UB_PLACEMENT, and any other bank is read at once. -/
theorem State.readGate_burst (ho : s.op = .hpFill b buf ∨ s.op = .busy (.half b buf)) :
    s.readGate a = if s.cfg.bank a = s.cfg.bank b then .placement else .go := by
  rcases ho with ho | ho <;> simp [State.readGate, ho]

/-- R38: while an operation is pending, a bank other than its own is read at once. -/
theorem State.readGate_busy_other (ho : s.op = .busy op) (hb : s.cfg.bank a ≠ s.cfg.bank op.addr) :
    s.readGate a = .go := by
  cases op with
  | erase p => simpa [State.readGate, ho, Op.addr] using hb
  | word w v => simpa [State.readGate, ho, Op.addr] using hb
  | half b buf => exact (State.readGate_burst (.inr ho)).trans (if_neg hb)

end

/-! ## The outcomes of an array read (R80, R100), beside the hold of `readArray_eq_held` -/

section
variable {s : State} {sz : Size} {a : Word}

/-- R36, R100: a misaligned read is refused, whatever is pending. -/
theorem State.readArray_eq_misaligned (hf : s.cfg.inFlash a = true) (ha : a.toNat % Size.bytes sz ≠ 0) :
    s.readArray sz a = .raised (s.raiseRef .misalignedRead) := by
  simp [State.readArray, hf, ha]

theorem State.readArray_eq_placement (hf : s.cfg.inFlash a = true) (ha : a.toNat % Size.bytes sz = 0)
    (hg : s.readGate a = .placement) : s.readArray sz a = .raised (s.raiseUb .placement) := by
  simp [State.readArray, hf, ha, hg]

theorem State.readArray_eq_value (hf : s.cfg.inFlash a = true) (ha : a.toNat % Size.bytes sz = 0)
    (hg : s.readGate a = .go) : s.readArray sz a = .value (Memory.read s.mem sz a) s := by
  simp [State.readArray, hf, ha, hg]

end

/-- R49: the item of a read that gives a value binds it, and the next item follows. -/
theorem ReadResult.bind_value (v : Word) (x : Temp) (s : State) :
    (ReadResult.value v s).bind x s = .next { s.writeTemp x v with pc := s.pc + 1 } := by
  rw [ReadResult.bind, State.advance, State.writeTemp_pc]

/-- Settles O30: each read gives `MemRead` (R37), which is the bytes at and above its address (`Memory.read_byte`,
`Memory.read_half`, `Memory.read_word`). -/
theorem arrayReadsAreLittleEndian : Obligations.ArrayReadsAreLittleEndian := by
  intro s a x _ hf hg byte
  refine ⟨?_, fun ha => ?_, fun ha => ?_⟩
  · rw [exec, execRdArrB, State.readArray_eq_value hf (Nat.mod_one _) hg, ReadResult.bind_value, Memory.read_byte]
    rfl
  · rw [exec, execRdArrH, State.readArray_eq_value (sz := .half) hf ha hg, ReadResult.bind_value,
      Memory.read_half _ _ ha]
    rfl
  · rw [exec, execRdArrW, State.readArray_eq_value (sz := .word) hf ha hg, ReadResult.bind_value,
      Memory.read_word _ _ ha, BitVec.setWidth_eq]
    rfl

/-- R80: an aligned array read, whatever its size, is `readArray` at that size bound to its temporary, and it holds when
that read does. -/
theorem exec_alignedArrayRead {i : Instr} {a : Word} {x : Temp} (s : State)
    (hi : i = .rdArrB a x ∨ (i = .rdArrH a x ∧ a.toNat % 2 = 0) ∨ (i = .rdArrW a x ∧ a.toNat % 4 = 0)) :
    ∃ sz, a.toNat % Size.bytes sz = 0 ∧ exec i s = (s.readArray sz a).bind x s ∧
      s.instrHeld i = (s.readArray sz a).isHeld := by
  rcases hi with rfl | ⟨rfl, ha⟩ | ⟨rfl, ha⟩
  · exact ⟨.byte, Nat.mod_one _, rfl, rfl⟩
  · exact ⟨.half, ha, rfl, rfl⟩
  · exact ⟨.word, ha, rfl, rfl⟩

/-- Settles O31: alignment first, then the answer of R38 for each pending operation. -/
theorem arrayReadChecksInOrder : Obligations.ArrayReadChecksInOrder := by
  intro s a x hf refused
  refine ⟨fun ha => ?_, fun ha => ?_, State.readGate_idle, fun b buf ho => ⟨fun hb => ?_, fun hb i hi => ?_⟩,
    fun op ho hn => ⟨State.readGate_busy_other ho, fun hb i hi => ?_⟩⟩
  · rw [exec, execRdArrH, State.readArray_eq_misaligned (sz := .half) hf ha]
    rfl
  · rw [exec, execRdArrW, State.readArray_eq_misaligned (sz := .word) hf ha]
    rfl
  · rw [State.readGate_burst ho, if_neg hb]
  · obtain ⟨sz, ha, hx, -⟩ := exec_alignedArrayRead s hi
    have hg : s.readGate a = .placement := by rw [State.readGate_burst ho, if_pos hb]
    rw [hx, State.readArray_eq_placement hf ha hg]
    rfl
  · obtain ⟨sz, ha, hx, hh⟩ := exec_alignedArrayRead s hi
    rw [hx, hh, State.readArray_eq_held hf ha (State.readGate_eq_hold ho hn hb)]
    exact ⟨rfl, rfl⟩

/-! ## The fetch (R39, R49) -/

/-- R39: an item that the decoder does not refuse and whose fetch is UB_PLACEMENT does not run. -/
theorem cpuStep_fetchPlacement {s : State} {item : Item} {i : Instr} (hh : s.halted = false)
    (he : s.entryEnabled = false) (hi : s.prog.items[s.pc]? = some item)
    (hd : decode s.cfg s.arrForm (s.evalItem item) = .ok i) (hp : s.pollRefused i = false)
    (hg : s.fetchGate = .placement) : s.cpuStep = .placement := by
  simp [State.cpuStep, hh, he, hi, hd, hp, hg]

/-- Settles O8: R38 answers UB_PLACEMENT at the base of the code region, so the CPU's step is the raise alone. -/
theorem fetchInTheBurstBankRaisesPlacement : Obligations.FetchInTheBurstBankRaisesPlacement := by
  intro s item i rest b buf hin hh he hi hd hp ho hf hb
  have hg : s.fetchGate = .placement := by
    rw [State.fetchGate, if_pos hf, State.readGate_burst ho, if_pos hb]
  have hc := cpuStep_fetchPlacement hh he hi hd hp hg
  exact step_cpu hin (by rw [hc]; rfl) (by rw [hc]; rfl)

end Sys2Proof.Machine
end

section
/-! The encoding: decode after encode, encode after decode, the reserved encodings, and the row of an array write (R47,
R48, R52, R53, R71). -/

namespace Sys2Proof

section
variable {c : Config}

/-! ## The region of the remaining addresses (R33) -/

theorem regionOf_window {a : Word} (hw : c.inRegWindow a = true) (hr : a ∉ c.regAddrs) : regionOf c a = .regWindow := by
  simp only [Config.regAddrs, List.mem_cons, not_or] at hr
  obtain ⟨h1, h2, h3, h4, -⟩ := hr
  simp [regionOf, h1, h2, h3, h4, hw]

theorem regionOf_unmapped {a : Word} (hr : a ∉ c.regAddrs) (hw : c.inRegWindow a = false) (hf : c.inFlash a = false)
    (hs : a ≠ c.nvicIser) (hp : a ≠ c.nvicIpr) : regionOf c a = .unmapped := by
  simp only [Config.regAddrs, List.mem_cons, not_or] at hr
  obtain ⟨h1, h2, h3, h4, -⟩ := hr
  simp [regionOf, h1, h2, h3, h4, hw, hf, hs, hp]

/-! ## The decoder, by the fields of a word -/

theorem wordOnly_eq_ok {sz : BitVec 2} {i j : Instr} : wordOnly sz i = .ok j ↔ sz = 2#2 ∧ i = j := by
  by_cases h : sz = 2#2 <;> simp [wordOnly, h]

theorem wordOnly_narrow {sz : BitVec 2} (h : sz ≠ 2#2) (i : Instr) : wordOnly sz i = .error .width := if_neg h

/-- R52: past its first two steps the decoder goes by W, and then by address and size. -/
theorem decode_busWord (form : ArrForm) (t : Temp) {w : Bool} {sz : BitVec 2} (a : Word) {d : Word} (hsz : sz ≠ 3#2)
    (hd : w = true ∨ d = 0#32) :
    decode c form (.bus (busWord w sz a d) t) = if w then decodeWrite c form sz a d else decodeRead c sz a t := by
  cases w with
  | true => simp [decode, decodeBus, hsz]
  | false =>
    obtain rfl : d = 0#32 := by simpa using hd
    exact decode_read c form sz a t hsz

/-- R52 step 9, R71: a 32-bit write into the array is the row that the state selects. -/
theorem decode_arrayWrite (hc : c.wf = true) (form : ArrForm) {a : Word} (hf : c.inFlash a = true) (d : Word) (t : Temp) :
    decode c form (.bus (busWord true 2#2 a d) t) = .ok (form.instr a d) := by
  rw [decode_wordWrite, decodeWrite, regionOf_flash hc a hf]
  rfl

/-- R52 step 8: an array read is the row of its size. -/
theorem decode_arrayRead (hc : c.wf = true) (form : ArrForm) {sz : BitVec 2} (hsz : sz ≠ 3#2) {a : Word}
    (hf : c.inFlash a = true) (t : Temp) :
    decode c form (.bus (busWord false sz a 0#32) t) = .ok (arrayReadRow sz a t) := by
  rw [decode_read _ _ _ _ _ hsz, decodeRead, regionOf_flash hc a hf]

/-! ## Decode after encode -/

/-- Settles O2: each register and NVIC word is its own region, the array is one (`decode_arrayWrite`, `decode_arrayRead`),
and a halfword or a symbolic row decodes by computation. -/
theorem decodeOfEncodeIsTheInstruction : Obligations.DecodeOfEncodeIsTheInstruction := by
  intro c i form hc hi hform
  have array : ∀ f a d, i = ArrForm.instr f a d → c.inFlash a = true →
      decode c form (.bus (busWord true 2#2 a d) (.user 0)) = .ok i := fun f a d e hf => by
    rw [decode_arrayWrite hc form hf, hform f a d e, e]
  cases i with
  | wrPekeyr d => rw [encode, decode_wordWrite, decodeWrite, regionOf_pekeyr]; rfl
  | wrPrgkeyr d => rw [encode, decode_wordWrite, decodeWrite, regionOf_prgkeyr hc]; rfl
  | wrPecr d => rw [encode, decode_wordWrite, decodeWrite, regionOf_pecr hc]; rfl
  | wrSr d => rw [encode, decode_wordWrite, decodeWrite, regionOf_sr hc]; rfl
  | wrNvicIpr d => rw [encode, decode_wordWrite, decodeWrite, regionOf_nvicIpr hc]; rfl
  | wrNvicIser d => rw [encode, decode_wordWrite, decodeWrite, regionOf_nvicIser hc]; rfl
  | rdPekeyr t => rw [encode, decode_read _ _ _ _ _ (by decide), decodeRead, regionOf_pekeyr]; rfl
  | rdPrgkeyr t => rw [encode, decode_read _ _ _ _ _ (by decide), decodeRead, regionOf_prgkeyr hc]; rfl
  | rdPecr t => rw [encode, decode_read _ _ _ _ _ (by decide), decodeRead, regionOf_pecr hc]; rfl
  | rdSr t => rw [encode, decode_read _ _ _ _ _ (by decide), decodeRead, regionOf_sr hc]; rfl
  | rdArrW a t => exact decode_arrayRead hc form (sz := 2#2) (by decide) hi t
  | rdArrH a t => exact decode_arrayRead hc form (sz := 1#2) (by decide) hi t
  | rdArrB a t => exact decode_arrayRead hc form (sz := 0#2) (by decide) hi t
  | arrWrLocked a d => exact array .locked a d rfl hi
  | arrWrWord a d => exact array .word a d rfl hi
  | arrWrErase a d => exact array .erase a d rfl hi
  | arrWrHpFirst a d => exact array .hpFirst a d rfl hi
  | arrWrHpNext a d => exact array .hpNext a d rfl hi
  | arrWrBusy a d => exact array .busy a d rfl hi
  | _ => rfl

/-! ## Encode after decode -/

theorem ArrForm.encode_instr (c : Config) (f : ArrForm) (a d : Word) :
    encode c (f.instr a d) = .bus (busWord true 2#2 a d) (.user 0) := by
  cases f <;> rfl

theorem ArrForm.wf_instr (c : Config) (f : ArrForm) (a d : Word) : (f.instr a d).wf c = c.inFlash a := by
  cases f <;> rfl

theorem arrayReadRow_wf (c : Config) (sz : BitVec 2) (a : Word) (t : Temp) :
    (arrayReadRow sz a t).wf c = c.inFlash a := by
  unfold arrayReadRow
  split
  · rfl
  · split <;> rfl

theorem encode_arrayReadRow (c : Config) {sz : BitVec 2} (hsz : sz ≠ 3#2) (a : Word) (t : Temp) :
    encode c (arrayReadRow sz a t) = .bus (busWord false sz a 0#32) t := by
  have hcase : ∀ z : BitVec 2, z ≠ 3#2 → z = 0#2 ∨ z = 1#2 ∨ z = 2#2 := by decide
  rcases hcase sz hsz with rfl | rfl | rfl <;> rfl

/-- Only a 32-bit write decodes, and its row has its address and data as operands. -/
theorem decodeWrite_eq_ok {form : ArrForm} {sz : BitVec 2} {a d : Word} {i : Instr}
    (h : decodeWrite c form sz a d = .ok i) :
    i.wf c = true ∧ encode c i = .bus (busWord true sz a d) (.user 0) := by
  have hr := regionOf_holds c a
  unfold decodeWrite at h
  split at h
  case h_6 hreg =>
    rw [hreg] at hr
    obtain ⟨rfl, rfl⟩ := wordOnly_eq_ok.1 h
    exact ⟨(form.wf_instr c a d).trans hr, form.encode_instr c a d⟩
  case h_5 | h_9 => cases h
  case h_7 hreg | h_8 hreg =>
    rw [hreg] at hr
    obtain rfl := hr
    split at h
    · next hsz =>
      cases h
      exact ⟨rfl, by rw [hsz]; rfl⟩
    · cases h
  all_goals
    next hreg =>
    rw [hreg] at hr
    obtain rfl := hr
    obtain ⟨rfl, rfl⟩ := wordOnly_eq_ok.1 h
    exact ⟨rfl, rfl⟩

/-- The row of a read has its address and its destination as operands, and its size. -/
theorem decodeRead_eq_ok {sz : BitVec 2} (hsz : sz ≠ 3#2) {a : Word} {t : Temp} {i : Instr}
    (h : decodeRead c sz a t = .ok i) : i.wf c = true ∧ encode c i = .bus (busWord false sz a 0#32) t := by
  have hr := regionOf_holds c a
  unfold decodeRead at h
  split at h
  case h_6 hreg =>
    rw [hreg] at hr
    cases h
    exact ⟨(arrayReadRow_wf c sz a t).trans hr, encode_arrayReadRow c hsz a t⟩
  case h_5 | h_7 | h_8 | h_9 => cases h
  all_goals
    next hreg =>
    rw [hreg] at hr
    obtain rfl := hr
    obtain ⟨rfl, rfl⟩ := wordOnly_eq_ok.1 h
    exact ⟨rfl, rfl⟩

theorem decodeBus_eq_ok {form : ArrForm} {T : BitVec 67} {t : Temp} {i : Instr} (h : decodeBus c form T t = .ok i) :
    i.wf c = true ∧ ∃ t', encode c i = .bus T t' := by
  unfold decodeBus at h
  rw [← busWord_fields T]
  split at h
  · cases h
  · next hsz =>
    split at h
    · next hw =>
      obtain ⟨hwf, he⟩ := decodeWrite_eq_ok h
      exact ⟨hwf, .user 0, by rw [he, hw]⟩
    · next hw =>
      split at h
      · cases h
      · next hd =>
        obtain ⟨hwf, he⟩ := decodeRead_eq_ok hsz h
        exact ⟨hwf, t, by rw [he, Bool.eq_false_iff.2 hw, not_not.1 hd]⟩

theorem decodeHalfword_eq_ok {h : BitVec 16} {i : Instr} (hd : decodeHalfword h = .ok i) : encode c i = .cpu h := by
  unfold decodeHalfword at hd
  split at hd
  · next e => cases hd; rw [e]; rfl
  · split at hd
    · next e => cases hd; rw [e]; rfl
    · split at hd
      · next e => cases hd; rw [e]; rfl
      · cases hd

/-- Settles O3: the row that a region and a size select encodes to the four fields it was read from, and a word is its
fields (`busWord_fields`). -/
theorem decodedWordIsTheInstructionsEncoding : Obligations.DecodedWordIsTheInstructionsEncoding :=
  fun _ _ _ _ => ⟨fun _ _ h => decodeBus_eq_ok h, fun _ h => decodeHalfword_eq_ok h⟩

/-! ## Reserved encodings -/

/-- A narrow access to one of the four registers. -/
theorem decode_narrowRegister (hc : c.wf = true) (form : ArrForm) (t : Temp) {a : Word} (ha : a ∈ c.regAddrs) {w : Bool}
    {sz : BitVec 2} {d : Word} (h3 : sz ≠ 3#2) (h2 : sz ≠ 2#2) (hd : w = true ∨ d = 0#32) :
    decode c form (.bus (busWord w sz a d) t) = .error .width := by
  rw [decode_busWord form t a h3 hd]
  simp only [Config.regAddrs, List.mem_cons, List.not_mem_nil, or_false] at ha
  rcases ha with rfl | rfl | rfl | rfl
  · simp [decodeWrite, decodeRead, regionOf_pekeyr, wordOnly_narrow h2]
  · simp [decodeWrite, decodeRead, regionOf_prgkeyr hc, wordOnly_narrow h2]
  · simp [decodeWrite, decodeRead, regionOf_pecr hc, wordOnly_narrow h2]
  · simp [decodeWrite, decodeRead, regionOf_sr hc, wordOnly_narrow h2]

/-- An NVIC word that is read or written narrow. -/
theorem decode_nvicRefused (hc : c.wf = true) (form : ArrForm) (t : Temp) {a : Word} (ha : a ∈ [c.nvicIser, c.nvicIpr])
    {w : Bool} {sz : BitVec 2} {d : Word} (h3 : sz ≠ 3#2) (h2 : w = true → sz ≠ 2#2) (hd : w = true ∨ d = 0#32) :
    decode c form (.bus (busWord w sz a d) t) = .error .unmapped := by
  rw [decode_busWord form t a h3 hd]
  have hreg : regionOf c a = .nvicIser ∨ regionOf c a = .nvicIpr := by
    simp only [List.mem_cons, List.not_mem_nil, or_false] at ha
    rcases ha with rfl | rfl
    · exact .inl (regionOf_nvicIser hc)
    · exact .inr (regionOf_nvicIpr hc)
  cases w with
  | true => rcases hreg with e | e <;> simp [decodeWrite, e, h2 rfl]
  | false => rcases hreg with e | e <;> simp [decodeRead, e]

/-- Settles O4: the first two checks of R52 and the halfwords by their own tests, every other clause by the region of its
address. -/
theorem reservedEncodingsAreRefused : Obligations.ReservedEncodingsAreRefused := by
  intro c form t hc
  refine ⟨fun T hT => if_pos hT, fun T hT hw hd => ?_, fun h h1 h2 h3 => ?_, fun a ha w sz d h3 h2 hd => ?_,
    fun a hw hr w sz d h3 hd => ?_, fun a hf sz d h3 h2 => ?_, fun a ha w sz d h3 h2 hd => ?_,
    fun a hr hw hf hs hp w sz d h3 hd => ?_⟩
  · simp [decode, decodeBus, hT, hw, hd]
  · simp [decode, decodeHalfword, h1, h2, h3]
  · exact decode_narrowRegister hc form t ha h3 h2 hd
  · rw [decode_busWord form t a h3 hd]
    simp [decodeWrite, decodeRead, regionOf_window hw hr]
  · rw [decode_busWord form t a h3 (.inl rfl), if_pos rfl, decodeWrite, regionOf_flash hc a hf]
    exact wordOnly_narrow h2 _
  · exact decode_nvicRefused hc form t ha h3 h2 hd
  · rw [decode_busWord form t a h3 hd]
    simp [decodeWrite, decodeRead, regionOf_unmapped hr hw hf hs hp]

end

/-- Settles O1: each word is decoded by computation, under the default parameters. -/
theorem tableWordsDecodeToTheirRows : Obligations.TableWordsDecodeToTheirRows := by
  refine ⟨?_, ?_, ?_, ?_, ?_, ?_, ?_, ?_⟩ <;> decide

end Sys2Proof

namespace Sys2Proof.Machine

/-! ## The row of an array write -/

/-- Settles O5: the word decodes to the row of `arrForm` (`decode_arrayWrite`), which is R71's choice. -/
theorem stateSelectsTheArrayWriteRow : Obligations.StateSelectsTheArrayWriteRow := by
  intro s a d t hc hf row
  have hrow : row = .ok (s.arrForm.instr a d) := decode_arrayWrite hc s.arrForm hf d t
  rw [hrow]
  refine ⟨fun op ho => ?_, fun b buf ho => ?_, fun ho hl => ?_, fun ho h1 h2 => ⟨fun hm => ?_, fun hm => ?_, fun hm => ?_⟩⟩
  · simp [State.arrForm, ho, ArrForm.instr]
  · simp [State.arrForm, ho, ArrForm.instr]
  · simp [State.arrForm, ho, hl, ArrForm.instr]
  · simp [State.arrForm, ho, h1, h2, hm, ArrForm.instr]
  · simp [State.arrForm, ho, h1, h2, hm, ArrForm.instr]
  · simp [State.arrForm, ho, h1, h2, hm, ArrForm.instr]

end Sys2Proof.Machine
end

section
/-! Single items: the step at a decoded item, the LOCAL branch, and POLL over each kind of target (R48 to R50, R84). -/

namespace Sys2Proof.Machine

/-- Settles O6: every instruction answers a next state (`exec_next`), and the step is it and the latch (`step_item`). -/
theorem stepRunsTheDecodedInstruction : Obligations.StepRunsTheDecodedInstruction := by
  intro s item i rest hin hh he hi hd hf hn
  obtain ⟨t, ht⟩ := exec_next i { s with inputs := rest }
  exact ⟨t, ht, step_item hin hh he hi hd hf hn ht⟩

/-- Settles O38: the two branches of BRNZ. -/
theorem branchOnATemporary : Obligations.BranchOnATemporary :=
  fun _ _ _ _ => ⟨fun h => if_pos h, fun h => if_neg (not_not.2 h)⟩

/-! ## POLL (R50) -/

section
variable {s t : State} {g : Target} {v : Word}

/-- A read that gives a value binds it, and pc moves on exactly when the condition holds. -/
theorem exec_poll_value (mask val : Word) (h : s.readBusWord (s.evalTarget g) = .value v t) :
    exec (.poll g mask val) s =
      .next { t with seqT := v, pc := if v &&& mask = val then t.pc + 1 else t.pc } := by
  simp only [exec, execPoll, h]
  by_cases hv : v &&& mask = val
  · rw [if_neg (not_not.2 hv), if_pos hv]
    rfl
  · rw [if_pos hv, if_neg hv]
    rfl

/-- A read that raises a code leaves the POLL at its item (A16). -/
theorem exec_poll_raised (mask val : Word) (h : s.readBusWord (s.evalTarget g) = .raised t) :
    exec (.poll g mask val) s = .next t := by
  simp only [exec, execPoll, h]

/-- A read that holds leaves the state as it is, and the CPU waits (A23). -/
theorem exec_poll_held (mask val : Word) (h : s.readBusWord (s.evalTarget g) = .held) :
    s.instrHeld (.poll g mask val) = true ∧ exec (.poll g mask val) s = .next s := by
  simp only [exec, execPoll, State.instrHeld, h, ReadResult.isHeld, and_self]

end

section
variable {s : State}

theorem State.readBusWord_sr (hc : s.cfg.wf = true) : s.readBusWord s.cfg.srAddr = .value s.readSr s.useDraw := by
  rw [State.readBusWord, regionOf_sr hc]

theorem State.readBusWord_pecr (hc : s.cfg.wf = true) : s.readBusWord s.cfg.pecrAddr = .value s.pecr.toWord s := by
  rw [State.readBusWord, regionOf_pecr hc]

theorem State.readBusWord_keyPort (hc : s.cfg.wf = true) {a : Word} (ha : a = s.cfg.pekeyrAddr ∨ a = s.cfg.prgkeyrAddr) :
    s.readBusWord a = .value 0#32 s := by
  rcases ha with rfl | rfl
  · rw [State.readBusWord, regionOf_pekeyr]
  · rw [State.readBusWord, regionOf_prgkeyr hc]

theorem State.readBusWord_flash (hc : s.cfg.wf = true) {a : Word} (hf : s.cfg.inFlash a = true) :
    s.readBusWord a = s.readArray .word a := by
  rw [State.readBusWord, regionOf_flash hc a hf]

end

/-- Settles O39: the one read of each kind of target (`readBusWord`), and what POLL makes of its result. -/
theorem pollRepeatsUntilTheCondition : Obligations.PollRepeatsUntilTheCondition := by
  intro s g mask val hc a next
  refine ⟨fun ha => ?_, fun ha => ?_, fun ha => ?_, fun code hd => ?_, fun hf ha => ?_,
    fun hf ha => ⟨fun hg => ?_, fun hg => ?_, fun hg => ?_⟩⟩
  · exact exec_poll_value mask val ((congrArg s.readBusWord ha).trans (State.readBusWord_sr hc))
  · exact exec_poll_value mask val ((congrArg s.readBusWord ha).trans (State.readBusWord_pecr hc))
  · exact exec_poll_value mask val (State.readBusWord_keyPort hc ha)
  · rw [decode_read _ _ _ _ _ (by decide)] at hd
    exact exec_pollRefused mask val hd
  · exact exec_poll_raised mask val
      ((State.readBusWord_flash hc hf).trans (State.readArray_eq_misaligned (sz := .word) hf ha))
  · rw [← Memory.read_word _ _ ha]
    exact exec_poll_value mask val
      ((State.readBusWord_flash hc hf).trans (State.readArray_eq_value (sz := .word) hf ha hg))
  · exact exec_poll_raised mask val
      ((State.readBusWord_flash hc hf).trans (State.readArray_eq_placement (sz := .word) hf ha hg))
  · exact exec_poll_held mask val (State.readBusWord_eq_held hc hf ha hg)

end Sys2Proof.Machine
end

section
/-! Pseudo-instructions: the item that an expansion begins with, and the pseudo-instruction as that item in the expanded
program (R55, A15). -/

namespace Sys2Proof.Machine

/-- An item that an expansion begins with, and the instruction it decodes to. -/
inductive Opening : Item → Instr → Prop
  | wrPekeyr (d : Word) : Opening (.wr (.reg .pekeyr) (.imm d)) (.wrPekeyr d)
  | wrPrgkeyr (d : Word) : Opening (.wr (.reg .prgkeyr) (.imm d)) (.wrPrgkeyr d)
  | wrSr (d : Word) : Opening (.wr (.reg .sr) (.imm d)) (.wrSr d)
  | wrNvicIpr (d : Word) : Opening (.wr (.reg .nvicIpr) (.imm d)) (.wrNvicIpr d)
  | rdPecr (t : Temp) : Opening (.rd .word (.reg .pecr) t) (.rdPecr t)
  | pollSr (mask val : Word) : Opening (.code (.sym (.poll (.reg .sr) mask val))) (.poll (.reg .sr) mask val)

namespace Opening

variable {s t : State} {item : Item} {j : Instr}

/-- An opening item names no label. -/
theorem relabel (h : Opening item j) (pc len : Nat) : Item.relabel pc len item = item := by
  cases h <;> rfl

theorem decode (h : Opening item j) (hc : s.cfg.wf = true) : decode s.cfg s.arrForm (s.evalItem item) = .ok j := by
  cases h with
  | wrPekeyr d => exact (decode_wrReg _ _ .pekeyr _ _).trans (by rw [decodeWrite, regAddr, regionOf_pekeyr]; rfl)
  | wrPrgkeyr d => exact (decode_wrReg _ _ .prgkeyr _ _).trans (by rw [decodeWrite, regAddr, regionOf_prgkeyr hc]; rfl)
  | wrSr d => exact (decode_wrReg _ _ .sr _ _).trans (by rw [decodeWrite, regAddr, regionOf_sr hc]; rfl)
  | wrNvicIpr d => exact (decode_wrReg _ _ .nvicIpr _ _).trans (by rw [decodeWrite, regAddr, regionOf_nvicIpr hc]; rfl)
  | rdPecr t => exact (decode_rdReg _ _ .pecr _).trans (by rw [decodeRead, regAddr, regionOf_pecr hc]; rfl)
  | pollSr mask val => rfl

/-- No opening item waits for an operation: none reads the array. -/
theorem not_held (h : Opening item j) (hc : s.cfg.wf = true) : s.instrHeld j = false := by
  cases h with
  | pollSr mask val =>
    show (s.readBusWord s.cfg.srAddr).isHeld = false
    rw [State.readBusWord_sr hc]
    rfl
  | _ => rfl

/-- No opening item changes the program's text. -/
theorem exec_prog (h : Opening item j) (hx : exec j s = .next t) : t.prog = s.prog := by
  have effect : ∀ {c : State}, CpuEffect s c → cpuLocal c t → t.prog = s.prog := fun {c} hc hl => by
    obtain ⟨pc, temps, x, y, -, rfl⟩ := hl
    exact hc.frame.1
  cases h with
  | wrPekeyr d => cases hx; exact effect (.pekeyr d) (cpuLocal_advance _)
  | wrPrgkeyr d => cases hx; exact effect (.prgkeyr d) (cpuLocal_advance _)
  | wrSr d => cases hx; exact effect (.sr d) (cpuLocal_advance _)
  | wrNvicIpr d => cases hx; exact effect (.nvicIpr d) (cpuLocal_advance _)
  | rdPecr x =>
    obtain ⟨c, hc, hl⟩ := ReadResult.bind_effect (.value s.pecr.toWord s) x (.inl rfl) hx
    exact effect hc hl
  | pollSr mask val =>
    obtain ⟨c, hc, hl⟩ := execPoll_effect hx
    exact effect hc hl

end Opening

/-- An instruction that expands begins with an opening item, and it runs as that item in the expanded program. -/
theorem expansion_opens {s : State} {i : Instr} (h : expansion s.cfg i ≠ []) :
    ∃ item tail j, expansion s.cfg i = item :: tail ∧ Opening item j ∧
      exec i s = exec j (s.expand (expansion s.cfg i)) := by
  cases i with
  | acquirePe => exact ⟨_, _, _, rfl, .wrPekeyr _, rfl⟩
  | acquirePrg => exact ⟨_, _, _, rfl, .wrPrgkeyr _, rfl⟩
  | acquireChecked sc l =>
    cases sc with
    | dataScope => exact ⟨_, _, _, rfl, .wrPekeyr _, rfl⟩
    | programScope => exact ⟨_, _, _, rfl, .wrPrgkeyr _, rfl⟩
  | release => exact ⟨_, _, _, rfl, .rdPecr _, rfl⟩
  | waitDone => exact ⟨_, _, _, rfl, .pollSr _ _, rfl⟩
  | erasePage a => exact ⟨_, _, _, rfl, .wrPekeyr _, rfl⟩
  | programWord a v => exact ⟨_, _, _, rfl, .wrPekeyr _, rfl⟩
  | programHalf b p w => exact ⟨_, _, _, rfl, .wrPekeyr _, rfl⟩
  | init => exact ⟨_, _, _, rfl, .wrPekeyr _, rfl⟩
  | cfgIrq p => exact ⟨_, _, _, rfl, .wrNvicIpr _, rfl⟩
  | faultHandler => exact ⟨_, _, _, rfl, .wrSr _, rfl⟩
  | _ => exact absurd rfl h

/-- An instruction that expands is no POLL, so the decoder does not refuse its read. -/
theorem State.pollRefused_of_expansion {s : State} {i : Instr} (h : expansion s.cfg i ≠ []) :
    s.pollRefused i = false := by
  cases hp : s.pollRefused i
  · rfl
  · obtain ⟨g, m, v, -, rfl, -⟩ := State.pollRefused_elim hp
    exact absurd rfl h

/-- Settles O43: the first item of the body stands at pc of the expanded program (`expandAt_get`), is fetched and run
there, and runs as the pseudo-instruction does (`expansion_opens`). -/
theorem sequenceStepsAsItsExpansion : Obligations.SequenceStepsAsItsExpansion := by
  intro s i rest hc hin hrun hexp
  obtain ⟨hh, he, item, hi, -, hgo⟩ := cpuStep_eq_run hrun
  have hfetch : s.fetchGate = .go := by
    rw [State.pollRefused_of_expansion hexp] at hgo
    exact (hgo.resolve_left Bool.false_ne_true).1
  obtain ⟨first, tail, j, hbody, hopen, hexec⟩ := expansion_opens (s := { s with inputs := rest }) hexp
  have hfirst : (expandAt s.pc (expansion s.cfg i) s.prog.items)[s.pc]? = some first := by
    have hpc : s.pc < s.prog.items.length := (List.getElem?_eq_some_iff.1 hi).1
    have := expandAt_get s.pc 0 (expansion s.cfg i) s.prog.items hpc (List.length_pos_iff.2 hexp)
    simpa [hbody, hopen.relabel] using this
  obtain ⟨u, hu⟩ := exec_next i { s with inputs := rest }
  have hstep : step s = .next u.latch := step_cpu hin (by rw [hrun]; rfl) (by rw [hrun]; exact hu)
  rw [hstep]
  exact (step_item (s := s.expand (expansion s.cfg i)) hin hh he hfirst (hopen.decode hc) hfetch (hopen.not_held hc)
    (hexec.symm.trans hu)).symm

/-- What O42 says of one pseudo-instruction, from its items and its first one. -/
theorem runs_opening {s : State} {i j : Instr} {item : Item} {items : List Item} (hopen : Opening item j)
    (he : expansion s.cfg i = items) (hx : exec i s = exec j (s.expand items)) :
    expansion s.cfg i = items ∧
    ∃ u, exec i s = .next u ∧ exec j (s.expand items) = .next u ∧
      ∀ k < items.length, s.pc < s.prog.items.length →
        u.prog.items[s.pc + k]? = (items[k]?).map (Item.relabel s.pc items.length) := by
  obtain ⟨u, hu⟩ := exec_next i s
  have hj : exec j (s.expand items) = .next u := hx.symm.trans hu
  refine ⟨he, u, hu, hj, fun k hk hpc => ?_⟩
  rw [hopen.exec_prog hj]
  exact expandAt_get s.pc k items s.prog.items hpc hk

/-- Settles O42: each item list is the expansion by computation, and each meaning is that of the opening item in the
expanded program (`runs_opening`). -/
theorem sequencesRunTheirFirstItem : Obligations.SequencesRunTheirFirstItem := by
  intro s wr poll readPecr t pelock prglock prog erase fprg eopie errie keysPe keysPrg release wait prio runs
  refine ⟨?_, ?_, fun l => ?_, fun l => ?_, ?_, ?_, fun a => ?_, fun a v => ?_, fun b p h => ?_, ?_, fun p => ?_, ?_⟩
  · exact runs_opening (.wrPekeyr _) rfl rfl
  · exact runs_opening (.wrPrgkeyr _) rfl rfl
  · exact runs_opening (.wrPekeyr _) rfl rfl
  · exact runs_opening (.wrPrgkeyr _) rfl rfl
  · exact runs_opening (.rdPecr _) rfl rfl
  · exact runs_opening (.pollSr _ _) rfl rfl
  · exact runs_opening (.wrPekeyr _) rfl rfl
  · exact runs_opening (.wrPekeyr _) rfl rfl
  · exact runs_opening (.wrPekeyr _) rfl rfl
  · exact runs_opening (.wrPekeyr _) rfl rfl
  · exact runs_opening (.wrNvicIpr _) rfl rfl
  · exact runs_opening (.wrSr _) rfl rfl

end Sys2Proof.Machine
end

section
/-! The key ports and PECR: what each register transaction does, bit by bit (R56 to R60). -/

namespace Sys2Proof.Machine

variable {s : State} {d : Word}

/-! ## Bits of a PECR read (R15, R16, R60) -/

theorem getLsbD_bitIf (b : Bool) (i : Nat) {k : Nat} (hk : k < 32) :
    (bitIf b i).getLsbD k = (b && decide (k = i)) := by
  cases b with
  | false => simp [bitIf]
  | true =>
    rw [bitIf, if_pos rfl, Bool.true_and]
    by_cases hi : k = i
    · subst hi
      simp [bit, hk]
    · rw [decide_eq_false hi]
      exact Bool.eq_false_iff.2 fun h => hi (getLsbD_bit h)

/-- R15, R16: the word of PECR has each field in its place and 0 elsewhere. -/
theorem Pecr.getLsbD_toWord (p : Pecr) {k : Nat} (hk : k < 32) :
    p.toWord.getLsbD k =
      (if k = 0 then p.pelock else if k = 1 then p.prglock else if k = 3 then p.prog else if k = 9 then p.erase
       else if k = 10 then p.fprg else if k = 16 then p.eopie else if k = 17 then p.errie else false) := by
  simp only [toWord, BitVec.getLsbD_or, getLsbD_bitIf _ _ hk]
  split_ifs <;> simp [*]

/-! ## The key sequencers (R20, R56, R57) -/

theorem wrongKey_eq (c : Config) : wrongKey c = if c.keyErrorPolicy = .retry then .k0 else .dead := by
  unfold wrongKey
  cases c.keyErrorPolicy <;> rfl

theorem rearm_eq (q : KeySeq) : rearm q = if q = .dead then .dead else .k0 := by
  cases q <;> rfl

/-- R56: a PEKEYR write as a function of PELOCK and the sequencer. -/
def peKeyWrite (c : Config) (d : Word) : Bool × KeySeq → Bool × KeySeq
  | (false, q) => (false, q)
  | (true, .k0) => (true, if d = c.keyPe1 then .k1 else wrongKey c)
  | (true, .k1) => if d = c.keyPe2 then (false, .k0) else (true, wrongKey c)
  | (true, .dead) => (true, .dead)

/-- R56: a PEKEYR write is `peKeyWrite`, and every other field stays. -/
theorem State.writePekeyr_eq (s : State) (d : Word) :
    s.writePekeyr d =
      { s with
        pecr := { s.pecr with pelock := (peKeyWrite s.cfg d (s.pecr.pelock, s.peSeq)).1 }
        peSeq := (peKeyWrite s.cfg d (s.pecr.pelock, s.peSeq)).2 } := by
  obtain ⟨c, ⟨l⟩, eop, err, q⟩ := s
  cases l with
  | false => rfl
  | true =>
    cases q with
    | k0 => rfl
    | k1 =>
      unfold writePekeyr peKeyWrite
      by_cases hd : d = c.keyPe2 <;> simp [hd]
    | dead => rfl

/-- Settles O10: the word by its region, and R56's branches: PELOCK, then the sequencer, then the key. -/
theorem dataKeyPortWrite : Obligations.DataKeyPortWrite := by
  intro s d
  refine ⟨fun _ t => ?_, ?_⟩
  · exact (decode_wordWrite _ _ s.cfg.pekeyrAddr _ _).trans (by rw [decodeWrite, regionOf_pekeyr]; rfl)
  · simp only [exec, execWrPekeyr, State.writePekeyr, ← wrongKey_eq]
    cases s.pecr.pelock with
    | false => rfl
    | true =>
      cases hq : s.peSeq with
      | k0 => rfl
      | k1 => by_cases hd : d = s.cfg.keyPe2 <;> simp [hd, State.advance]
      | dead => simp [hq, State.advance]

/-- Settles O11: as for PEKEYR, after the two locks of R57. -/
theorem programKeyPortWrite : Obligations.ProgramKeyPortWrite := by
  intro s d
  refine ⟨fun hc t => ?_, ?_⟩
  · exact (decode_wordWrite _ _ s.cfg.prgkeyrAddr _ _).trans (by rw [decodeWrite, regionOf_prgkeyr hc]; rfl)
  · simp only [exec, execWrPrgkeyr, State.writePrgkeyr, ← wrongKey_eq]
    cases s.pecr.pelock with
    | true => rfl
    | false =>
      cases s.pecr.prglock with
      | false => rfl
      | true =>
        cases hq : s.prgSeq with
        | k0 => rfl
        | k1 => by_cases hd : d = s.cfg.keyPrg2 <;> simp [hd, State.advance]
        | dead => simp [hq, State.advance]

/-- Settles O12: both rows bind 0 (`ReadResult.bind_value`), whatever the state. -/
theorem keyPortReadsGiveZero : Obligations.KeyPortReadsGiveZero := by
  intro s x i hi
  refine ⟨fun hc => ⟨?_, ?_⟩, ?_⟩
  · rw [decode_read _ _ _ _ _ (by decide), decodeRead, regionOf_pekeyr]; rfl
  · rw [decode_read _ _ _ _ _ (by decide), decodeRead, regionOf_prgkeyr hc]; rfl
  · rcases hi with rfl | rfl
    · exact ReadResult.bind_value 0#32 x s
    · exact ReadResult.bind_value 0#32 x s

/-- Settles O14: the value is the word of PECR, whose bits are `Pecr.getLsbD_toWord`. -/
theorem controlRegisterRead : Obligations.ControlRegisterRead := by
  intro s x
  refine ⟨fun hc => ?_, s.pecr.toWord, ReadResult.bind_value _ x s, fun k hk => s.pecr.getLsbD_toWord hk⟩
  exact (decode_read _ _ _ s.cfg.pecrAddr _ (by decide)).trans (by rw [decodeRead, regionOf_pecr hc]; rfl)

/-! ## PECR writes, by the checks of R59 in order -/

/-- R24's RESERVED rows: ERASE and FPRG together, or either without PROG. -/
theorem modeOf_eq_reserved_iff : ∀ prog erase fprg : Bool, modeOf prog erase fprg = .reserved ↔
    (erase = true ∧ fprg = true) ∨ (prog = false ∧ (erase = true ∨ fprg = true)) := by decide

theorem State.bsy_of_idle (ho : s.op = .idle) : s.bsy = false := by
  simp [bsy, ho]

theorem State.writePecr_pending (d : Word) (ho : s.op ≠ .idle) : s.writePecr d = s.raiseUb .pecrWhileBusy := by
  rw [writePecr, if_pos (bsy_of_pending ho)]

theorem State.writePecr_locked (d : Word) (ho : s.op = .idle) (hl : s.pecr.pelock = true) : s.writePecr d = s := by
  simp [writePecr, bsy_of_idle ho, hl]

theorem State.writePecr_badBit (ho : s.op = .idle) (hl : s.pecr.pelock = false)
    (hd : d.getLsbD 4 = true ∨ d.getLsbD 8 = true) : s.writePecr d = s.raiseRef .pecrBit := by
  have hbit : (d.getLsbD 4 || d.getLsbD 8) = true := by simpa only [Bool.or_eq_true] using hd
  simp only [writePecr, bsy_of_idle ho, hl, hbit, Bool.false_eq_true, if_false, if_true]

theorem State.writePecr_reserved (ho : s.op = .idle) (hl : s.pecr.pelock = false) (h4 : d.getLsbD 4 = false)
    (h8 : d.getLsbD 8 = false) (hm : modeOf (d.getLsbD 3) (d.getLsbD 9) (d.getLsbD 10) = .reserved) :
    s.writePecr d = s.raiseUb .reservedMode := by
  simp only [writePecr, bsy_of_idle ho, hl, h4, h8, hm, Bool.or_self, Bool.false_eq_true, if_false, if_true]

theorem State.writePecr_accepted (ho : s.op = .idle) (hl : s.pecr.pelock = false) (h4 : d.getLsbD 4 = false)
    (h8 : d.getLsbD 8 = false) (hm : modeOf (d.getLsbD 3) (d.getLsbD 9) (d.getLsbD 10) ≠ .reserved) :
    s.writePecr d =
      { s with
        pecr := pecrAfterWrite s.pecr d
        peSeq := if d.getLsbD 0 then rearm s.peSeq else s.peSeq
        prgSeq := if d.getLsbD 1 || d.getLsbD 0 then rearm s.prgSeq else s.prgSeq } := by
  simp only [writePecr, bsy_of_idle ho, hl, h4, h8, hm, Bool.or_self, Bool.false_eq_true, if_false]

/-- R59: a sequencer whose lock is set again where `p` holds. -/
theorem rearm_if (p : Prop) [Decidable p] (q : KeySeq) :
    (if p then rearm q else q) = if p ∧ q ≠ .dead then .k0 else q := by
  by_cases hp : p <;> cases q <;> simp [hp, rearm]

/-- Settles O13: one lemma for each check of R59, in order, and the accepted write field by field. -/
theorem controlRegisterWrite : Obligations.ControlRegisterWrite := by
  intro s d
  refine ⟨fun hc t => ?_, fun ho => ?_, fun ho hl => ?_, fun ho hl hd => ?_,
    fun ho hl h4 h8 => ⟨fun hm => ?_, fun hm => ?_⟩⟩
  · exact (decode_wordWrite _ _ s.cfg.pecrAddr _ _).trans (by rw [decodeWrite, regionOf_pecr hc]; rfl)
  · rw [exec, execWrPecr, State.writePecr_pending d ho]; rfl
  · rw [exec, execWrPecr, State.writePecr_locked d ho hl]; rfl
  · rw [exec, execWrPecr, State.writePecr_badBit ho hl hd]; rfl
  · rw [exec, execWrPecr, State.writePecr_reserved ho hl h4 h8 ((modeOf_eq_reserved_iff _ _ _).2 hm)]; rfl
  · rw [exec, execWrPecr, State.writePecr_accepted ho hl h4 h8 (mt (modeOf_eq_reserved_iff _ _ _).1 hm)]
    simp only [rearm_if, pecrAfterWrite, hl, Bool.false_or, Bool.or_eq_true, or_comm (a := d.getLsbD 1 = true)]
    rfl

end Sys2Proof.Machine
end

section
/-! ACQUIRE_PE and RELEASE, each run whole: an expanded sequence item by item (R49, R55, R61, R64). -/

namespace Sys2Proof.Machine

variable {s : State}

/-! ## The items of an expanded pseudo-instruction (R49, R55) -/

/-- `t` stands `k` items into `body`, which was expanded at `s`, with the CPU and op_state as they were there but for the
latch of R84. -/
structure ItemsOn (s : State) (body : List Item) (k : Nat) (t : State) : Prop where
  cfg        : t.cfg = s.cfg
  op         : t.op = s.op
  prog       : t.prog = (s.expand body).prog
  pc         : t.pc = s.pc + k
  irqPending : t.irqPending = (s.irqPending || s.flashLine)
  irqEn      : t.irqEn = s.irqEn
  primask    : t.primask = s.primask
  inHandler  : t.inHandler = s.inHandler
  halted     : t.halted = s.halted

/-- The CPU goes on with item `k` of an expanded pseudo-instruction, where no interrupt can be taken. -/
theorem ItemsOn.atItem {t : State} {first item : Item} {body : List Item} {k : Nat} {rest rest' : List Input}
    (h : ItemsOn s body k t) (hs : AtItem s first rest') (he : s.latch.entryEnabled = false)
    (hk : body[k]? = some item) (hr : Item.relabel s.pc body.length item = item) (hin : t.inputs = .cpu :: rest) :
    AtItem t item rest where
  inputs := hin
  halted := h.halted.trans hs.halted
  entry := by simpa [State.entryEnabled, h.irqPending, h.irqEn, h.primask, h.inHandler, h.halted] using he
  fetch := by simpa [State.fetchGate, State.readGate, h.cfg, h.op, h.prog] using hs.fetch
  item := by
    have hpc : s.pc < s.prog.items.length := (List.getElem?_eq_some_iff.1 hs.item).1
    have hlt : k < body.length := (List.getElem?_eq_some_iff.1 hk).1
    rw [h.prog, h.pc, State.expand_prog, expandAt_get s.pc k body _ hpc hlt, hk, Option.map_some, hr]
  cfg_wf := h.cfg ▸ hs.cfg_wf

/-! ## ACQUIRE_PE (R61) -/

/-- R61: what the two keys of ACQUIRE_PE make of PELOCK and the sequencer. -/
def acquirePeResult (c : Config) (p : Bool × KeySeq) : Bool × KeySeq :=
  peKeyWrite c c.keyPe2 (peKeyWrite c c.keyPe1 p)

section
variable {c : Config}

theorem acquirePeResult_unlocked (q : KeySeq) : acquirePeResult c (false, q) = (false, q) := rfl

theorem acquirePeResult_k0 : acquirePeResult c (true, .k0) = (false, .k0) := by
  simp [acquirePeResult, peKeyWrite]

/-- From K1 the first key is a wrong key, and the second then is one too, or it meets DEAD. -/
theorem acquirePeResult_k1 (hk : c.keyPe1 ≠ c.keyPe2) : acquirePeResult c (true, .k1) = (true, wrongKey c) := by
  have hfirst : peKeyWrite c c.keyPe1 (true, .k1) = (true, wrongKey c) := by simp [peKeyWrite, hk]
  rw [acquirePeResult, hfirst]
  cases hp : c.keyErrorPolicy <;> simp [peKeyWrite, wrongKey, hp, hk.symm]

theorem acquirePeResult_dead : acquirePeResult c (true, .dead) = (true, .dead) := rfl

end

/-- R61: ACQUIRE_PE in two CPU steps is two PEKEYR writes, and they change nothing but PELOCK and the sequencer. -/
theorem run_acquirePe {rest : List Input} (hs : AtItem s (.code (.sym .acquirePe)) (.cpu :: rest))
    (he : s.latch.entryEnabled = false) :
    ∃ t : State, Host.Core.run Sys2Proof.core 2 s = .next t ∧ t.pc = s.pc + 2 ∧ t.inputs = rest ∧
      t.pecr = { s.pecr with pelock := (acquirePeResult s.cfg (s.pecr.pelock, s.peSeq)).1 } ∧
      t.peSeq = (acquirePeResult s.cfg (s.pecr.pelock, s.peSeq)).2 ∧
      t.prgSeq = s.prgSeq ∧ t.op = s.op ∧ t.mem = s.mem ∧ t.eop = s.eop ∧ t.err = s.err ∧ t.reasons = s.reasons := by
  have hfirst := step_item (i := .acquirePe) hs.inputs hs.halted hs.entry hs.item rfl hs.fetch rfl rfl
  have hon : ItemsOn s (acquirePeItems s.cfg) 1
      (({ s with inputs := .cpu :: rest }.expand (acquirePeItems s.cfg)).writePekeyr s.cfg.keyPe1).advance.latch := by
    constructor
    case irqPending => rw [State.writePekeyr_eq]; rfl
    all_goals simp [State.writePekeyr_eq]
  have hsecond := step_wrPekeyr (hon.atItem (rest := rest) hs he rfl rfl (by simp [State.writePekeyr_eq]))
  exact ⟨_, run_snoc (run_one hfirst) hsecond, by simp [State.writePekeyr_eq, acquirePeResult, State.evalExpr]⟩

/-- Settles O15: PELOCK and the sequencer are `acquirePeResult` of what they were (`run_acquirePe`), in each case of R61. -/
theorem acquirePeClearsTheDataLock : Obligations.AcquirePeClearsTheDataLock := by
  intro s rest hc hh he hf hi hin
  obtain ⟨t, hrun, hpc, hins, hpecr, hseq, hframe⟩ :=
    run_acquirePe ⟨hin, hh, entryEnabled_of_latch he, hf, hi, hc⟩ he
  have result : ∀ {l q}, acquirePeResult s.cfg (s.pecr.pelock, s.peSeq) = (l, q) →
      t.pecr = { s.pecr with pelock := l } ∧ t.peSeq = q := fun h => by rw [hpecr, hseq, h]; exact ⟨rfl, rfl⟩
  refine ⟨t, hrun, hpc, hins, fun hl => ?_, fun hl hq => ?_, fun hl hq hk => ?_, fun hl hq => ?_, hframe⟩
  · exact result (l := s.pecr.pelock) (by rw [hl, acquirePeResult_unlocked])
  · exact result (by rw [hl, hq, acquirePeResult_k0])
  · rw [← wrongKey_eq]
    exact result (l := s.pecr.pelock) (by rw [hl, hq, acquirePeResult_k1 hk])
  · exact result (l := s.pecr.pelock) (by rw [hl, hq, acquirePeResult_dead])

/-! ## RELEASE (R64) -/

/-- The bits that the checks and the effect of R59 read, of the word of a PECR (R15). -/
theorem Pecr.toWord_bits (p : Pecr) :
    p.toWord.getLsbD 0 = p.pelock ∧ p.toWord.getLsbD 1 = p.prglock ∧ p.toWord.getLsbD 3 = p.prog ∧
    p.toWord.getLsbD 4 = false ∧ p.toWord.getLsbD 8 = false ∧ p.toWord.getLsbD 9 = p.erase ∧
    p.toWord.getLsbD 10 = p.fprg ∧ p.toWord.getLsbD 16 = p.eopie ∧ p.toWord.getLsbD 17 = p.errie :=
  ⟨p.getLsbD_toWord (by decide), p.getLsbD_toWord (by decide), p.getLsbD_toWord (by decide),
    p.getLsbD_toWord (by decide), p.getLsbD_toWord (by decide), p.getLsbD_toWord (by decide),
    p.getLsbD_toWord (by decide), p.getLsbD_toWord (by decide), p.getLsbD_toWord (by decide)⟩

/-- R64: the word RELEASE writes is that of the PECR it has read, with both locks set. -/
theorem Pecr.toWord_or_locks (p : Pecr) :
    p.toWord ||| maskPrglock ||| maskPelock = { p with pelock := true, prglock := true }.toWord := by
  have hprg : maskPrglock = bitIf true 1 := by decide
  have hpe : maskPelock = bitIf true 0 := by decide
  apply BitVec.eq_of_getLsbD_eq
  intro k hk
  simp only [hprg, hpe, BitVec.getLsbD_or, getLsbD_bitIf _ _ hk, getLsbD_toWord _ hk, Bool.true_and]
  by_cases h0 : k = 0
  · simp [h0]
  · by_cases h1 : k = 1
    · simp [h1]
    · simp [h0, h1]

/-- R64: RELEASE's write, in an unlocked PECR of a legal mode with no operation pending, sets both locks and changes no
other bit. -/
theorem State.writePecr_releaseWord (ho : s.op = .idle) (hl : s.pecr.pelock = false) (hm : s.mode ≠ .reserved) :
    s.writePecr (s.pecr.toWord ||| maskPrglock ||| maskPelock) =
      { s with
        pecr := { s.pecr with pelock := true, prglock := true }
        peSeq := rearm s.peSeq
        prgSeq := rearm s.prgSeq } := by
  rw [Pecr.toWord_or_locks]
  obtain ⟨h0, h1, h3, h4, h8, h9, h10, h16, h17⟩ := { s.pecr with pelock := true, prglock := true }.toWord_bits
  rw [writePecr_accepted ho hl h4 h8 (by rw [h3, h9, h10]; exact hm)]
  simp only [pecrAfterWrite, h0, h1, h3, h9, h10, h16, h17, Bool.or_true, if_true]

theorem Pecr.setLocks_of_locked {p : Pecr} (hpe : p.pelock = true) (hprg : p.prglock = true) :
    { p with pelock := true, prglock := true } = p := by
  cases p
  cases hpe
  cases hprg
  rfl

/-- R64: RELEASE's own step is the read of PECR in the expanded program. -/
theorem exec_release (s : State) :
    exec .release s = .next ((s.expand releaseItems).writeTemp .seqT s.pecr.toWord).advance := by
  rw [exec, execRelease, execRdPecr, State.expand_pecr, ReadResult.bind]

/-- R64: RELEASE in two CPU steps is its read, which changes no register, and then the PECR write of what was read with
both locks. -/
theorem run_release {rest : List Input} (hs : AtItem s (.code (.sym .release)) (.cpu :: rest))
    (he : s.latch.entryEnabled = false) :
    ∃ u : State, Host.Core.run Sys2Proof.core 2 s =
        .next (u.writePecr (s.pecr.toWord ||| maskPrglock ||| maskPelock)).advance.latch ∧
      u.pc = s.pc + 1 ∧ u.inputs = rest ∧ u.op = s.op ∧ u.mem = s.mem ∧ u.pecr = s.pecr ∧ u.reasons = s.reasons ∧
      u.peSeq = s.peSeq ∧ u.prgSeq = s.prgSeq := by
  have hread := step_item (i := .release) hs.inputs hs.halted hs.entry hs.item rfl hs.fetch rfl (exec_release _)
  have hon : ItemsOn s releaseItems 1
      (({ s with inputs := .cpu :: rest }.expand releaseItems).writeTemp .seqT s.pecr.toWord).advance.latch := by
    constructor <;> simp [State.flashLine]
  have hwrite := step_wrPecr (hon.atItem (rest := rest) hs he rfl rfl (by simp))
  simp only [State.evalExpr, State.readTemp_latch, State.readTemp_advance, State.readTemp_writeTemp_seqT] at hwrite
  exact ⟨_, run_snoc (run_one hread) hwrite, by simp⟩

/-- Settles O16: after RELEASE's read (`run_release`) its write is R59's for no operation pending, accepted or ignored by
PELOCK, or for one that is pending. -/
theorem releaseSetsBothLocks : Obligations.ReleaseSetsBothLocks := by
  intro s rest hinv hh he hf hi hin
  obtain ⟨u, hrun, hpc, hins, hop, hmem, hpecr, hreasons, hpe, hprg⟩ :=
    run_release ⟨hin, hh, entryEnabled_of_latch he, hf, hi, hinv.cfg_wf⟩ he
  have hm : u.mode ≠ .reserved := by rw [State.mode, hpecr]; exact hinv.mode_legal
  have hlocks : u.pecr.pelock = true → u.pecr.prglock = true := by rw [hpecr]; exact hinv.locks
  have hpc' : u.pc + 1 = s.pc + 2 := by rw [hpc]
  rw [← hpecr] at hrun
  refine ⟨_, hrun, ?_⟩
  rw [← hop, ← hmem, ← hpecr, ← hreasons, ← hpe, ← hprg]
  by_cases ho : u.op = .idle
  · cases hl : u.pecr.pelock with
    | false =>
      rw [State.writePecr_releaseWord ho hl hm]
      exact ⟨hpc', hins, rfl, rfl, fun _ => ⟨rfl, rfl, fun _ => ⟨rearm_eq _, rearm_eq _⟩, nofun⟩, fun h => absurd ho h⟩
    | true =>
      rw [State.writePecr_locked _ ho hl]
      exact ⟨hpc', hins, rfl, rfl, fun _ => ⟨(Pecr.setLocks_of_locked hl (hlocks hl)).symm, rfl, nofun,
        fun _ => ⟨rfl, rfl⟩⟩, fun h => absurd ho h⟩
  · rw [State.writePecr_pending _ ho]
    exact ⟨hpc', hins, rfl, rfl, fun h => absurd h ho, fun _ => ⟨rfl, rfl⟩⟩

end Sys2Proof.Machine
end

section
/-! The status register, bit by bit, and the completion of a pending operation: with no error, with an error or a protected
word, and the run in which it never comes (R43, R66 to R69, R77, R78, R84, R101, R123). -/

namespace Sys2Proof.Machine

variable {s : State} {op : Op} {rest : List Input}

/-! ## The bits of SR (R17, R66, R67) -/

/-- R17: the places of the error bits. -/
theorem getLsbD_errMask (k : Nat) : Config.errMask.getLsbD k = decide (k ∈ [8, 9, 10, 11, 13, 16, 17]) := by
  by_cases hk : k < 32
  · have places : ∀ k < 32, Config.errMask.getLsbD k = decide (k ∈ [8, 9, 10, 11, 13, 16, 17]) := by decide
    exact places k hk
  · rw [BitVec.getLsbD_of_ge _ _ (by omega), eq_comm, decide_eq_false_iff_not]
    intro h
    simp only [List.mem_cons, List.not_mem_nil, or_false] at h
    omega

/-- R23: BSY says whether anything is pending. -/
theorem State.bsy_eq (s : State) : s.bsy = decide (s.op ≠ .idle) := by
  cases ho : s.op <;> simp [bsy, ho]

theorem srStored_eq : srStored = bitIf true 0 ||| bitIf true 1 ||| Config.errMask := rfl

/-- R66: the word of SR has BSY, EOP and the error bits in their places and the draw's bits elsewhere. -/
theorem State.getLsbD_srWord (s : State) (r : Word) {k : Nat} (hk : k < 32) :
    (s.srWord r).getLsbD k =
      (if k = 0 then s.bsy else if k = 1 then s.eop
       else if k ∈ [8, 9, 10, 11, 13, 16, 17] then s.err.getLsbD k else r.getLsbD k) := by
  simp only [srWord, srStored_eq, BitVec.getLsbD_or, BitVec.getLsbD_and, BitVec.getLsbD_not, getLsbD_bitIf _ _ hk,
    getLsbD_errMask, hk, decide_true, Bool.true_and]
  by_cases h0 : k = 0
  · simp [h0]
  · by_cases h1 : k = 1
    · simp [h1]
    · by_cases he : k ∈ [8, 9, 10, 11, 13, 16, 17] <;> simp [-List.mem_cons, h0, h1, he]

/-- R67: of the error bits an SR write of `d` leaves those that `d` has 0, and all of the other bits. -/
theorem getLsbD_errAfterWrite (err d : Word) (k : Nat) :
    (errAfterWrite err d).getLsbD k =
      (err.getLsbD k && !(d.getLsbD k && decide (k ∈ [8, 9, 10, 11, 13, 16, 17]))) := by
  simp only [errAfterWrite, BitVec.getLsbD_and, BitVec.getLsbD_not, getLsbD_errMask]
  by_cases hk : k < 32
  · simp [hk]
  · simp [BitVec.getLsbD_of_ge err k (by omega)]

/-- Settles O17: the value is the word of SR, whose bits are `State.getLsbD_srWord`. -/
theorem statusRegisterRead : Obligations.StatusRegisterRead := by
  intro s x
  refine ⟨fun hc => ?_, s.readSr, ?_, ?_, ?_, fun k hk => ?_, fun k hk hn => ?_⟩
  · exact (decode_read _ _ _ s.cfg.srAddr _ (by decide)).trans (by rw [decodeRead, regionOf_sr hc]; rfl)
  · rw [exec, execRdSr, ReadResult.bind]
    cases x <;> rfl
  · rw [State.readSr, s.getLsbD_srWord _ (by decide), if_pos rfl, s.bsy_eq]
  · exact s.getLsbD_srWord _ (by decide)
  · have hne : k < 32 ∧ k ≠ 0 ∧ k ≠ 1 := by
      simp only [List.mem_cons, List.not_mem_nil, or_false] at hk
      omega
    rw [State.readSr, s.getLsbD_srWord _ hne.1, if_neg hne.2.1, if_neg hne.2.2, if_pos hk]
  · rw [List.mem_cons, List.mem_cons, not_or, not_or] at hn
    rw [State.readSr, s.getLsbD_srWord _ hk, if_neg hn.1, if_neg hn.2.1, if_neg hn.2.2]

/-- Settles O18: the new error bits are `errAfterWrite`, read bit by bit (`getLsbD_errAfterWrite`). -/
theorem statusRegisterWriteClearsOnes : Obligations.StatusRegisterWriteClearsOnes := by
  intro s d
  refine ⟨fun hc t => ?_, errAfterWrite s.err d, rfl, fun k hk => ?_, fun k hk => ?_⟩
  · exact (decode_wordWrite _ _ s.cfg.srAddr _ _).trans (by rw [decodeWrite, regionOf_sr hc]; rfl)
  · rw [getLsbD_errAfterWrite, decide_eq_true hk, Bool.and_true]
  · rw [getLsbD_errAfterWrite, decide_eq_false hk, Bool.and_false, Bool.not_false, Bool.and_true]

/-! ## The error set of a completion (R43, R68) -/

theorem completionErrors_eq (c : Config) (op : Op) (draw : Word) :
    completionErrors c op draw =
      (draw &&& 0x00032E00#32) ||| (if op.protectedTarget c = true then 0x00000100#32 else 0#32) := by
  have hmask : Config.errMask &&& ~~~(bit 8) = 0x00032E00#32 := by decide
  rw [completionErrors, BitVec.and_assoc, hmask]
  rfl

/-- R68: bit 8 says that a target word is PROTECTED, whatever is drawn. -/
theorem getLsbD_completionErrors_protected (c : Config) (op : Op) (draw : Word) :
    (completionErrors c op draw).getLsbD 8 = op.protectedTarget c := by
  have hbit : (0x00032E00#32).getLsbD 8 = false := by decide
  rw [completionErrors_eq, BitVec.getLsbD_or, BitVec.getLsbD_and, hbit, Bool.and_false, Bool.false_or]
  cases op.protectedTarget c <;> rfl

theorem Op.protectedTarget_eq_false {c : Config} (h : ∀ w ∈ op.target c, w.toNat ∉ c.protectedWords) :
    op.protectedTarget c = false := by
  simpa [protectedTarget] using h

/-! ## The controller's step (R68, R84) -/

theorem step_complete (hin : s.inputs = .complete :: rest) (hb : s.completeEnabled = true) :
    step s = .next { s.complete with inputs := rest, turnCount := s.turnCount }.latch := by
  unfold step machineStep
  simp only [hin, hb, nextAgent, if_true, latchNext]

/-- R68: with no error drawn and no word protected, the effect is on the array, and EOP is set. -/
theorem State.complete_success (ho : s.op = .busy op) (hd : s.nextDraw &&& 0x00032E00#32 = 0#32)
    (hp : op.protectedTarget s.cfg = false) :
    s.complete = { s.useDraw with mem := op.effect s.cfg s.mem, eop := true, op := .idle } := by
  have he : completionErrors s.cfg op s.nextDraw = 0#32 := by simp [completionErrors_eq, hd, hp]
  simp only [complete, ho, completeOp, useDraw_cfg, he, if_true, useDraw_mem]

/-- The step that completes `op` with no error: the array is `op.effect`, and all else is what R68 and R84 say. -/
theorem step_complete_success (hin : s.inputs = .complete :: rest) (ho : s.op = .busy op)
    (hd : s.nextDraw &&& 0x00032E00#32 = 0#32) (hp : ∀ w ∈ op.target s.cfg, w.toNat ∉ s.cfg.protectedWords) :
    step s = .next { s with
      mem := op.effect s.cfg s.mem, eop := true, op := .idle, inputs := rest, draws := s.draws.tail
      drawCount := s.drawCount + 1
      irqPending := s.irqPending || (s.pecr.errie && decide (s.err &&& 0x00032F00#32 ≠ 0#32)) || s.pecr.eopie } := by
  rw [step_complete hin (State.completeEnabled_iff.2 ⟨op, ho⟩),
    State.complete_success ho hd (Op.protectedTarget_eq_false hp), Bool.or_assoc]
  simp only [State.latch, State.flashLine, Bool.and_true]
  rfl

/-- R68: with an error, its bits are set and EOP only under EOP_ON_ERROR; of the rest only the array and the draws
change, and the array does not where a target word is protected. -/
theorem State.complete_failure (ho : s.op = .busy op) (he : completionErrors s.cfg op s.nextDraw ≠ 0#32) :
    ∃ m ds k, s.complete = { s with
      mem := m, draws := ds, drawCount := k
      err := s.err ||| completionErrors s.cfg op s.nextDraw, eop := s.eop || s.cfg.eopOnError, op := .idle } ∧
      (op.protectedTarget s.cfg = true → m = s.mem) := by
  simp only [complete, ho, completeOp, useDraw_cfg, if_neg he, getLsbD_completionErrors_protected]
  cases hp : op.protectedTarget s.cfg with
  | true => exact ⟨_, _, _, rfl, fun _ => rfl⟩
  | false =>
    obtain ⟨m, ds, k, h⟩ := drawWords_frame (op.target s.cfg) s.useDraw
    refine ⟨m, ds, k, ?_, nofun⟩
    rw [if_neg Bool.false_ne_true, drawTarget, useDraw_cfg, h]
    rfl

/-! ## The words of a target -/

theorem mem_wordAddrs {a w : Word} {n : Nat} : w ∈ wordAddrs a n ↔ ∃ i < n, a + BitVec.ofNat 32 (4 * i) = w := by
  simp only [wordAddrs, List.mem_map, List.mem_range]

/-- A byte outside a block of words is outside each of them. -/
theorem wordAddrs_outside {a : Word} {n b : Nat} (hfit : a.toNat + 4 * n ≤ 2 ^ 32)
    (hb : b < a.toNat ∨ a.toNat + 4 * n ≤ b) : ∀ w ∈ wordAddrs a n, b < w.toNat ∨ w.toNat + 4 ≤ b := by
  intro w hw
  obtain ⟨i, hi, rfl⟩ := mem_wordAddrs.1 hw
  rw [addr_toNat a (4 * i) (by omega)]
  omega

/-- Words given to the words of a block, one each, go to disjoint places. -/
theorem zip_wordAddrs_pairwise {a : Word} {n : Nat} (buf : List Word) (hfit : a.toNat + 4 * n ≤ 2 ^ 32)
    (hlen : buf.length = n) :
    ((wordAddrs a n).zip buf).Pairwise
      (fun x y => x.1.toNat + 4 ≤ y.1.toNat ∨ y.1.toNat + 4 ≤ x.1.toNat) := by
  have h := wordAddrs_pairwise a n hfit
  rw [← List.map_fst_zip (l₁ := wordAddrs a n) (l₂ := buf) (by simp [wordAddrs, hlen])] at h
  exact List.pairwise_map.1 h

theorem mem_zip_wordAddrs {a v : Word} {n i : Nat} {buf : List Word} (hi : i < n) (hv : buf[i]? = some v) :
    (a + BitVec.ofNat 32 (4 * i), v) ∈ (wordAddrs a n).zip buf := by
  refine List.mem_of_getElem? (i := i) (List.getElem?_zip_eq_some.2 ⟨?_, hv⟩)
  simp [wordAddrs, hi]

/-! ## Completion with no error (R68, R77, R78) -/

section
variable {c : Config} {m : List Host.Cell} {a v : Word} {i : Nat} {buf : List Word}

/-- R77: a page erase leaves ERASED_WORD in each word of the page. -/
theorem Op.effect_erase_word (hm : Memory.wf m = true) (hfit : a.toNat + 4 * c.pageWords ≤ 2 ^ 32)
    (hi : i < c.pageWords) :
    Memory.readWord ((Op.erase a).effect c m) (a + BitVec.ofNat 32 (4 * i)) = c.erasedWord :=
  (eraseWord_writes c.erasedWord).fold_at _ m hm (wordAddrs_pairwise a _ hfit) _ (mem_wordAddrs.2 ⟨i, hi, rfl⟩)

/-- R77, R78: a half-page combines word `i` of its buffer into word `i` of the target. -/
theorem Op.effect_half_word (hm : Memory.wf m = true) (hfit : a.toNat + 4 * c.n ≤ 2 ^ 32) (hlen : buf.length = c.n)
    (hv : buf[i]? = some v) :
    Memory.readWord ((Op.half a buf).effect c m) (a + BitVec.ofNat 32 (4 * i)) =
      combine c (Memory.readWord m (a + BitVec.ofNat 32 (4 * i))) v :=
  have hi : i < c.n := hlen ▸ (List.getElem?_eq_some_iff.1 hv).1
  (programCell_writes c).fold_at _ m hm (zip_wordAddrs_pairwise buf hfit hlen)
    (a + BitVec.ofNat 32 (4 * i), v) (mem_zip_wordAddrs hi hv)

end

/-- Settles O19: the effect of a word program is one word programmed (`programCell_writes`). -/
theorem wordProgramCompletes : Obligations.WordProgramCompletes := by
  intro s rest a v hm hin ho hd hp
  refine ⟨_, step_complete_success hin ho hd fun w hw => ?_, (programCell_writes s.cfg).word s.mem (a, v) hm,
    fun b hb => (programCell_writes s.cfg).other s.mem (a, v) b hm hb⟩
  rw [List.mem_singleton.1 hw]
  exact hp

/-- Settles O20: the effect of a page erase is a fold of writes over disjoint words (`Op.effect_erase_word`). -/
theorem pageEraseCompletes : Obligations.PageEraseCompletes := by
  intro s rest p hinv hin ho hd hp
  obtain ⟨hflash, halign⟩ : s.cfg.inFlash p = true ∧ p.toNat % s.cfg.pageBytes = 0 := by
    simpa only [ho, OpState.wf] using hinv.op_wf
  have hbytes : s.cfg.pageBytes = 4 * s.cfg.pageWords := by unfold Config.pageBytes Config.pageWords; omega
  have hfit : p.toNat + 4 * s.cfg.pageWords ≤ 2 ^ 32 :=
    hbytes ▸ (page_fits hinv.cfg_wf hflash halign).1.trans (Config.flash_end_le hinv.cfg_wf)
  refine ⟨_, step_complete_success hin ho hd fun w hw => ?_, fun j hj => ?_, fun b hb => ?_⟩
  · obtain ⟨j, hj, rfl⟩ := mem_wordAddrs.1 hw
    exact hp j hj
  · exact Op.effect_erase_word hinv.mem_wf hfit hj
  · exact Op.effect_other hinv.mem_wf (wordAddrs_outside hfit (hbytes ▸ hb))

/-- Settles O21: the effect of a half-page is a fold of programmed words over disjoint words (`Op.effect_half_word`). -/
theorem halfPageCompletes : Obligations.HalfPageCompletes := by
  intro s rest base buf hinv hin ho hd hp
  obtain ⟨hflash, halign, hlen⟩ :
      s.cfg.inFlash base = true ∧ base.toNat % s.cfg.halfBytes = 0 ∧ buf.length = s.cfg.n := by
    simpa only [ho, OpState.wf] using hinv.op_wf
  have hfit : base.toNat + 4 * s.cfg.n ≤ 2 ^ 32 :=
    (half_fits hinv.cfg_wf hflash halign).1.trans (Config.flash_end_le hinv.cfg_wf)
  refine ⟨_, step_complete_success hin ho hd fun w hw => ?_, fun i v hv => ?_, fun b hb => ?_⟩
  · obtain ⟨i, hi, rfl⟩ := mem_wordAddrs.1 hw
    exact hp i hi
  · exact Op.effect_half_word hinv.mem_wf hfit hlen hv
  · exact Op.effect_other hinv.mem_wf (wordAddrs_outside hfit hb)

/-! ## Completion with an error (R68, R84) -/

/-- Settles O22: the error bits are those of `completionErrors`, the fields are `State.complete_failure`'s and the bytes
`State.complete_other`'s. -/
theorem failedCompletionSetsTheErrorBits : Obligations.FailedCompletionSetsTheErrorBits := by
  intro s rest op hm hin ho hit e he
  have hbits : completionErrors s.cfg op s.nextDraw = e := completionErrors_eq _ _ _
  obtain ⟨m, ds, k, hc, hkeep⟩ := State.complete_failure ho (hbits ▸ he)
  rw [hbits] at hc
  have hstep := step_complete hin (State.completeEnabled_iff.2 ⟨op, ho⟩)
  have hother := fun b => State.complete_other (b := b) ho hm
  rw [hc] at hstep hother
  refine ⟨_, hstep, rfl, ?_, hkeep, hother⟩
  rw [State.latch_irqPending_iff, State.flashLine_iff]
  rfl

/-! ## Completion that never comes (R69, R101, R123) -/

/-- The CPU stands at a POLL of SR for BSY = 0 that it may fetch, an operation is BUSY, and no interrupt can be taken. -/
structure PollsForBsy (s : State) : Prop where
  cfg_wf : s.cfg.wf = true
  halted : s.halted = false
  masked : s.primask = true ∨ s.irqEn = false ∨ s.inHandler = true
  fetch  : s.fetchGate = .go
  busy   : s.completeEnabled = true
  item   : s.prog.items[s.pc]? = some (.code (.sym (.poll (.reg .sr) 0x00000001#32 0#32)))

/-- The state after one more iteration of such a POLL. -/
def State.pollAgain (s : State) : State := { s.useDraw with inputs := [], seqT := s.readSr }.latch

/-- R84: an iteration latches the line, which the masks keep from an ENTRY. -/
theorem PollsForBsy.pollAgain (h : PollsForBsy s) : PollsForBsy s.pollAgain :=
  ⟨h.cfg_wf, h.halted, h.masked, h.fetch, h.busy, h.item⟩

/-- R23, R66: a read of SR while an operation is BUSY does not meet the POLL's condition. -/
theorem State.readSr_bsy (hb : s.completeEnabled = true) : s.readSr &&& 0x00000001#32 ≠ 0#32 := by
  obtain ⟨op, ho⟩ := completeEnabled_iff.1 hb
  have hbit : s.readSr.getLsbD 0 = true := by
    rw [readSr, s.getLsbD_srWord _ (by decide), if_pos rfl, bsy, ho]
  intro h
  have h0 := congrArg (BitVec.getLsbD · 0) h
  simp only [BitVec.getLsbD_and, hbit] at h0
  exact absurd h0 (by decide)

/-- R50: the CPU's step at such a POLL runs it again. -/
theorem PollsForBsy.step_pollAgain (h : PollsForBsy s) : step { s with inputs := [.cpu] } = .next s.pollAgain := by
  have hread : State.readBusWord { s with inputs := [] } s.cfg.srAddr = .value s.readSr { s with inputs := [] }.useDraw :=
    State.readBusWord_sr (s := { s with inputs := [] }) h.cfg_wf
  have hx := exec_poll_value (s := { s with inputs := [] }) (g := .reg .sr) 0x00000001#32 0#32 hread
  rw [if_neg (State.readSr_bsy h.busy)] at hx
  refine step_item (s := { s with inputs := [.cpu] }) rfl h.halted (entryEnabled_blocked h.masked) h.item rfl h.fetch
    ?_ hx
  simp [State.instrHeld, State.evalTarget, regAddr, State.readBusWord, regionOf_sr h.cfg_wf, ReadResult.isHeld]

theorem PollsForBsy.iterate (h : PollsForBsy s) (k : Nat) :
    PollsForBsy (State.pollAgain^[k] s) ∧ (State.pollAgain^[k] s).op = s.op ∧ (State.pollAgain^[k] s).pc = s.pc := by
  induction k with
  | zero => exact ⟨h, rfl, rfl⟩
  | succ k ih =>
    obtain ⟨hk, hop, hpc⟩ := ih
    rw [Function.iterate_succ_apply']
    exact ⟨hk.pollAgain, hop, hpc⟩

/-- Settles O60: the run in which the CPU is the agent of every step polls for ever (`PollsForBsy.iterate`). -/
theorem pendingOperationNeedNeverEnd : Obligations.PendingOperationNeedNeverEnd := by
  intro s hc hh hm hf hb hi
  have h : PollsForBsy s := ⟨hc, hh, hm, hf, hb, hi⟩
  refine ⟨fun k => State.pollAgain^[k] s, fun k => ⟨.cpu, ?_⟩, rfl, fun k => (h.iterate k).2, fun hfair => ?_⟩
  · exact (h.iterate k).1.step_pollAgain.trans (congrArg _ (Function.iterate_succ_apply' ..).symm)
  · obtain ⟨op, ho⟩ := State.completeEnabled_iff.1 hb
    obtain ⟨j, -, hj⟩ := hfair 0 op ho
    rw [(h.iterate j).2.1, ho] at hj
    cases hj

end Sys2Proof.Machine
end

section
/-! The array port: an array write in each form that R71 selects, the combine law, and the source-buffer load (R71 to
R76, R78, R79, R100). -/

namespace Sys2Proof.Machine

/-! ## The combine law (R78) -/

theorem combine_erased (c : Config) (v : Word) : combine c c.erasedWord v = v := if_pos rfl

theorem combine_of_ne {c : Config} {old : Word} (v : Word) (h : old ≠ c.erasedWord) : combine c old v = old ||| v :=
  if_neg h

/-- Programming a word with what it holds changes nothing, whether it is erased or not. -/
theorem combine_self (c : Config) (old : Word) : combine c old old = old := by
  by_cases h : old = c.erasedWord
  · exact if_pos h
  · rw [combine_of_ne old h, BitVec.or_self]

/-- Where ERASED_WORD is 0, the OR of an erased word with `v` is `v` too. -/
theorem combine_erasedWord_zero {c : Config} (old v : Word) (h : c.erasedWord = 0#32) :
    combine c old v = old ||| v := by
  by_cases ho : old = c.erasedWord
  · rw [ho, combine_erased, h, BitVec.zero_or]
  · exact combine_of_ne v ho

/-- Settles O23: the two branches of the law, and what each corner case makes of them. -/
theorem combineLaw : Obligations.CombineLaw := by
  intro c old v w
  refine ⟨combine_erased c v, combine_of_ne v, fun ho => ?_, combine_self c old, fun ho he => ?_,
    combine_erasedWord_zero old v⟩
  · rw [combine_of_ne 0#32 ho, BitVec.or_zero]
  · rw [combine_of_ne v ho, he, combine_erased]

/-! ## The form of an array write (R71) -/

section
variable {s : State} {a : Word} (d : Word)

theorem State.arrayWrite_busy {op : Op} (hf : s.cfg.inFlash a = true) (ho : s.op = .busy op) :
    s.arrayWrite a d = s.raiseUb .arrayWriteWhileBusy := by
  simp only [arrayWrite, hf, ho, Bool.not_true, Bool.false_eq_true, if_false]

theorem State.arrayWrite_hpFill {base : Word} {buf : List Word} (hf : s.cfg.inFlash a = true)
    (ho : s.op = .hpFill base buf) : s.arrayWrite a d = s.arrWrHpNext base buf a d := by
  simp only [arrayWrite, hf, ho, Bool.not_true, Bool.false_eq_true, if_false]

theorem State.arrayWrite_locked (hf : s.cfg.inFlash a = true) (ho : s.op = .idle)
    (hl : s.pecr.pelock = true ∨ s.pecr.prglock = true) : s.arrayWrite a d = s.arrWrLocked := by
  have hlock : (s.pecr.pelock || s.pecr.prglock) = true := by simpa only [Bool.or_eq_true] using hl
  simp only [arrayWrite, hf, ho, hlock, Bool.not_true, Bool.false_eq_true, if_false, if_true]

/-- R71: an array write may start an operation: nothing is pending and both locks are clear. -/
structure State.WriteStarts (s : State) (a : Word) : Prop where
  inFlash : s.cfg.inFlash a = true
  idle    : s.op = .idle
  pelock  : s.pecr.pelock = false
  prglock : s.pecr.prglock = false

theorem State.WriteStarts.word (h : s.WriteStarts a) (hm : s.mode = .word) : s.arrayWrite a d = s.arrWrWord a d := by
  simp only [arrayWrite, h.inFlash, h.idle, h.pelock, h.prglock, hm, Bool.not_true, Bool.or_self, Bool.false_eq_true,
    if_false]

theorem State.WriteStarts.erase (h : s.WriteStarts a) (hm : s.mode = .erasePage) :
    s.arrayWrite a d = s.arrWrErase a := by
  simp only [arrayWrite, h.inFlash, h.idle, h.pelock, h.prglock, hm, Bool.not_true, Bool.or_self, Bool.false_eq_true,
    if_false]

theorem State.WriteStarts.hpFirst (h : s.WriteStarts a) (hm : s.mode = .halfPage) :
    s.arrayWrite a d = s.arrWrHpFirst a d := by
  simp only [arrayWrite, h.inFlash, h.idle, h.pelock, h.prglock, hm, Bool.not_true, Bool.or_self, Bool.false_eq_true,
    if_false]

end

/-- R24: with ERASE and FPRG clear the mode is WORD, whatever PROG is; and only then. -/
theorem modeOf_eq_word_iff : ∀ prog erase fprg : Bool,
    modeOf prog erase fprg = .word ↔ erase = false ∧ fprg = false := by decide

/-- Settles O25: R71's form for a lock and for BUSY, and R72's two cases. -/
theorem arrayWritesThatStartNothing : Obligations.ArrayWritesThatStartNothing := by
  intro s a d hf
  refine ⟨fun ho hl => ?_, fun op ho => ?_⟩
  · rw [exec, execArrWrLocked, State.arrayWrite_locked d hf ho hl, State.arrWrLocked]
    cases s.cfg.lockedWriteRaises <;> rfl
  · rw [exec, execArrWrBusy, State.arrayWrite_busy d hf ho]
    rfl

/-- Settles O26: R73's check of the address. -/
theorem wordProgramStarts : Obligations.WordProgramStarts := by
  intro s a d hf ho hpe hprg herase hfprg
  have hword := State.WriteStarts.word d ⟨hf, ho, hpe, hprg⟩ ((modeOf_eq_word_iff _ _ _).2 ⟨herase, hfprg⟩)
  refine ⟨fun ha => ?_, fun ha => ?_⟩
  · rw [exec, execArrWrWord, hword, State.arrWrWord, if_neg (not_not.2 ha)]
    rfl
  · rw [exec, execArrWrWord, hword, State.arrWrWord, if_pos ha]
    rfl

/-- Settles O27: R74's check of the address; the data does not occur in `arrWrErase`. -/
theorem pageEraseStarts : Obligations.PageEraseStarts := by
  intro s a d hf ho hpe hprg hprog herase hfprg
  have hpage := State.WriteStarts.erase d ⟨hf, ho, hpe, hprg⟩ (by rw [State.mode, hprog, herase, hfprg]; rfl)
  refine ⟨fun ha => ?_, fun ha => ?_⟩
  · rw [exec, execArrWrErase, hpage, State.arrWrErase, if_neg (not_not.2 ha)]
    rfl
  · rw [exec, execArrWrErase, hpage, State.arrWrErase, if_pos ha]
    rfl

/-- Settles O28: R75's checks in the order of R100, and the fill that N = 1 ends at once. -/
theorem burstStarts : Obligations.BurstStarts := by
  intro s a d hf ho hpe hprg hprog herase hfprg
  have hburst := State.WriteStarts.hpFirst d ⟨hf, ho, hpe, hprg⟩ (by rw [State.mode, hprog, herase, hfprg]; rfl)
  refine ⟨fun ha => ?_, fun ha hp => ?_, fun ha hp => ?_⟩
  · rw [exec, execArrWrHpFirst, hburst, State.arrWrHpFirst, if_pos ha]
    rfl
  · rw [exec, execArrWrHpFirst, hburst, State.arrWrHpFirst, if_neg (not_not.2 ha), if_pos (by rw [hp]; rfl)]
    rfl
  · rw [exec, execArrWrHpFirst, hburst, State.arrWrHpFirst, if_neg (not_not.2 ha), if_neg (by rw [hp]; decide)]
    split <;> rfl

/-- Settles O29: R76's checks in the order of R100, and the word that is the N-th or not. -/
theorem burstGoesOn : Obligations.BurstGoesOn := by
  intro s base a d buf hf ho
  have hnext := State.arrayWrite_hpFill d hf ho
  refine ⟨fun ha => ?_, fun ha hp => ?_, fun ha hp => ?_⟩
  · rw [exec, execArrWrHpNext, hnext, State.arrWrHpNext, if_pos ha]
    rfl
  · rw [exec, execArrWrHpNext, hnext, State.arrWrHpNext, if_neg (not_not.2 ha), if_pos (by rw [hp]; rfl)]
    rfl
  · rw [exec, execArrWrHpNext, hnext, State.arrWrHpNext, if_neg (not_not.2 ha), if_neg (by rw [hp]; decide)]
    split <;> rfl

/-! ## The source buffer (R79) -/

section
variable {s : State} {i : Nat}

theorem State.readBuf_eq_range (hi : s.buf.length ≤ i) : s.readBuf i = .raised (s.raiseUb .bufRange) := by
  rw [readBuf, List.getElem?_eq_none hi]

theorem State.readBuf_eq_ram {v : Word} (hv : s.buf[i]? = some v) (hf : s.cfg.inFlash (s.bufAddr i) = false) :
    s.readBuf i = .value v s := by
  simp [readBuf, hv, hf]

/-- R79: a buffer word in the flash array is an array read. -/
theorem State.readBuf_eq_readArray {v : Word} (hv : s.buf[i]? = some v) (hf : s.cfg.inFlash (s.bufAddr i) = true) :
    s.readBuf i = s.readArray .word (s.bufAddr i) := by
  simp [readBuf, hv, hf]

end

/-- Settles O32: the range, then the RAM word, then the outcomes of R80 for a buffer in the flash array. -/
theorem sourceBufferLoad : Obligations.SourceBufferLoad := by
  intro s i x
  refine ⟨fun hi => ?_, ?_⟩
  · rw [exec, execLdbuf, State.readBuf_eq_range hi]
    rfl
  · intro v hv addr
    have hread : s.cfg.inFlash addr = true → s.readBuf i = s.readArray .word addr := State.readBuf_eq_readArray hv
    refine ⟨fun hf => ?_, fun hf ha => ?_, fun hf ha => ⟨fun hg => ?_, fun hg => ?_, fun hg => ?_⟩⟩
    · rw [exec, execLdbuf, State.readBuf_eq_ram hv hf, ReadResult.bind_value]
    · rw [exec, execLdbuf, hread hf, State.readArray_eq_misaligned (sz := .word) hf ha]
      rfl
    · rw [exec, execLdbuf, hread hf, State.readArray_eq_value (sz := .word) hf ha hg, ReadResult.bind_value,
        Memory.read_word _ _ ha]
    · rw [exec, execLdbuf, hread hf, State.readArray_eq_placement (sz := .word) hf ha hg]
      rfl
    · rw [State.instrHeld, exec, execLdbuf, State.readBuf_eq_held hv hf ha hg]
      exact ⟨rfl, rfl⟩

end Sys2Proof.Machine
end

section
/-! PROGRAM_WORD and ERASE_PAGE, each run whole: a rule for each part of their item lists, and the rules put one after
the other (R49, R55, R61, R62, R64, R70, R81, R82). -/

namespace Sys2Proof.Machine

variable {s t u : State} {item : Item} {items items' : List Item} {ins ins' rest : List Input}

/-! ## Sequencing -/

theorem run_trans : ∀ {m n : Nat} {s t : State} {r : Host.Outcome State Fault Refusal},
    Host.Core.run Sys2Proof.core m s = .next t → Host.Core.run Sys2Proof.core n t = r →
    Host.Core.run Sys2Proof.core (m + n) s = r
  | 0, n, _, _, _, h, h2 => by
    cases h
    rwa [Nat.zero_add]
  | m + 1, n, s, t, _, h, h2 => by
    rw [Nat.succ_add]
    simp only [Host.Core.run] at h ⊢
    split at h
    · exact run_trans h h2
    · cases h
    · cases h

/-- States whose next steps are the same run alike. -/
theorem run_congr (n : Nat) (h : step s = step t) :
    Host.Core.run Sys2Proof.core (n + 1) s = Host.Core.run Sys2Proof.core (n + 1) t := by
  simp only [Host.Core.run]
  rw [show Sys2Proof.core.step s = Sys2Proof.core.step t from h]

/-- Nothing is pending, and the CPU goes on with its program: it is not halted and no interrupt can be taken (R89). -/
structure State.Calm (s : State) : Prop where
  cfg_wf : s.cfg.wf = true
  halted : s.halted = false
  masked : s.primask = true ∨ s.irqEn = false ∨ s.inHandler = true
  idle   : s.op = .idle

/-- `s` with the CPU at item `pc`, the agents `ins` to move, and irq_pending at `p`. -/
def State.withCursor (s : State) (pc : Nat) (ins : List Input) (p : Bool) : State :=
  { s with pc := pc, inputs := ins, irqPending := p }

/-- Wherever `items` stand in the program, the agents `ins` run them from `s` to `u`, up to pc, the agents left and the
latch of R84; no error bit is set or cleared and no code is raised. -/
structure Leads (items : List Item) (ins : List Input) (s u : State) : Prop where
  calm  : s.Calm → u.Calm
  keeps : u.prog = s.prog ∧ u.err = s.err ∧ u.reasons = s.reasons
  run   : s.Calm → ∀ pc rest p, items <+: s.prog.items.drop pc → ∃ p',
    Host.Core.run Sys2Proof.core ins.length (s.withCursor pc (ins ++ rest) p) =
      .next (u.withCursor (pc + items.length) rest p')

/-- Items that follow one another are run one after the other. -/
theorem Leads.trans (h : Leads items ins s t) (h' : Leads items' ins' t u) :
    Leads (items ++ items') (ins ++ ins') s u where
  calm hs := h'.calm (h.calm hs)
  keeps := by
    obtain ⟨hprog, herr, hreasons⟩ := h.keeps
    obtain ⟨hprog', herr', hreasons'⟩ := h'.keeps
    exact ⟨hprog'.trans hprog, herr'.trans herr, hreasons'.trans hreasons⟩
  run hs pc rest p hpre := by
    have hpre' : items' <+: t.prog.items.drop (pc + items.length) := by
      obtain ⟨tail, htail⟩ := hpre
      rw [h.keeps.1, ← List.drop_drop, ← htail, List.append_assoc, List.drop_left]
      exact List.prefix_append items' tail
    obtain ⟨p1, h1⟩ := h.run hs pc (ins' ++ rest) p ((List.prefix_append items items').trans hpre)
    obtain ⟨p2, h2⟩ := h'.run (h.calm hs) (pc + items.length) rest p1 hpre'
    refine ⟨p2, ?_⟩
    rw [List.length_append, List.length_append, ← Nat.add_assoc, List.append_assoc]
    exact run_trans h1 h2

/-- The CPU is at the first of the items that stand at its pc. -/
theorem State.Calm.atItem (h : s.Calm) {pc : Nat} (p : Bool) (hpre : item :: items <+: s.prog.items.drop pc) :
    AtItem (s.withCursor pc (.cpu :: rest) p) item rest where
  inputs := rfl
  halted := h.halted
  entry := entryEnabled_blocked h.masked
  fetch := fetchGate_idle h.idle
  item := by
    obtain ⟨tail, htail⟩ := hpre
    have hhead : (s.prog.items.drop pc)[0]? = some item := by rw [← htail]; rfl
    rwa [List.getElem?_drop, Nat.add_zero] at hhead
  cfg_wf := h.cfg_wf

/-- One item, run by one step of the CPU. -/
theorem Leads.single (hcalm : s.Calm → u.Calm)
    (hkeeps : u.prog = s.prog ∧ u.err = s.err ∧ u.reasons = s.reasons)
    (hstep : s.Calm → ∀ pc rest p, AtItem (s.withCursor pc (.cpu :: rest) p) item rest →
      step (s.withCursor pc (.cpu :: rest) p) = .next (u.withCursor pc rest p).advance.latch) :
    Leads [item] [.cpu] s u where
  calm := hcalm
  keeps := hkeeps
  run hs pc rest p hpre := ⟨_, run_one (hstep hs pc rest p (hs.atItem p hpre))⟩

/-- The end of a CPU step: the next item, and the latch of R84. -/
theorem next_congr (h : t = u) :
    (Host.Outcome.next t.advance.latch : Host.Outcome State Fault Refusal) = .next u.advance.latch := by
  rw [h]

/-! ## A pseudo-instruction as its items (R55) -/

/-- The expanded body stands at pc, its labels renamed. -/
theorem expandAt_prefix {pc : Nat} (body : List Item) {items : List Item} (h : pc < items.length) :
    body.map (Item.relabel pc body.length) <+: (expandAt pc body items).drop pc := by
  have hlen : (items.take pc).length = pc := by simp; omega
  rw [expandAt, ← List.map_drop, List.append_assoc, List.drop_left' hlen, List.map_append]
  exact List.prefix_append _ _

/-- A pseudo-instruction whose items name no label runs as they do, the CPU's turn first. -/
theorem Leads.run_expansion {i : Instr} (h : Leads (expansion s.cfg i) ins (s.expand (expansion s.cfg i)) u)
    (hs : s.Calm) (hi : s.prog.items[s.pc]? = some (.code (.sym i)))
    (hd : decode s.cfg s.arrForm (.sym i) = .ok i) (hn : s.instrHeld i = false) (hexp : expansion s.cfg i ≠ [])
    (hlabel : (expansion s.cfg i).map (Item.relabel s.pc (expansion s.cfg i).length) = expansion s.cfg i)
    (hcpu : ins = .cpu :: ins.tail) (hin : s.inputs = ins ++ rest) :
    ∃ p, Host.Core.run Sys2Proof.core ins.length s =
      .next (u.withCursor (s.pc + (expansion s.cfg i).length) rest p) := by
  have hrun : s.cpuStep = .run i :=
    cpuStep_run hs.halted (entryEnabled_blocked hs.masked) hi hd (fetchGate_idle hs.idle) hn
  have hfirst : s.inputs = .cpu :: (ins.tail ++ rest) := by rw [hin, hcpu]; rfl
  have hstep := sequenceStepsAsItsExpansion s i _ hs.cfg_wf hfirst hrun hexp
  have hbody : Host.Core.run Sys2Proof.core ins.length s =
      Host.Core.run Sys2Proof.core ins.length (s.expand (expansion s.cfg i)) := by
    rw [hcpu]
    exact run_congr _ hstep
  have hself : s.expand (expansion s.cfg i) =
      (s.expand (expansion s.cfg i)).withCursor s.pc (ins ++ rest) s.irqPending := by
    rw [← hin]
    rfl
  have hpre := expandAt_prefix (expansion s.cfg i) (List.getElem?_eq_some_iff.1 hi).1
  rw [hlabel] at hpre
  rw [hbody, hself]
  exact h.run { hs with } s.pc rest s.irqPending hpre

/-! ## ACQUIRE_PE and ACQUIRE_PRG (R61, R62) -/

theorem State.writePekeyr_first (hl : s.pecr.pelock = true) (hq : s.peSeq = .k0) :
    s.writePekeyr s.cfg.keyPe1 = { s with peSeq := .k1 } := by
  simp [writePekeyr, hl, hq]

theorem State.writePekeyr_second (hl : s.pecr.pelock = true) (hq : s.peSeq = .k1) :
    s.writePekeyr s.cfg.keyPe2 = { s with pecr := { s.pecr with pelock := false }, peSeq := .k0 } := by
  simp [writePekeyr, hl, hq]

theorem State.writePrgkeyr_first (hp : s.pecr.pelock = false) (hl : s.pecr.prglock = true) (hq : s.prgSeq = .k0) :
    s.writePrgkeyr s.cfg.keyPrg1 = { s with prgSeq := .k1 } := by
  simp [writePrgkeyr, hp, hl, hq]

theorem State.writePrgkeyr_second (hp : s.pecr.pelock = false) (hl : s.pecr.prglock = true) (hq : s.prgSeq = .k1) :
    s.writePrgkeyr s.cfg.keyPrg2 = { s with pecr := { s.pecr with prglock := false }, prgSeq := .k0 } := by
  simp [writePrgkeyr, hp, hl, hq]

/-- R61: from K0 the two keys clear PELOCK. -/
theorem leads_acquirePe (hl : s.pecr.pelock = true) (hq : s.peSeq = .k0) :
    Leads (acquirePeItems s.cfg) [.cpu, .cpu] s { s with pecr := { s.pecr with pelock := false }, peSeq := .k0 } :=
  have first : Leads [.wr (.reg .pekeyr) (.imm s.cfg.keyPe1)] [.cpu] s { s with peSeq := .k1 } :=
    .single (fun h => { h with }) ⟨rfl, rfl, rfl⟩ fun _ _ _ _ h =>
      (step_wrPekeyr h).trans (next_congr (State.writePekeyr_first hl hq))
  first.trans (.single (fun h => { h with }) ⟨rfl, rfl, rfl⟩ fun _ _ _ _ h =>
    (step_wrPekeyr h).trans (next_congr (State.writePekeyr_second hl rfl)))

/-- R62: with PELOCK clear, from K0 the two keys clear PRGLOCK. -/
theorem leads_acquirePrg (hp : s.pecr.pelock = false) (hl : s.pecr.prglock = true) (hq : s.prgSeq = .k0) :
    Leads (acquirePrgItems s.cfg) [.cpu, .cpu] s { s with pecr := { s.pecr with prglock := false }, prgSeq := .k0 } :=
  have first : Leads [.wr (.reg .prgkeyr) (.imm s.cfg.keyPrg1)] [.cpu] s { s with prgSeq := .k1 } :=
    .single (fun h => { h with }) ⟨rfl, rfl, rfl⟩ fun _ _ _ _ h =>
      (step_wrPrgkeyr h).trans (next_congr (State.writePrgkeyr_first hp hl hq))
  first.trans (.single (fun h => { h with }) ⟨rfl, rfl, rfl⟩ fun _ _ _ _ h =>
    (step_wrPrgkeyr h).trans (next_congr (State.writePrgkeyr_second hp hl rfl)))

/-- `s` after ACQUIRE_PE and ACQUIRE_PRG from K0 (R61, R62). -/
def State.afterAcquire (s : State) : State :=
  { s with pecr := { s.pecr with pelock := false, prglock := false }, peSeq := .k0, prgSeq := .k0 }

/-- R61, R62: from K0 the four keys clear both locks. -/
theorem leads_acquire (hpe : s.pecr.pelock = true) (hprg : s.pecr.prglock = true) (hpq : s.peSeq = .k0)
    (hgq : s.prgSeq = .k0) :
    Leads (acquirePeItems s.cfg ++ acquirePrgItems s.cfg) [.cpu, .cpu, .cpu, .cpu] s s.afterAcquire :=
  have pe := leads_acquirePe hpe hpq
  pe.trans (leads_acquirePrg (s := { s with pecr := { s.pecr with pelock := false }, peSeq := .k0 }) rfl hprg hgq)

/-- A controller that the two sequences have unlocked (R61, R62). -/
structure State.Acquired (s : State) : Prop where
  pelock  : s.pecr.pelock = false
  prglock : s.pecr.prglock = false
  peSeq   : s.peSeq = .k0
  prgSeq  : s.prgSeq = .k0

/-! ## Changes of PECR (R64, R81) -/

theorem Pecr.toWord_setErase (p : Pecr) :
    p.toWord ||| maskProg ||| maskErase = { p with prog := true, erase := true }.toWord := by
  have hprog : maskProg = bitIf true 3 := by decide
  have herase : maskErase = bitIf true 9 := by decide
  apply BitVec.eq_of_getLsbD_eq
  intro k hk
  simp only [hprog, herase, BitVec.getLsbD_or, getLsbD_bitIf _ _ hk, getLsbD_toWord _ hk, Bool.true_and]
  by_cases h3 : k = 3
  · simp [h3]
  · by_cases h9 : k = 9
    · simp [h9]
    · simp [h3, h9]

theorem Pecr.toWord_clearErase (p : Pecr) :
    p.toWord &&& ~~~(maskErase ||| maskProg) = { p with prog := false, erase := false }.toWord := by
  have hprog : maskProg = bitIf true 3 := by decide
  have herase : maskErase = bitIf true 9 := by decide
  apply BitVec.eq_of_getLsbD_eq
  intro k hk
  simp only [hprog, herase, BitVec.getLsbD_and, BitVec.getLsbD_not, BitVec.getLsbD_or, getLsbD_bitIf _ _ hk,
    getLsbD_toWord _ hk, hk, decide_true, Bool.true_and]
  by_cases h3 : k = 3
  · simp [h3]
  · by_cases h9 : k = 9
    · simp [h9]
    · simp [h3, h9]

/-- R59: an unlocked controller with nothing pending takes the word of a PECR of a legal mode whole. -/
theorem State.writePecr_toWord (ho : s.op = .idle) (ha : s.Acquired) {q : Pecr}
    (hm : modeOf q.prog q.erase q.fprg ≠ .reserved) (hlocks : q.pelock = true → q.prglock = true) :
    s.writePecr q.toWord = { s with pecr := q } := by
  obtain ⟨h0, h1, h3, h4, h8, h9, h10, h16, h17⟩ := q.toWord_bits
  have hpecr : pecrAfterWrite s.pecr q.toWord = q := by
    have hprg : (q.prglock || q.pelock) = q.prglock := by
      cases hq : q.pelock with
      | false => rw [Bool.or_false]
      | true => rw [Bool.or_true, hlocks hq]
    simp only [pecrAfterWrite, h0, h1, h3, h9, h10, h16, h17, ha.pelock, ha.prglock, Bool.false_or, hprg]
  rw [writePecr_accepted ho ha.pelock h4 h8 (by rw [h3, h9, h10]; exact hm), hpecr, ha.peSeq, ha.prgSeq, rearm,
    ite_self, ite_self]

/-- `s` after its PECR has been read and written as `q` (R59, R60). -/
def State.updatePecr (s : State) (q : Pecr) : State := { s with pecr := q, seqT := s.pecr.toWord }

/-- `RD PECR -> t; WR PECR, x`, where `x` makes the word of `q` of what was read. -/
theorem leads_updatePecr {x : Expr} {q : Pecr} (ha : s.Acquired) (hm : modeOf q.prog q.erase q.fprg ≠ .reserved)
    (hlocks : q.pelock = true → q.prglock = true)
    (hx : ∀ t : State, t.readTemp .seqT = s.pecr.toWord → t.evalExpr x = q.toWord) :
    Leads [readPecrItem, .wr (.reg .pecr) x] [.cpu, .cpu] s (s.updatePecr q) :=
  have read : Leads [readPecrItem] [.cpu] s { s with seqT := s.pecr.toWord } :=
    .single (fun h => { h with }) ⟨rfl, rfl, rfl⟩ fun _ _ _ _ h => step_rdPecr h
  read.trans (.single (fun h => { h with }) ⟨rfl, rfl, rfl⟩ fun hs pc rest p h => by
    rw [step_wrPecr h, hx _ rfl]
    refine next_congr (State.writePecr_toWord ?_ ?_ hm hlocks)
    · exact hs.idle
    · exact { ha with })

/-- `s` after RELEASE (R64). -/
def State.afterRelease (s : State) : State := s.updatePecr { s.pecr with pelock := true, prglock := true }

/-- `s` after a change of PROG and ERASE (R81). -/
def State.withMode (s : State) (prog erase : Bool) : State := s.updatePecr { s.pecr with prog := prog, erase := erase }

/-- R64: RELEASE sets both locks. -/
theorem leads_release (ha : s.Acquired) (hm : s.mode ≠ .reserved) :
    Leads releaseItems [.cpu, .cpu] s s.afterRelease :=
  leads_updatePecr ha hm (fun _ => rfl) fun t ht => by
    simp only [State.evalExpr, ht]
    exact s.pecr.toWord_or_locks

/-- R81: a change of PROG and ERASE to a legal mode leaves the locks clear. -/
theorem leads_withMode {x : Expr} {prog erase : Bool} (ha : s.Acquired)
    (hm : modeOf prog erase s.pecr.fprg ≠ .reserved)
    (hx : ∀ t : State, t.readTemp .seqT = s.pecr.toWord →
      t.evalExpr x = { s.pecr with prog := prog, erase := erase }.toWord) :
    Leads [readPecrItem, .wr (.reg .pecr) x] [.cpu, .cpu] s (s.withMode prog erase) :=
  leads_updatePecr ha hm (fun hl => absurd (ha.pelock.symm.trans hl) Bool.false_ne_true) hx

/-- R81: the mode ERASE_PAGE is set. -/
theorem leads_setErase (ha : s.Acquired) (hf : s.pecr.fprg = false) :
    Leads (setModeItems maskProg maskErase) [.cpu, .cpu] s (s.withMode true true) :=
  leads_withMode ha (by rw [hf]; decide) fun t ht => by
    simp only [State.evalExpr, ht]
    exact s.pecr.toWord_setErase

/-- R81: the mode is WORD again. -/
theorem leads_clearErase (ha : s.Acquired) (hf : s.pecr.fprg = false) :
    Leads (clearModeItems maskErase maskProg) [.cpu, .cpu] s (s.withMode false false) :=
  leads_withMode ha (by rw [hf]; decide) fun t ht => by
    simp only [State.evalExpr, ht]
    exact s.pecr.toWord_clearErase

/-! ## WAIT_DONE (R70) -/

theorem and_bit (w : Word) (i : Nat) : w &&& bit i = bitIf (w.getLsbD i) i := by
  apply BitVec.eq_of_getLsbD_eq
  intro k hk
  rw [show bit i = bitIf true i from rfl, BitVec.getLsbD_and, getLsbD_bitIf _ _ hk, getLsbD_bitIf _ _ hk, Bool.true_and]
  by_cases h : k = i <;> simp [h]

/-- R66: what the polls of WAIT_DONE see of SR, whatever its reserved bits are. -/
theorem State.readSr_and_bsy (s : State) : s.readSr &&& maskBsy = bitIf s.bsy 0 := by
  rw [show maskBsy = bit 0 from rfl, and_bit, readSr, s.getLsbD_srWord _ (by decide), if_pos rfl]

theorem State.readSr_and_eop (s : State) : s.readSr &&& maskEop = bitIf s.eop 1 := by
  rw [show maskEop = bit 1 from rfl, and_bit, readSr, s.getLsbD_srWord _ (by decide)]
  rfl

/-- R67: the last item of WAIT_DONE clears EOP and no error bit. -/
theorem State.writeSr_eop (s : State) : s.writeSr maskEop = { s with eop := false } := by
  have heop : eopAfterWrite s.eop maskEop = false := Bool.and_false _
  have herr : errAfterWrite s.err maskEop = s.err := by
    rw [errAfterWrite, show ~~~(maskEop &&& Config.errMask) = BitVec.allOnes 32 by decide, BitVec.and_allOnes]
  rw [writeSr, heop, herr]

/-- `POLL SR, m, w`, met by its first read. -/
theorem leads_pollSr {m w : Word} (hv : s.Calm → s.readSr &&& m = w) :
    Leads [.code (.sym (.poll (.reg .sr) m w))] [.cpu] s { s.useDraw with seqT := s.readSr } :=
  .single (fun h => { h with }) ⟨rfl, rfl, rfl⟩ fun hs _ _ _ h => step_pollSr h (hv hs)

/-- `s` after WAIT_DONE, which draws the reserved bits of SR twice (R66, R70). -/
def State.afterWaitDone (s : State) : State := { s.useDraw.useDraw with seqT := s.useDraw.readSr, eop := false }

/-- R70: after a completion with no error WAIT_DONE reads SR twice and clears EOP. -/
theorem leads_waitDone (he : s.eop = true) :
    Leads waitDoneItems [.cpu, .cpu, .cpu] s s.afterWaitDone :=
  have bsy : Leads [.code (.sym (.poll (.reg .sr) maskBsy 0#32))] [.cpu] s { s.useDraw with seqT := s.readSr } :=
    leads_pollSr fun hs => by rw [s.readSr_and_bsy, State.bsy_of_idle hs.idle]; rfl
  have eop := leads_pollSr (s := { s.useDraw with seqT := s.readSr }) (m := maskEop) (w := maskEop)
    fun _ => (State.readSr_and_eop _).trans (congrArg (bitIf · 1) he)
  (bsy.trans eop).trans (.single (fun h => { h with }) ⟨rfl, rfl, rfl⟩ fun _ _ _ _ h =>
    (step_wrSr h).trans (next_congr (State.writeSr_eop _)))

/-! ## An operation (R68, R71) -/

/-- `s` after `op` has been started and has completed with no error (R68, R77). -/
def State.afterCompletion (s : State) (op : Op) : State :=
  { s.useDraw with mem := op.effect s.cfg s.mem, eop := true, op := .idle }

/-- An array write that starts `op`, and its completion with no error right after it. -/
theorem leads_operation {a d : Word} {op : Op} (hf : s.cfg.inFlash a = true)
    (hw : s.Calm → ∀ pc ins p,
      (s.withCursor pc ins p).arrayWrite a d = { s.withCursor pc ins p with op := .busy op })
    (hd : s.nextDraw &&& 0x00032E00#32 = 0#32) (hp : ∀ w ∈ op.target s.cfg, w.toNat ∉ s.cfg.protectedWords) :
    Leads [.wr (.addr (.imm a)) (.imm d)] [.cpu, .complete] s (s.afterCompletion op) where
  calm h := { h with idle := rfl }
  keeps := ⟨rfl, rfl, rfl⟩
  run hs pc rest p hpre := by
    have hwrite := (step_wrArray (hs.atItem (rest := .complete :: rest) p hpre) hf).trans (next_congr (hw hs pc _ p))
    exact ⟨_, run_snoc (run_one hwrite) (step_complete_success rfl rfl hd hp)⟩

/-- R73: the array write of PROGRAM_WORD, completed with no error. -/
theorem leads_wordProgram {a d : Word} (hu : s.Acquired) (hm : s.mode = .word) (hf : s.cfg.inFlash a = true)
    (ha : a.toNat % 4 = 0) (hd : s.nextDraw &&& 0x00032E00#32 = 0#32) (hp : a.toNat ∉ s.cfg.protectedWords) :
    Leads [.wr (.addr (.imm a)) (.imm d)] [.cpu, .complete] s (s.afterCompletion (.word a d)) := by
  refine leads_operation hf (fun hs pc ins p => ?_) hd fun w hw => ?_
  · have hstart : (s.withCursor pc ins p).WriteStarts a := ⟨hf, hs.idle, hu.pelock, hu.prglock⟩
    exact (hstart.word d hm).trans (if_neg (not_not.2 ha))
  · rwa [List.mem_singleton.1 hw]

/-- R74: the array write of ERASE_PAGE, completed with no error. -/
theorem leads_pageErase {a d : Word} (hu : s.Acquired) (hm : s.mode = .erasePage) (hf : s.cfg.inFlash a = true)
    (ha : a.toNat % s.cfg.pageBytes = 0) (hd : s.nextDraw &&& 0x00032E00#32 = 0#32)
    (hp : ∀ j < s.cfg.pageWords, (a + BitVec.ofNat 32 (4 * j)).toNat ∉ s.cfg.protectedWords) :
    Leads [.wr (.addr (.imm a)) (.imm d)] [.cpu, .complete] s (s.afterCompletion (.erase a)) := by
  refine leads_operation hf (fun hs pc ins p => ?_) hd fun w hw => ?_
  · have hstart : (s.withCursor pc ins p).WriteStarts a := ⟨hf, hs.idle, hu.pelock, hu.prglock⟩
    exact (hstart.erase d hm).trans (if_neg (not_not.2 ha))
  · obtain ⟨j, hj, rfl⟩ := mem_wordAddrs.1 hw
    exact hp j hj

/-! ## PROGRAM_WORD (R82) -/

/-- `s` where WAIT_DONE of a PROGRAM_WORD has ended (R82). -/
def State.afterProgram (s : State) (a d : Word) : State := (s.afterAcquire.afterCompletion (.word a d)).afterWaitDone

/-- R82: PROGRAM_WORD from a locked controller in mode WORD, its completion right after the array write. -/
theorem leads_programWord {a d : Word} (hpe : s.pecr.pelock = true) (hprg : s.pecr.prglock = true)
    (hpq : s.peSeq = .k0) (hgq : s.prgSeq = .k0) (hm : s.mode = .word) (hf : s.cfg.inFlash a = true)
    (ha : a.toNat % 4 = 0) (hd : s.nextDraw &&& 0x00032E00#32 = 0#32) (hp : a.toNat ∉ s.cfg.protectedWords) :
    Leads (programWordItems s.cfg a d) (List.replicate 5 .cpu ++ .complete :: List.replicate 5 .cpu) s
      (s.afterProgram a d).afterRelease :=
  have hlegal : s.mode ≠ .reserved := by rw [hm]; decide
  have start := leads_acquire hpe hprg hpq hgq
  have store := start.trans (leads_wordProgram (s := s.afterAcquire) ⟨rfl, rfl, rfl, rfl⟩ hm hf ha hd hp)
  have done := store.trans (leads_waitDone (s := s.afterAcquire.afterCompletion (.word a d)) rfl)
  done.trans (leads_release (s := s.afterProgram a d) ⟨rfl, rfl, rfl, rfl⟩ hlegal)

/-- Settles O45: the end of `leads_programWord`, where the word is programmed (`programCell_writes`) and PECR has its
locks again. -/
theorem programWordStoresTheWord : Obligations.ProgramWordStoresTheWord := by
  intro s rest a v hinv hh ho hm hpe hpq hgq hmask hf ha hp hd hi hin
  have hprg := hinv.locks hpe
  have h := leads_programWord (s := s.expand (programWordItems s.cfg a v)) (d := v) hpe hprg hpq hgq hm hf ha hd hp
  obtain ⟨p, hrun⟩ := Leads.run_expansion (s := s) (i := .programWord a v) h ⟨hinv.cfg_wf, hh, hmask, ho⟩ hi rfl rfl
    (List.cons_ne_nil _ _) rfl rfl (by rw [hin, List.append_assoc]; rfl)
  obtain ⟨-, herr, hreasons⟩ := h.keeps
  refine ⟨_, hrun, rfl, rfl, ?_, ?_, ?_, rfl, rfl, rfl, rfl, herr, hreasons⟩
  · exact (programCell_writes s.cfg).word s.mem (a, v) hinv.mem_wf
  · exact fun b hb => (programCell_writes s.cfg).other s.mem (a, v) b hinv.mem_wf hb
  · exact Pecr.setLocks_of_locked hpe hprg

/-! ## ERASE_PAGE (R81) -/

/-- `s` where WAIT_DONE of an ERASE_PAGE has ended (R81). -/
def State.afterErase (s : State) (a : Word) : State :=
  ((s.afterAcquire.withMode true true).afterCompletion (.erase a)).afterWaitDone

/-- R81: ERASE_PAGE from a locked controller in mode WORD, its completion right after the array write. -/
theorem leads_erasePage {a : Word} (hpe : s.pecr.pelock = true) (hprg : s.pecr.prglock = true)
    (hpq : s.peSeq = .k0) (hgq : s.prgSeq = .k0) (hfprg : s.pecr.fprg = false) (hf : s.cfg.inFlash a = true)
    (ha : a.toNat % s.cfg.pageBytes = 0) (hd : s.nextDraw &&& 0x00032E00#32 = 0#32)
    (hp : ∀ j < s.cfg.pageWords, (a + BitVec.ofNat 32 (4 * j)).toNat ∉ s.cfg.protectedWords) :
    Leads (erasePageItems s.cfg a) (List.replicate 7 .cpu ++ .complete :: List.replicate 7 .cpu) s
      ((s.afterErase a).withMode false false).afterRelease :=
  have hmode : modeOf true true s.pecr.fprg = .erasePage := by rw [hfprg]; rfl
  have hlegal : modeOf false false s.pecr.fprg ≠ .reserved := by rw [hfprg]; decide
  have start := leads_acquire hpe hprg hpq hgq
  have set := start.trans (leads_setErase (s := s.afterAcquire) ⟨rfl, rfl, rfl, rfl⟩ hfprg)
  have erase := set.trans
    (leads_pageErase (s := s.afterAcquire.withMode true true) ⟨rfl, rfl, rfl, rfl⟩ hmode hf ha hd hp)
  have done := erase.trans (leads_waitDone (s := (s.afterAcquire.withMode true true).afterCompletion (.erase a)) rfl)
  have clear := done.trans (leads_clearErase (s := s.afterErase a) ⟨rfl, rfl, rfl, rfl⟩ hfprg)
  clear.trans (leads_release (s := (s.afterErase a).withMode false false) ⟨rfl, rfl, rfl, rfl⟩ hlegal)

/-- A locked PECR of mode WORD after ERASE_PAGE is as before, but for PROG. -/
theorem Pecr.setLocks_wordMode {p : Pecr} (hpe : p.pelock = true) (hprg : p.prglock = true) (he : p.erase = false) :
    { p with pelock := true, prglock := true, prog := false, erase := false } = { p with prog := false } := by
  cases p
  cases hpe
  cases hprg
  cases he
  rfl

/-- Settles O46: the end of `leads_erasePage`, where the page is erased (`Op.effect_erase_word`, `Op.effect_other`) and
PECR has its locks again. -/
theorem erasePageErasesThePage : Obligations.ErasePageErasesThePage := by
  intro s rest a hinv hh ho hm hpe hpq hgq hmask hf ha hd hp hi hin
  have hprg := hinv.locks hpe
  obtain ⟨herase, hfprg⟩ := (modeOf_eq_word_iff _ _ _).1 hm
  have hbytes : s.cfg.pageBytes = 4 * s.cfg.pageWords := by unfold Config.pageBytes Config.pageWords; omega
  have hfit : a.toNat + 4 * s.cfg.pageWords ≤ 2 ^ 32 :=
    hbytes ▸ (page_fits hinv.cfg_wf hf ha).1.trans (Config.flash_end_le hinv.cfg_wf)
  have h := leads_erasePage (s := s.expand (erasePageItems s.cfg a)) hpe hprg hpq hgq hfprg hf ha hd hp
  obtain ⟨p, hrun⟩ := Leads.run_expansion (s := s) (i := .erasePage a) h ⟨hinv.cfg_wf, hh, hmask, ho⟩ hi rfl rfl
    (List.cons_ne_nil _ _) rfl rfl (by rw [hin, List.append_assoc]; rfl)
  obtain ⟨-, herr, hreasons⟩ := h.keeps
  refine ⟨_, hrun, rfl, rfl, ?_, ?_, ?_, rfl, rfl, rfl, rfl, herr, hreasons⟩
  · exact fun j hj => Op.effect_erase_word hinv.mem_wf hfit hj
  · exact fun b hb => Op.effect_other (op := .erase a) hinv.mem_wf (wordAddrs_outside hfit (hbytes ▸ hb))
  · exact Pecr.setLocks_wordMode hpe hprg herase

end Sys2Proof.Machine
end

section
/-! The interrupt: what makes ENTRY the CPU's step, the rules of the CPU operations and of the two NVIC writes, and
FAULT_HANDLER run whole (R67, R84 to R91, R102). -/

namespace Sys2Proof.Machine

variable {s t : State} {rest : List Input}

/-! ## ENTRY (R89) -/

theorem State.entryEnabled_iff (s : State) : s.entryEnabled = true ↔
    s.irqPending = true ∧ s.irqEn = true ∧ s.primask = false ∧ s.inHandler = false ∧ s.halted = false := by
  simp [entryEnabled, and_assoc]

/-- R89: an enabled ENTRY is the CPU's step, whatever the item at pc is (A21). -/
theorem cpuStep_entry (he : s.entryEnabled = true) : s.cpuStep = .entry := by
  obtain ⟨-, -, -, -, hh⟩ := s.entryEnabled_iff.1 he
  simp [State.cpuStep, hh, he]

/-- R90: a halted CPU has no step. -/
theorem cpuStep_halted (hh : s.halted = true) : s.cpuStep = .none .halted := if_pos hh

theorem entryEnabled_halted (hh : s.halted = true) : s.entryEnabled = false := by
  simp [State.entryEnabled, hh]

/-- The step in which the CPU takes an enabled interrupt. -/
theorem step_entry (hin : s.inputs = .cpu :: rest) (he : s.entryEnabled = true) :
    step s = .next { s with inputs := rest }.takeEntry.latch := by
  have hc := cpuStep_entry he
  exact step_cpu hin (by rw [hc]; rfl) (by rw [hc]; rfl)

/-- Settles O40: the five conditions enable ENTRY, and its step is ENTRY and the latch (`step_entry`). -/
theorem interruptEntry : Obligations.InterruptEntry :=
  fun s _ hin hp hen hm hi hh => step_entry hin (s.entryEnabled_iff.2 ⟨hp, hen, hm, hi, hh⟩)

/-! ## CPSID, CPSIE and HALT (R85, R86, R90) -/

/-- Settles O33: the halfword is CPSID's row in the decoder, and `execCpsid` is the update stated. -/
theorem maskInterrupts : Obligations.MaskInterrupts := fun _ => ⟨rfl, rfl⟩

/-- Settles O34: with primask clear and irq_pending kept by the latch, ENTRY is enabled (`cpuStep_entry`). -/
theorem unmaskInterrupts : Obligations.UnmaskInterrupts := by
  refine fun s => ⟨rfl, rfl, fun hp hen hi hh u hu => ?_⟩
  cases hu
  exact cpuStep_entry ((State.entryEnabled_iff _).2 ⟨by simp [hp], hen, rfl, hi, hh⟩)

/-- Settles O35: a halted CPU can neither take an interrupt nor run an item. -/
theorem haltStopsTheCpu : Obligations.HaltStopsTheCpu := by
  refine fun s => ⟨rfl, rfl, fun u hu => ?_⟩
  cases hu
  exact ⟨entryEnabled_halted rfl, by rw [cpuStep_halted rfl]; rfl⟩

/-! ## The NVIC writes (R87, R88) -/

/-- R87: bit k of the priority is bit IPR_SHIFT + 8 - PRIO_BITS + k of the data, below PRIO_BITS. -/
theorem getLsbD_prioField (c : Config) (d : Word) {k : Nat} (hk : k < 8) :
    (prioField c d).getLsbD k = (decide (k < c.prioBits) && d.getLsbD (c.iprShift + 8 - c.prioBits + k)) := by
  rw [prioField, BitVec.getLsbD_ofNat, decide_eq_true hk, Bool.true_and, Nat.testBit_mod_two_pow,
    Nat.testBit_shiftRight, BitVec.testBit_toNat]

/-- Settles O36: the word by its region, and the priority bit by bit (`getLsbD_prioField`). -/
theorem priorityWrite : Obligations.PriorityWrite := by
  intro s d hc
  refine ⟨fun t => ?_, prioField s.cfg d, rfl, fun k hk => getLsbD_prioField s.cfg d hk⟩
  exact (decode_wordWrite _ _ s.cfg.nvicIpr _ _).trans (by rw [decodeWrite, regionOf_nvicIpr hc]; rfl)

/-- A word has no bit set but bit `i`, exactly when the complement of that bit masks it to 0. -/
theorem and_not_bit_eq_zero_iff (d : Word) (i : Nat) :
    d &&& ~~~(bit i) = 0#32 ↔ ∀ k < 32, k ≠ i → d.getLsbD k = false := by
  have hbit : ∀ k < 32, (d &&& ~~~(bit i)).getLsbD k = (d.getLsbD k && !decide (k = i)) := fun k hk => by
    rw [show bit i = bitIf true i from rfl, BitVec.getLsbD_and, BitVec.getLsbD_not, getLsbD_bitIf _ _ hk,
      decide_eq_true hk, Bool.true_and, Bool.true_and]
  constructor
  · intro h k hk hne
    have := hbit k hk
    rw [h] at this
    simpa [hne] using this.symm
  · intro h
    apply BitVec.eq_of_getLsbD_eq
    intro k hk
    rw [hbit k hk]
    by_cases hi : k = i
    · simp [hi]
    · simp [h k hk hi]

/-- R88: data that enables another line is refused. -/
theorem State.writeNvicIser_other {d : Word} (h : d &&& ~~~(bit s.cfg.flashIrq) ≠ 0#32) :
    s.writeNvicIser d = s.raiseRef .otherIrq := if_pos h

/-- R88: other data enables the flash line where its bit is 1. -/
theorem State.writeNvicIser_flash {d : Word} (h : d &&& ~~~(bit s.cfg.flashIrq) = 0#32) :
    s.writeNvicIser d = { s with irqEn := s.irqEn || d.getLsbD s.cfg.flashIrq } := by
  rw [writeNvicIser, if_neg (not_not.2 h)]
  cases d.getLsbD s.cfg.flashIrq <;> simp

/-- Settles O37: the word by its region, and R88's check bit by bit (`and_not_bit_eq_zero_iff`). -/
theorem lineEnableWrite : Obligations.LineEnableWrite := by
  intro s d hc
  refine ⟨fun t => ?_, fun ⟨k, hk, hne, hd⟩ => ?_, fun hd => ?_⟩
  · exact (decode_wordWrite _ _ s.cfg.nvicIser _ _).trans (by rw [decodeWrite, regionOf_nvicIser hc]; rfl)
  · have hother : d &&& ~~~(bit s.cfg.flashIrq) ≠ 0#32 := fun h =>
      absurd hd (by rw [(and_not_bit_eq_zero_iff d _).1 h k hk hne]; decide)
    rw [exec, execWrNvicIser, State.writeNvicIser_other hother]
    rfl
  · rw [exec, execWrNvicIser, State.writeNvicIser_flash ((and_not_bit_eq_zero_iff d _).2 hd)]
    rfl

/-! ## FAULT_HANDLER (R91, R102) -/

/-- R67: the handler's SR write clears every error bit and leaves EOP. -/
theorem State.writeSr_errMask (s : State) :
    s.writeSr Config.errMask = { s with err := s.err &&& ~~~Config.errMask } := by
  have heop : eopAfterWrite s.eop Config.errMask = s.eop := Bool.and_true _
  rw [writeSr, heop, errAfterWrite, BitVec.and_self]

theorem and_not_errMask (w : Word) : w &&& ~~~Config.errMask &&& 0x00032F00#32 = 0#32 := by
  rw [BitVec.and_assoc, show ~~~Config.errMask &&& 0x00032F00#32 = 0#32 by decide, BitVec.and_zero]

/-- The CPU is in FAULT_HANDLER and may fetch it: the handler lies outside the flash array, or nothing is pending (R38,
R39, R91). -/
structure State.RunsHandler (s : State) : Prop where
  cfg_wf    : s.cfg.wf = true
  halted    : s.halted = false
  inHandler : s.inHandler = true
  prog      : s.prog = handlerProgram s.cfg
  fetch     : s.cfg.inFlash s.cfg.handlerBase = false ∨ s.op = .idle

theorem State.RunsHandler.atItem {item : Item} (h : s.RunsHandler) (hin : s.inputs = .cpu :: rest)
    (hitem : faultHandlerItems[s.pc]? = some item) : AtItem s item rest where
  inputs := hin
  halted := h.halted
  entry := entryEnabled_blocked (.inr (.inr h.inHandler))
  fetch := by
    rcases h.fetch with hf | ho
    · rw [State.fetchGate, h.prog]
      exact if_neg (by rw [handlerProgram, hf]; decide)
    · exact fetchGate_idle ho
  item := by rw [h.prog]; exact hitem
  cfg_wf := h.cfg_wf

/-- R89: ENTRY leads to the handler. -/
theorem State.takeEntry_runsHandler (hc : s.cfg.wf = true) (hh : s.halted = false)
    (hf : s.cfg.inFlash s.cfg.handlerBase = false ∨ s.op = .idle) : s.takeEntry.latch.RunsHandler :=
  ⟨by simpa using hc, hh, rfl, rfl, by simpa using hf⟩

/-- `s` after the handler's SR write, `rest` the agents left (R67, R91). -/
def State.clearErrors (s : State) (rest : List Input) : State :=
  { s with inputs := rest, err := s.err &&& ~~~Config.errMask }.advance.latch

theorem State.RunsHandler.clearErrors (h : s.RunsHandler) (rest : List Input) : (s.clearErrors rest).RunsHandler :=
  { h with }

/-- R91: the handler's first item clears the error bits. -/
theorem State.RunsHandler.step_first (h : s.RunsHandler) (hin : s.inputs = .cpu :: rest) (hpc : s.pc = 0) :
    step s = .next (s.clearErrors rest) :=
  (step_wrSr (h.atItem hin (by rw [hpc]; rfl))).trans (next_congr (State.writeSr_errMask _))

/-- R91: the handler's second item halts the CPU. -/
theorem State.RunsHandler.step_second (h : s.RunsHandler) (hin : s.inputs = .cpu :: rest) (hpc : s.pc = 1) :
    step s = .next { s with inputs := rest, halted := true }.latch :=
  step_halt (h.atItem hin (by rw [hpc]; rfl))

/-- Settles O41: ENTRY (`step_entry`), and then the handler's two items, each by its own step. -/
theorem faultHandlerClearsErrorsAndHalts : Obligations.FaultHandlerClearsErrorsAndHalts := by
  intro s rest hc hf hin he
  obtain ⟨-, -, -, -, hh⟩ := s.entryEnabled_iff.1 he
  have hhandler : State.RunsHandler { s with inputs := .cpu :: .cpu :: rest }.takeEntry.latch :=
    State.takeEntry_runsHandler hc hh hf
  have hclear := hhandler.step_first rfl rfl
  have hhalt := (hhandler.clearErrors (.cpu :: rest)).step_second rfl rfl
  refine ⟨_, run_snoc (run_snoc (run_one (step_entry hin he)) hclear) hhalt, ?_⟩
  simp [State.clearErrors, and_not_errMask]

end Sys2Proof.Machine
end

section
/-! The bits of the fault path over a step: irq_en, irq_pending, in_handler and halted (R84, R89, R90, R103, R111). -/

namespace Sys2Proof.Machine

variable {s t : State}

/-- From `s` to `t` none of irq_en, halted and irq_pending is cleared, and in_handler stays. -/
structure State.keepsFaultBits (s t : State) : Prop where
  irqEn      : s.irqEn = true → t.irqEn = true
  halted     : s.halted = true → t.halted = true
  irqPending : s.irqPending = true → t.irqPending = true
  inHandler  : t.inHandler = s.inHandler

/-- `t` has what the fault path needs of RESET's values (R111), with the CPU at the first item of the boot program. -/
def State.resetTo (s t : State) : Prop :=
  t.pecr = Pecr.reset ∧ t.op = .idle ∧ t.halted = false ∧ t.inHandler = false ∧ t.prog = s.boot ∧ t.pc = 0

theorem State.applyReset_resetTo (s : State) (rest : List Input) (n : Nat) :
    s.resetTo { s.applyReset with inputs := rest, turnCount := n }.latch := ⟨rfl, rfl, rfl, rfl, rfl, rfl⟩

/-- An instruction sets irq_en and halted at most: neither is cleared by it. -/
theorem CpuEffect.keeps_irqEn_halted {c : State} (h : CpuEffect s c) :
    (s.irqEn = true → c.irqEn = true) ∧ (s.halted = true → c.halted = true) := by
  cases h with
  | pekeyr d =>
    rcases s.writePekeyr_cases d with e | ⟨-, -, q, -, e⟩ | ⟨-, -, -, e⟩ <;> rw [e] <;> exact ⟨id, id⟩
  | prgkeyr d =>
    rcases s.writePrgkeyr_cases d with e | ⟨-, -, q, -, e⟩ | ⟨-, -, -, -, e⟩ <;> rw [e] <;> exact ⟨id, id⟩
  | pecr d => rcases s.writePecr_cases d with e | e | e | e | ⟨-, -, -, e⟩ <;> rw [e] <;> exact ⟨id, id⟩
  | array a d =>
    rcases s.arrayWrite_cases a d with ⟨x, e⟩ | e | ⟨-, -, e⟩ | ⟨-, -, -, -, -, e⟩ | ⟨-, -, -, -, -, e⟩ |
      ⟨-, -, -, -, -, -, e⟩ | ⟨b, buf, -, -, e⟩ <;> rw [e]
    case inr.inr.inl => rcases s.arrWrLocked_cases with e | ⟨-, e⟩ <;> rw [e] <;> exact ⟨id, id⟩
    all_goals exact ⟨id, id⟩
  | nvicIser d =>
    rcases s.writeNvicIser_cases d with e | e | e <;> rw [e]
    · exact ⟨id, id⟩
    · exact ⟨fun _ => rfl, id⟩
    · exact ⟨id, id⟩
  | halt => exact ⟨id, fun _ => rfl⟩
  | same | drawn | ub | ref | sr | nvicIpr | mask => exact ⟨id, id⟩

/-- A CPU step that takes no interrupt keeps the bits. -/
theorem CpuEffect.keepsFaultBits {c : State} (h : CpuEffect s c) : s.keepsFaultBits c.latch := by
  obtain ⟨hen, hhalt⟩ := h.keeps_irqEn_halted
  obtain ⟨-, -, -, -, -, -, -, -, -, hirq, hhand, -⟩ := h.frame
  exact ⟨hen, hhalt, fun hp => by simp [hirq, hp], hhand⟩

/-- R68: COMPLETE keeps the bits. -/
theorem State.complete_keepsFaultBits (s : State) : s.keepsFaultBits s.complete.latch := by
  obtain ⟨m, ds, k, eop, err, e⟩ := s.complete_frame
  rw [e]
  exact ⟨id, id, fun hp => by simp [show s.irqPending = true from hp], rfl⟩

/-- A step takes an enabled interrupt, keeps the bits, or is RESET. -/
theorem step_faultBits (h : step s = .next t) :
    (s.entryEnabled = true ∧ ∃ rest n, t = { s with inputs := rest, turnCount := n }.takeEntry.latch) ∨
    s.keepsFaultBits t ∨ s.resetTo t := by
  rcases step_cases h with ⟨rest, n, u, -, hr, hu, rfl⟩ | ⟨rest, n, -, -, rfl⟩ | ⟨rest, n, -, rfl⟩
  · obtain ⟨-, ⟨he, rfl⟩ | ⟨items, c, hc, pc, temps, x, y, -, rfl⟩⟩ := runCpu_cases hr hu
    · exact .inl ⟨he, rest, n, rfl⟩
    · exact .inr (.inl { hc.keepsFaultBits with })
  · exact .inr (.inl { s.complete_keepsFaultBits with })
  · exact .inr (.inr (s.applyReset_resetTo rest n))

/-- R84: every step ends in the latch. -/
theorem step_latched (h : step s = .next t) : t.latched := by
  obtain ⟨u, rfl⟩ : ∃ u : State, t = u.latch := by
    rcases step_cases h with ⟨rest, n, u, -, -, -, e⟩ | ⟨rest, n, -, -, e⟩ | ⟨rest, n, -, e⟩ <;> exact ⟨_, e⟩
  exact fun hl => u.latch_irqPending_iff.2 (.inr hl)

/-- R90: a halted CPU makes no step, so what moves is the controller or the environment. -/
theorem step_halted (hh : s.halted = true) (h : step s = .next t) :
    (s.completeEnabled = true ∧ ∃ rest n, t = { s.complete with inputs := rest, turnCount := n }.latch) ∨
    s.resetTo t := by
  rcases step_cases h with ⟨rest, n, u, -, hr, hu, rfl⟩ | ⟨rest, n, -, hb, rfl⟩ | ⟨rest, n, -, rfl⟩
  · obtain ⟨hnot, -⟩ := runCpu_cases hr hu
    simp [hh] at hnot
  · exact .inl ⟨hb, rest, n, rfl⟩
  · exact .inr (s.applyReset_resetTo rest n)

/-- Settles O51: the latch ends every step (`step_latched`); only ENTRY and RESET do not keep the bit
(`step_faultBits`). -/
theorem pendingBitLatchesTheLine : Obligations.PendingBitLatchesTheLine := by
  intro s t h
  refine ⟨step_latched h, fun h1 h0 => ?_⟩
  rcases step_faultBits h with ⟨he, rest, n, rfl⟩ | hk | hr
  · exact .inl ⟨he, rfl, rfl, rfl⟩
  · simp [hk.irqPending h1] at h0
  · exact .inr hr

/-- Settles O58: ENTRY clears none of the bits, so what clears one is RESET (`step_faultBits`); from a halted state the
step is COMPLETE or RESET (`step_halted`). -/
theorem onlyResetLeavesTheFaultPath : Obligations.OnlyResetLeavesTheFaultPath := by
  intro s t h
  refine ⟨fun hclear => ?_, fun h1 h1' => ?_⟩
  · rcases step_faultBits h with ⟨-, rest, n, rfl⟩ | hk | hr
    · rcases hclear with ⟨h1, h0⟩ | ⟨-, h0⟩ | ⟨h1, h0⟩
      · simp [h1] at h0
      · simp at h0
      · simp [h1] at h0
    · rcases hclear with ⟨h1, h0⟩ | ⟨h1, h0⟩ | ⟨h1, h0⟩
      · simp [hk.irqEn h1] at h0
      · simp [hk.inHandler, h1] at h0
      · simp [hk.halted h1] at h0
    · exact hr
  · rcases step_halted h1 h with ⟨hb, rest, n, rfl⟩ | ⟨-, -, h0, -⟩
    · obtain ⟨m, ds, k, eop, err, e⟩ := s.complete_frame
      rw [e, if_pos hb]
      exact ⟨hb, rfl, rfl, rfl, rfl, rfl, rfl, rfl, fun x => by cases x <;> rfl⟩
    · simp [h1'] at h0

/-- Settles O59: of the three ways of `step_faultBits` only ENTRY sets in_handler. -/
theorem entryOnlyWhenEnabled : Obligations.EntryOnlyWhenEnabled := by
  intro s t h h0 h1
  rcases step_faultBits h with ⟨he, rest, n, rfl⟩ | hk | ⟨-, -, -, h0', -⟩
  · obtain ⟨hp, hen, hm, -, hh⟩ := s.entryEnabled_iff.1 he
    exact ⟨hp, hen, hm, hh, by simp [handlerProgram]⟩
  · simp [hk.inHandler, h0] at h1
  · simp [h1] at h0'

end Sys2Proof.Machine
end

section
/-! INIT run whole: its write of PECR leaves PRGLOCK set, so each PECR write of it is one that may re-arm a sequencer (R55,
R59, R92). -/

namespace Sys2Proof.Machine

variable {s : State}

/-- R92: the word INIT writes is that of the PECR it has read, in mode WORD with ERRIE = 1 and EOPIE = 0. -/
theorem Pecr.toWord_initDefaults (p : Pecr) :
    p.toWord &&& ~~~(maskProg ||| maskErase ||| maskFprg ||| maskEopie) ||| maskErrie =
      { p with prog := false, erase := false, fprg := false, eopie := false, errie := true }.toWord := by
  have hprog : maskProg = bitIf true 3 := by decide
  have herase : maskErase = bitIf true 9 := by decide
  have hfprg : maskFprg = bitIf true 10 := by decide
  have heopie : maskEopie = bitIf true 16 := by decide
  have herrie : maskErrie = bitIf true 17 := by decide
  apply BitVec.eq_of_getLsbD_eq
  intro k hk
  simp only [hprog, herase, hfprg, heopie, herrie, BitVec.getLsbD_and, BitVec.getLsbD_not, BitVec.getLsbD_or,
    getLsbD_bitIf _ _ hk, getLsbD_toWord _ hk, hk, decide_true, Bool.true_and]
  split_ifs <;> simp [*]

/-- `s` after its PECR has been read and written as `q`, a sequencer re-armed where `q` sets its lock (R59, R60). -/
def State.rewritePecr (s : State) (q : Pecr) : State :=
  { s with
    pecr := q
    seqT := s.pecr.toWord
    peSeq := if q.pelock then rearm s.peSeq else s.peSeq
    prgSeq := if q.prglock then rearm s.prgSeq else s.prgSeq }

/-- What R59 asks of the word of `q` written over `p` with nothing pending, for the write to leave `q`. -/
structure Pecr.accepts (p q : Pecr) : Prop where
  pelock  : p.pelock = false
  mode    : modeOf q.prog q.erase q.fprg ≠ .reserved
  locks   : q.pelock = true → q.prglock = true
  prglock : p.prglock = true → q.prglock = true

/-- R59: the write of an accepted word. -/
theorem State.writePecr_toWord_accepted (ho : s.op = .idle) {q : Pecr} (ha : s.pecr.accepts q) :
    s.writePecr q.toWord =
      { s with
        pecr := q
        peSeq := if q.pelock then rearm s.peSeq else s.peSeq
        prgSeq := if q.prglock then rearm s.prgSeq else s.prgSeq } := by
  obtain ⟨h0, h1, h3, h4, h8, h9, h10, h16, h17⟩ := q.toWord_bits
  have hlock : (q.prglock || q.pelock) = q.prglock := Bool.or_eq_left_iff_imp.2 ha.locks
  have hkept : (s.pecr.prglock || q.prglock) = q.prglock := Bool.or_eq_right_iff_imp.2 ha.prglock
  have hpecr : pecrAfterWrite s.pecr q.toWord = q := by
    simp only [pecrAfterWrite, h0, h1, h3, h9, h10, h16, h17, ha.pelock, Bool.false_or, hkept, hlock]
  rw [writePecr_accepted ho ha.pelock h4 h8 (by rw [h3, h9, h10]; exact ha.mode), hpecr, h0, h1, hlock]

/-- `RD PECR -> t; WR PECR, x`, where `x` makes the word of `q` of what was read. -/
theorem leads_rewritePecr {x : Expr} {q : Pecr} (ha : s.pecr.accepts q)
    (hx : ∀ t : State, t.readTemp .seqT = s.pecr.toWord → t.evalExpr x = q.toWord) :
    Leads [readPecrItem, .wr (.reg .pecr) x] [.cpu, .cpu] s (s.rewritePecr q) :=
  have read : Leads [readPecrItem] [.cpu] s { s with seqT := s.pecr.toWord } :=
    .single (fun h => { h with }) ⟨rfl, rfl, rfl⟩ fun _ _ _ _ h => step_rdPecr h
  read.trans (.single (fun h => { h with }) ⟨rfl, rfl, rfl⟩ fun hs pc rest p h => by
    rw [step_wrPecr h, hx _ rfl]
    refine next_congr (State.writePecr_toWord_accepted ?_ ?_)
    · exact hs.idle
    · exact ha)

/-- `s` after the two keys of INIT (R61). -/
def State.afterPeKeys (s : State) : State := { s with pecr := { s.pecr with pelock := false }, peSeq := .k0 }

/-- `s` after INIT's first write of PECR (R92). -/
def State.withDefaults (s : State) : State :=
  s.rewritePecr { s.pecr with prog := false, erase := false, fprg := false, eopie := false, errie := true }

/-- `s` after INIT's RELEASE (R64). -/
def State.relocked (s : State) : State := s.rewritePecr { s.pecr with pelock := true, prglock := true }

/-- R92: mode WORD, ERRIE = 1 and EOPIE = 0, the locks as they were. -/
theorem leads_withDefaults (hl : s.pecr.pelock = false) :
    Leads [readPecrItem,
      .wr (.reg .pecr) (.or (.and (.temp .seqT)
        (.not (.or (.or (.or (.imm maskProg) (.imm maskErase)) (.imm maskFprg)) (.imm maskEopie)))) (.imm maskErrie))]
      [.cpu, .cpu] s s.withDefaults :=
  leads_rewritePecr ⟨hl, (by decide : modeOf false false false ≠ .reserved), fun h => by simp [hl] at h, id⟩
    fun t ht => by
      simp only [State.evalExpr, ht]
      exact s.pecr.toWord_initDefaults

/-- R64: RELEASE with PRGLOCK set or clear. -/
theorem leads_relocked (hl : s.pecr.pelock = false) (hm : s.mode ≠ .reserved) :
    Leads releaseItems [.cpu, .cpu] s s.relocked :=
  leads_rewritePecr ⟨hl, hm, fun _ => rfl, fun _ => rfl⟩ fun t ht => by
    simp only [State.evalExpr, ht]
    exact s.pecr.toWord_or_locks

/-- R92: INIT from a locked controller in K0, whatever PECR is. -/
theorem leads_init (hl : s.pecr.pelock = true) (hq : s.peSeq = .k0) :
    Leads (initItems s.cfg) (List.replicate 6 .cpu) s s.afterPeKeys.withDefaults.relocked :=
  have keys : Leads (acquirePeItems s.cfg) [.cpu, .cpu] s s.afterPeKeys := leads_acquirePe hl hq
  have defaults := keys.trans (leads_withDefaults (s := s.afterPeKeys) rfl)
  defaults.trans (leads_relocked (s := s.afterPeKeys.withDefaults) rfl
    (by decide : modeOf false false false ≠ .reserved))

/-- Settles O44: the end of `leads_init`, where every field of PECR has been written. -/
theorem initSetsTheDefaults : Obligations.InitSetsTheDefaults := by
  intro s rest hinv hh ho hl hq hmask hi hin
  have h := leads_init (s := s.expand (initItems s.cfg)) hl hq
  obtain ⟨p, hrun⟩ := Leads.run_expansion (s := s) (i := .init) h ⟨hinv.cfg_wf, hh, hmask, ho⟩ hi rfl rfl
    (List.cons_ne_nil _ _) rfl rfl hin
  exact ⟨_, hrun, rfl, rfl, rfl, rfl, ho, rfl, rfl, rfl, rfl, rfl, rfl⟩

end Sys2Proof.Machine
end

section
/-! RESET when the environment moves next: the values it gives, and what it leaves of the array (R101, R111, R112). -/

namespace Sys2Proof.Machine

variable {s : State}

/-- R112: RESET leaves the array when a word of the pending operation's target is protected. -/
theorem State.applyReset_mem_of_protected {op : Op} (ho : s.op = .busy op) (hp : op.protectedTarget s.cfg = true) :
    s.applyReset.mem = s.mem := by
  rw [applyReset_mem]
  simp only [resetArray, ho, if_pos hp]

/-- R84, R111: the latch after RESET changes nothing, for RESET clears the bits that raise the line. -/
theorem State.applyReset_latch (s : State) (rest : List Input) :
    State.latch { s.applyReset with inputs := rest } = { s.applyReset with inputs := rest } := rfl

/-- R101, R111: when the next input is RESET, the step gives RESET's values. -/
theorem step_reset {rest : List Input} (hin : s.inputs = .reset :: rest) :
    step s = .next { s.applyReset with inputs := rest } := by
  simp only [step, machineStep, hin, nextAgent, latchNext, ← s.applyReset_turnCount, State.applyReset_latch]

/-- Settles O48: the step is RESET (`step_reset`), whose values `applyReset_frame` gives; the array is left where nothing
is BUSY or a target word is protected, and outside the target otherwise. -/
theorem resetStep : Obligations.ResetStep := by
  intro s rest hm hin
  refine ⟨_, step_reset hin, ?_, State.applyReset_mem_of_not_busy, fun op ho =>
    ⟨State.applyReset_mem_of_protected ho, fun b hb => State.applyReset_other ho hm hb⟩⟩
  obtain ⟨m, ds, k, h⟩ := s.applyReset_frame
  rw [h]
  rfl

end Sys2Proof.Machine
end
